-- ==== Sys2Proof/Word.lean ====
section
/-! DEFINITION. The words of the codec core: a byte, a command word, a 7-bit counter (R6, R50, R12). -/

namespace Sys2Proof

/-- Every input, output, payload and status unit is 8 bits (R6, `BYTE_BITS`). -/
abbrev Byte := BitVec 8

/-- The command port carries one 10-bit word a step (R50). -/
abbrev CommandWord := BitVec 10

/-- The width of `enc.run_count`, `dec.remaining` and the status byte's length field (R6 `LEN_BITS`, D15). -/
abbrev Count := BitVec 7

end Sys2Proof
end

