-- ==== Sys2Proof/Config.lean ====
section
/-! DEFINITION. What is fixed for the block: its parameters (R6), the values its enumerated registers take
(R17 to R25, R92), and the two parameters the source leaves open, as free values (R7). -/

namespace Sys2Proof

/-- `MAX_LEN`: the largest record length, and the cap on literal and run length (R6). -/
def Config.maxLen : Nat := 127

/-- `BUF_CAP`: the number of cells of the block buffer (R6, R35). -/
def Config.bufCap : Nat := 127

/-- `MIN_RUN`: the length at which the encoder enters REPEATING (R6). -/
def Config.minRun : Nat := 2

/-- `sess` (R17). -/
inductive Sess where
  | idle | active | done | faulted
  deriving DecidableEq, Repr

/-- `smode` (R18). -/
inductive SMode where
  | compress | decompress
  deriving DecidableEq, Repr

/-- The four kinds of fault (R92). `err` holds one of them, or NONE. -/
inductive FaultKind where
  | readFault | writeFault | truncatedStream | illegalCommand
  deriving DecidableEq, Repr

/-- `enc.mode` (R21). -/
inductive EncMode where
  | accumulating | repeating
  deriving DecidableEq, Repr

/-- `dec.phase` (R25). The encoding 3 is never held, so it has no value here. -/
inductive Phase where
  | awaitingStatus | readingRunByte | readingBlockBytes
  deriving DecidableEq, Repr

/-- The kind of a record: bit 7 of its status byte (R53). -/
inductive Kind where
  | literal | runLength
  deriving DecidableEq, Repr

/-- The sink's answer to one `Emit` or one `SinkFlush` (R7, R39, R41). -/
inductive SinkAnswer where
  | accept | reject
  deriving DecidableEq, Repr, Inhabited

/-- `sink_accept` (R7, D12), a free value: the answer to the draw with this number, once the answers that the
host has ready in `State` have run out. No body: nothing can be proved of its values. Log entry 4. -/
opaque Config.sinkAccept : Nat → SinkAnswer

/-- `sink_durable_prefix` (R7, R42, D14), a free value: how many bytes of `out` the sink holds of the session that
makes the log entry with this number. A length beyond that of `out` stands for all of `out`. No body. Log entry 5. -/
opaque Config.sinkDurable : Nat → Nat

end Sys2Proof
end

