-- ==== Sys2Proof/Syntax.lean ====
section
/-! DEFINITION. The instructions: one constructor per row of spec/opcode_table.json. -/

namespace Sys2Proof

/-- The commands that need a running session (R89). -/
inductive SessionCommand where
  | byte (b : Byte)
  | fin
  | srcfault
  deriving DecidableEq, Repr

/-- One constructor per row of the opcode table: eleven rows of command words (space CMD), four classes of status
byte (space STATUS) and two payload rows (space PAYLOAD). A row of the last two spaces is the byte that a BYTE command
carries in a decompress session (R57, R76). -/
inductive Instr where
  /-- INIT.C (R85). -/
  | initC
  /-- INIT.D (R86). -/
  | initD
  /-- ENC.BYTE (R65 to R71). -/
  | encByte (b : Byte)
  /-- DEC.BYTE (R76 to R81). -/
  | decByte (b : Byte)
  /-- ENC.FIN (R72). -/
  | encFin
  /-- DEC.FIN (R82). -/
  | decFin
  /-- SRCFAULT (R87). -/
  | srcfault
  /-- BYTE, FIN or SRCFAULT outside a session (R89, R90). -/
  | outsideSession (c : SessionCommand)
  /-- ILLEGAL (INIT space), words 0x002..0x0FF (R88). -/
  | illegalInit (data : Byte)
  /-- ILLEGAL (FIN space), words 0x201..0x2FF (R88). -/
  | illegalFin (data : Byte)
  /-- ILLEGAL (SRCFAULT space), words 0x301..0x3FF (R88). -/
  | illegalSrcfault (data : Byte)
  /-- ST.NOP0, status byte 0x00 (R79). -/
  | stNop0
  /-- ST.NOP80, status byte 0x80 (R79). -/
  | stNop80
  /-- ST.LIT, status bytes 0x01..0x7F (R77). -/
  | stLit (len : Count)
  /-- ST.RUN, status bytes 0x81..0xFF (R78). -/
  | stRun (len : Count)
  /-- PAYLOAD.RUN, the content byte of a run (R80). -/
  | payloadRun (c : Byte)
  /-- PAYLOAD.LIT, a byte of a literal block (R81). -/
  | payloadLit (d : Byte)
  deriving DecidableEq, Repr

end Sys2Proof
end

