-- ==== Sys2Proof/WellFormed.lean ====
section
/-! DEFINITION. Which terms of `Instr` stand for a row of the opcode table with operands the row admits. -/

namespace Sys2Proof

/-- INIT words with `data[7:1] = 0` are legal, so the illegal row starts at data 0x02; FIN and SRCFAULT words are
illegal from data 0x01 (R52, R88). A literal or run class has `L ≠ 0` (R57). Every other operand is free. -/
def Instr.wf : Instr → Bool
  | .illegalInit data => 2 ≤ data.toNat
  | .illegalFin data => data ≠ 0#8
  | .illegalSrcfault data => data ≠ 0#8
  | .stLit len => len ≠ 0#7
  | .stRun len => len ≠ 0#7
  | .initC | .initD | .encByte _ | .decByte _ | .encFin | .decFin | .srcfault | .outsideSession _ | .stNop0 | .stNop80
  | .payloadRun _ | .payloadLit _ => true

/-- The rows of the spaces STATUS and PAYLOAD: bytes of the compressed stream (R57). -/
def Instr.isStream : Instr → Bool
  | .stNop0 | .stNop80 | .stLit _ | .stRun _ | .payloadRun _ | .payloadLit _ => true
  | .initC | .initD | .encByte _ | .decByte _ | .encFin | .decFin | .srcfault | .outsideSession _ | .illegalInit _
  | .illegalFin _ | .illegalSrcfault _ => false

/-- The session state and mode in which the table takes a command-word row for its word (the rows' conditions). -/
def Instr.selectedIn (sess : Sess) (smode : SMode) : Instr → Bool
  | .initC | .initD | .illegalInit _ | .illegalFin _ | .illegalSrcfault _ => true
  | .encByte _ | .encFin => sess = .active ∧ smode = .compress
  | .decByte _ | .decFin => sess = .active ∧ smode = .decompress
  | .srcfault => sess = .active
  | .outsideSession _ => sess ≠ .active
  | .stNop0 | .stNop80 | .stLit _ | .stRun _ | .payloadRun _ | .payloadLit _ => false

/-- The decoder phase in which the table takes a stream row for its byte (the rows' conditions). -/
def Instr.selectedAt (phase : Phase) : Instr → Bool
  | .stNop0 | .stNop80 | .stLit _ | .stRun _ => phase = .awaitingStatus
  | .payloadRun _ => phase = .readingRunByte
  | .payloadLit _ => phase = .readingBlockBytes
  | .initC | .initD | .encByte _ | .decByte _ | .encFin | .decFin | .srcfault | .outsideSession _ | .illegalInit _
  | .illegalFin _ | .illegalSrcfault _ => false

end Sys2Proof
end

