-- ==== Sys2Proof/Decode.lean ====
section
/-! DEFINITION. Decoding command words and status bytes (R50 to R57, R60), and the encoder (R50, R59), with the
assembler's pseudo-instructions (R58). -/

namespace Sys2Proof

/-! ### The fields of a command word (R50) -/

/-- `op = CW[9:8]`. -/
def opField (w : CommandWord) : BitVec 2 := w.extractLsb' 8 2

/-- `data = CW[7:0]`. -/
def dataField (w : CommandWord) : Byte := w.extractLsb' 0 8

/-- The word with these two fields. -/
def mkWord (op : BitVec 2) (data : Byte) : CommandWord := op ++ data

/-- The four operations (R50). -/
inductive Op where
  | init | byte | fin | srcfault
  deriving DecidableEq, Repr

/-- 00 INIT, 01 BYTE, 10 FIN, 11 SRCFAULT (R50). -/
def opOf (w : CommandWord) : Op :=
  match (opField w).toNat with
  | 0 => .init
  | 1 => .byte
  | 2 => .fin
  | _ => .srcfault

def initWord : SMode → CommandWord
  | .compress => mkWord 0#2 0x00#8
  | .decompress => mkWord 0#2 0x01#8
def byteWord (b : Byte) : CommandWord := mkWord 1#2 b
def finWord : CommandWord := mkWord 2#2 0x00#8
def srcfaultWord : CommandWord := mkWord 3#2 0x00#8

/-- The illegal words of R52, whatever the state. -/
def illegalWord (w : CommandWord) : Bool :=
  match opOf w with
  | .init => 2 ≤ (dataField w).toNat
  | .byte => false
  | .fin => dataField w ≠ 0#8
  | .srcfault => dataField w ≠ 0#8

/-- A legal INIT word: `op = 00` and `data[7:1] = 0` (R84, R90). -/
def legalInit (w : CommandWord) : Bool := opOf w = .init ∧ ¬ illegalWord w

/-! ### The status byte (R53, R54, R60) -/

/-- `decode_status(S)`: the kind is bit 7, the length bits 6..0; total (R60). -/
def decodeStatus (b : Byte) : Kind × Count :=
  (if b.getLsbD 7 then .runLength else .literal, b.extractLsb' 0 7)

/-- `encode_status(kind, len)`: `len` with bit 7 set for a run; no value outside `1 ≤ len ≤ 127` (R59). -/
def encodeStatus (kind : Kind) (len : Nat) : Option Byte :=
  if 1 ≤ len ∧ len ≤ Config.maxLen then
    some (BitVec.ofNat 8 len ||| (match kind with | .runLength => 0x80#8 | .literal => 0x00#8))
  else none

/-- The length in bytes of the record that status byte `b` begins (R56). -/
def recordLength (b : Byte) : Nat :=
  if (decodeStatus b).2 = 0#7 then 1
  else match (decodeStatus b).1 with
    | .runLength => 2
    | .literal => 1 + (decodeStatus b).2.toNat

/-! ### Decoding -/

/-- The row of the opcode table's space CMD that a command word is, given the session state and mode that the rows'
conditions read (R51, R52, R84, R89). Total: every word is some row. -/
def decode (sess : Sess) (smode : SMode) (w : CommandWord) : Instr :=
  let data := dataField w
  match opOf w with
  | .init =>
    if data = 0#8 then .initC else if data = 1#8 then .initD else .illegalInit data
  | .byte =>
    match sess, smode with
    | .active, .compress => .encByte data
    | .active, .decompress => .decByte data
    | .idle, _ | .done, _ | .faulted, _ => .outsideSession (.byte data)
  | .fin =>
    if data ≠ 0#8 then .illegalFin data
    else match sess, smode with
    | .active, .compress => .encFin
    | .active, .decompress => .decFin
    | .idle, _ | .done, _ | .faulted, _ => .outsideSession .fin
  | .srcfault =>
    if data ≠ 0#8 then .illegalSrcfault data
    else if sess = .active then .srcfault else .outsideSession .srcfault

/-- The row of the spaces STATUS and PAYLOAD that a byte of the compressed stream is: `dec.phase` selects the space,
and the zero-length rows come before ST.LIT and ST.RUN (R57, R76). -/
def decodeStream (phase : Phase) (b : Byte) : Instr :=
  match phase with
  | .awaitingStatus =>
    match (decodeStatus b).1 with
    | .literal => if (decodeStatus b).2 = 0#7 then .stNop0 else .stLit (decodeStatus b).2
    | .runLength => if (decodeStatus b).2 = 0#7 then .stNop80 else .stRun (decodeStatus b).2
  | .readingRunByte => .payloadRun b
  | .readingBlockBytes => .payloadLit b

/-- Why bytes are no word of the block. -/
inductive DecodeError where
  /-- Not two bytes: the command port carries whole words of 10 bits (R50). Safe: such bytes name no word. -/
  | notOneWord
  /-- A bit above `CW[9]` is set (R50). Safe: such bytes name no word. -/
  | beyondTenBits
  deriving DecidableEq, Repr

/-- A command word written as two bytes, the low byte first, bits 15..10 zero. The port has no byte form of its own;
this one only carries the opcode table's numbering. Log entry 9. -/
def wordOfBytes : List Byte → Except DecodeError CommandWord
  | [lo, hi] =>
    if hi.toNat < 4 then .ok (BitVec.ofNat 10 (hi.toNat * 256 + lo.toNat)) else .error .beyondTenBits
  | [] | [_] | _ :: _ :: _ :: _ => .error .notOneWord

/-- Decoding any bytes: a command word, or a rejection by name. -/
def decodeBytes (sess : Sess) (smode : SMode) (bs : List Byte) : Except DecodeError Instr :=
  match wordOfBytes bs with
  | .ok w => .ok (decode sess smode w)
  | .error e => .error e

/-- The `n` bytes of `w`, the low byte first. -/
def bytesOf : Nat → Nat → List Byte
  | 0, _ => []
  | n + 1, w => BitVec.ofNat 8 w :: bytesOf n (w / 256)

/-- The instruction of a word numbered as the opcode table numbers it. A one-byte row is a status byte, read in
AWAITING_STATUS; a wider row is a command word, read in a compress session. The words of ENC.BYTE and DEC.BYTE, and of
ENC.FIN and DEC.FIN, are the same, and only `smode` tells them apart (R51). Log entry 9. -/
def decodeTableWord (nbits w : Nat) : Option Instr :=
  match bytesOf ((nbits + 7) / 8) w with
  | [b] => some (decodeStream .awaitingStatus b)
  | bs =>
    match decodeBytes .active .compress bs with
    | .ok i => some i
    | .error _ => none

/-! ### Encoding -/

def SessionCommand.word : SessionCommand → CommandWord
  | .byte b => byteWord b
  | .fin => finWord
  | .srcfault => srcfaultWord

/-- The byte of the compressed stream that a STATUS or PAYLOAD row stands for (R57). -/
def streamByte : Instr → Option Byte
  | .stNop0 => some 0x00#8
  | .stNop80 => some 0x80#8
  | .stLit len => some (len.setWidth 8)
  | .stRun len => some (0x80#8 ||| len.setWidth 8)
  | .payloadRun c => some c
  | .payloadLit d => some d
  | .initC | .initD | .encByte _ | .decByte _ | .encFin | .decFin | .srcfault | .outsideSession _ | .illegalInit _
  | .illegalFin _ | .illegalSrcfault _ => none

/-- The command word of an instruction (R50). A stream row's word is the BYTE command that carries its byte. -/
def encode : Instr → CommandWord
  | .initC => initWord .compress
  | .initD => initWord .decompress
  | .encByte b => byteWord b
  | .decByte b => byteWord b
  | .encFin => finWord
  | .decFin => finWord
  | .srcfault => srcfaultWord
  | .outsideSession c => c.word
  | .illegalInit data => mkWord 0#2 data
  | .illegalFin data => mkWord 2#2 data
  | .illegalSrcfault data => mkWord 3#2 data
  | .stNop0 => byteWord 0x00#8
  | .stNop80 => byteWord 0x80#8
  | .stLit len => byteWord (len.setWidth 8)
  | .stRun len => byteWord (0x80#8 ||| len.setWidth 8)
  | .payloadRun c => byteWord c
  | .payloadLit d => byteWord d

/-! ### Assembler lines (R58) -/

/-- The commands and the pseudo-instructions of R58. -/
inductive AsmLine where
  | initC | initD | byte (b : Byte) | fin | srcfault
  /-- `BYTES b0, b1, ..., bk` -/
  | bytes (bs : List Byte)
  /-- `BYTES [b]*n` -/
  | repeated (b : Byte) (n : Nat)
  /-- `COMPRESS xs` -/
  | compress (xs : List Byte)
  /-- `DECOMPRESS xs` -/
  | decompress (xs : List Byte)
  deriving DecidableEq, Repr

/-- The command words a line expands to (R58). -/
def AsmLine.words : AsmLine → List CommandWord
  | .initC => [initWord .compress]
  | .initD => [initWord .decompress]
  | .byte b => [byteWord b]
  | .fin => [finWord]
  | .srcfault => [srcfaultWord]
  | .bytes bs => bs.map byteWord
  | .repeated b n => (List.replicate n b).map byteWord
  | .compress xs => initWord .compress :: (xs.map byteWord ++ [finWord])
  | .decompress xs => initWord .decompress :: (xs.map byteWord ++ [finWord])

end Sys2Proof
end

