-- ==== Sys2Proof/Machine/State.lean ====
section
/-! DEFINITION. The state of the block (R15 to R27), the host's port, the session log, the reasons a step can stop,
and the state after reset (R33). -/

namespace Sys2Proof.Machine

/-- Why the model stops. The spec's four kinds of fault (R92) are not here: they are states of the block. -/
inductive Fault where
  /-- `ModelUnwrittenRead` (R9, D18): a register or cell that holds ⊥ was read. Raised by every read of a register or
  cell that may hold ⊥, which only fault entry leaves (R97). Safe: the spec gives the read no value, and the rules never
  reach one (R28, R29). -/
  | modelUnwrittenRead
  /-- `ModelInvariant` (R12, R35, R59, R76, D15, D28, I3): a counter, a cell index or a record length outside the
  range the rules keep to. Raised by the commands and primitives that find one. Safe: the spec gives such a value no
  effect, and the rules never reach one. -/
  | modelInvariant
  deriving DecidableEq, Repr

/-- Why a step has no meaning. -/
inductive Refusal where
  /-- An instruction that `exec` has no meaning for yet, by its mnemonic. Raised by no arm. Safe. -/
  | notModelled (mnemonic : String)
  deriving DecidableEq, Repr

/-- The block buffer's cells, as (index, byte) pairs in one canonical form: indices strictly rising and below 127.
An unlisted cell holds ⊥ (`Memory.unlisted`). -/
abbrev Memory := List Host.Cell

/-- What an unlisted cell holds: ⊥, no value (R24, R97). -/
def Memory.unlisted : Option Byte := none

/-- Every cell at the value it has after reset and INIT, which the spec leaves unspecified: 0x00. Log entry 13. -/
def Memory.zeros : Memory := (List.range Config.bufCap).map fun i => (i, 0x00#8)

/-- The canonical form, from index `lo` on. -/
def Memory.wfFrom (lo : Nat) : Memory → Bool
  | [] => true
  | (a, _) :: m => decide (lo ≤ a) && decide (a < Config.bufCap) && Memory.wfFrom (a + 1) m

/-- The canonical form. No entry can equal what an unlisted cell holds, since an entry holds a byte. -/
def Memory.wf (m : Memory) : Bool := Memory.wfFrom 0 m

/-- The encoder's registers (R21 to R24). `none` is ⊥ as fault entry leaves it (R97). Log entry 1. -/
structure EncRegs where
  mode        : Option EncMode
  pendingByte : Option Byte
  runCount    : Option Count
  blockBuffer : Memory
  deriving DecidableEq, Repr

/-- The decoder's registers (R25, R26). `none` is ⊥ as fault entry leaves it (R97). Log entry 1. -/
structure DecRegs where
  phase     : Option Phase
  remaining : Option Count
  deriving DecidableEq, Repr

/-- What the host can do to the block: issue a command word (R84), or assert reset between commands (R108). -/
inductive HostEvent where
  | command (w : CommandWord)
  | reset
  deriving DecidableEq, Repr

/-- The host's side of the port, which is no register of the block: the events it has issued, oldest first, and the
answers it has ready for the coming `sink_accept` draws, with the number of draws taken so far. Log entries 3, 4. -/
structure Port where
  pending : List HostEvent
  answers : List SinkAnswer
  draws   : Nat
  deriving DecidableEq, Repr

/-- How a session ended, with its output and what the sink holds of it (R42, R91, R100). Log entry 5. -/
inductive LogEntry where
  /-- The session ended in DONE: the sink holds exactly `out`. -/
  | finished (mode : SMode) (out : List Byte)
  /-- The session ended in FAULTED from ACTIVE: the sink holds `held`, a prefix of `out`. -/
  | faulted (kind : FaultKind) (mode : SMode) (out held : List Byte)
  /-- INIT or reset came while ACTIVE: no exit code, and the sink holds `held`, a prefix of `out`. -/
  | abandoned (mode : SMode) (out held : List Byte)
  /-- A fault in IDLE or DONE (R89): it ends no session, and the sink keeps what it had. -/
  | misuse (kind : FaultKind)
  deriving DecidableEq, Repr

/-- Every register of the block (section 2 of 10_state.md), the host's port and the session log. `exit_code` is
computed, not stored (R20). `err` is `none` for NONE (R19). -/
structure State where
  sess  : Sess
  smode : SMode
  err   : Option FaultKind
  enc   : EncRegs
  dec   : DecRegs
  out   : List Byte
  port  : Port
  log   : List LogEntry
  deriving DecidableEq, Repr

/-- The encoder's registers after reset and INIT (R33, R85, R86). The pending byte and the cells are unspecified there, and
hold 0x00 (log entry 13). -/
def EncRegs.fresh : EncRegs :=
  { mode := some .accumulating, pendingByte := some 0x00#8, runCount := some 0#7, blockBuffer := Memory.zeros }

/-- The decoder's registers after reset and INIT (R33, R85, R86). The remaining count is unspecified there, and holds 0 (log
entry 13). -/
def DecRegs.fresh : DecRegs := { phase := some .awaitingStatus, remaining := some 0#7 }

/-- Every encoder register at ⊥ (R97). -/
def EncRegs.bottom : EncRegs := { mode := none, pendingByte := none, runCount := none, blockBuffer := [] }

/-- Every decoder register at ⊥ (R97). -/
def DecRegs.bottom : DecRegs := { phase := none, remaining := none }

/-- The state after reset (R33), with no event issued, no answer ready and nothing logged. -/
def State.reset : State :=
  { sess := .idle, smode := .compress, err := none, enc := .fresh, dec := .fresh, out := [],
    port := { pending := [], answers := [], draws := 0 }, log := [] }

end Sys2Proof.Machine
end

