-- ==== Sys2Proof/Machine/Ops.lean ====
section
/-! DEFINITION. The shared operations: how a command's pseudocode runs (R9, R10), the block buffer (R35), the sink
(R39, R41), fault entry (R97), the start and the end of a session (R72, R82, R85, R86), and reset (R108). -/

namespace Sys2Proof.Machine

/-! ### How a command's pseudocode runs -/

/-- How a stretch of pseudocode ends: it ran to its end, it raised a fault of the block (R10 `raise`), or the model
stops. Nothing after a `raise` in the same command runs. -/
inductive Flow where
  | done (s : State)
  | raised (kind : FaultKind) (s : State)
  | stop (f : Fault)
  deriving DecidableEq, Repr

/-- One stretch of pseudocode after another (R9). -/
def Flow.andThen (r : Flow) (k : State → Flow) : Flow :=
  match r with
  | .done s => k s
  | .raised kind s => .raised kind s
  | .stop f => .stop f

/-- Reading a register: `k` of its value, or `ModelUnwrittenRead` where it holds ⊥ (R9). -/
def reading {α : Type} (r : Option α) (k : α → Flow) : Flow :=
  match r with
  | some v => k v
  | none => .stop .modelUnwrittenRead

/-! ### The block buffer (R35) -/

/-- What cell `a` holds; `none` is ⊥. -/
def Memory.read : Memory → Nat → Option Byte
  | [], _ => Memory.unlisted
  | (k, v) :: m, a => if k = a then some v else Memory.read m a

/-- Cell `a` set to `v`, in the canonical form. -/
def Memory.write : Memory → Nat → Byte → Memory
  | [], a, v => [(a, v)]
  | (k, x) :: m, a, v =>
    if a < k then (a, v) :: (k, x) :: m
    else if a = k then (a, v) :: m
    else (k, x) :: Memory.write m a v

/-- `MemRead(i, 1)`: `k` of the byte in cell `i` (R35). -/
def memRead (i : Nat) (s : State) (k : Byte → Flow) : Flow :=
  if i < Config.bufCap then reading (Memory.read s.enc.blockBuffer i) k else .stop .modelInvariant

/-- The state with cell `i` set to `v`. -/
def State.setCell (s : State) (i : Nat) (v : Byte) : State :=
  { s with enc := { s.enc with blockBuffer := Memory.write s.enc.blockBuffer i v } }

/-- `MemWrite(i, 1, v)` (R35). -/
def memWrite (i : Nat) (v : Byte) (s : State) : Flow :=
  if i < Config.bufCap then .done (s.setCell i v) else .stop .modelInvariant

/-! ### The sink (R39, R41) -/

/-- The answer to the `i`-th of the coming draws, the next one being 0: the host's, while it has answers ready, then
the free value (R7). -/
def State.answer (s : State) (i : Nat) : SinkAnswer :=
  match s.port.answers[i]? with
  | some a => a
  | none => Config.sinkAccept (s.port.draws + i)

/-- The state after `n` draws. -/
def State.drawn (s : State) (n : Nat) : State :=
  { s with port := { s.port with answers := s.port.answers.drop n, draws := s.port.draws + n } }

/-- The state with `bs` appended to `out`. -/
def State.emitted (s : State) (bs : List Byte) : State := { s with out := s.out ++ bs }

/-- `Emit(b)`: the byte is appended, or the sink rejects it and it is not (R39). -/
def emit (b : Byte) (s : State) : Flow :=
  match s.answer 0 with
  | .reject => .raised .writeFault (s.drawn 1)
  | .accept => .done ((s.drawn 1).emitted [b])

/-- `Emit` of each byte in turn. -/
def emitAll : List Byte → State → Flow
  | [], s => .done s
  | b :: bs, s => (emit b s).andThen (emitAll bs)

/-- `SinkFlush()` (R41). -/
def sinkFlush (s : State) : Flow :=
  match s.answer 0 with
  | .reject => .raised .writeFault (s.drawn 1)
  | .accept => .done (s.drawn 1)

/-! ### The end of a session, fault entry, INIT and reset -/

/-- What the sink holds of a session that faulted or was abandoned: some prefix of `out` (R42). -/
def State.heldPrefix (s : State) : List Byte := s.out.take (Config.sinkDurable s.log.length)

/-- The log after a fault of this kind (R42, R89, R100). -/
def State.logFault (s : State) (kind : FaultKind) : List LogEntry :=
  match s.sess with
  | .active => .faulted kind s.smode s.out s.heldPrefix :: s.log
  | .idle | .done | .faulted => .misuse kind :: s.log

/-- The log when INIT or reset comes: a running session is abandoned (R42, R91, R108). -/
def State.logAbandon (s : State) : List LogEntry :=
  match s.sess with
  | .active => .abandoned s.smode s.out s.heldPrefix :: s.log
  | .idle | .done | .faulted => s.log

/-- TAKING A FAULT (R97): `sess` and `err` report it, every engine register becomes ⊥, and `out` keeps every byte
accepted before it. No state is saved and there is no handler, so nothing returns from it but INIT and reset (R101). -/
def faultEntry (kind : FaultKind) (s : State) : State :=
  { s with sess := .faulted, err := some kind, enc := .bottom, dec := .bottom, log := s.logFault kind }

/-- What a command comes to: the state its pseudocode leaves, the state of fault entry, or a stop of the model. -/
def finish (r : Flow) : Host.Outcome State Fault Refusal :=
  match r with
  | .done s => .next s
  | .raised kind s => .next (faultEntry kind s)
  | .stop f => .fault f

/-- INIT (R85, R86): every register at its value for a new session in this mode. -/
def initSession (mode : SMode) (s : State) : State :=
  { s with sess := .active, smode := mode, err := none, out := [], enc := .fresh, dec := .fresh, log := s.logAbandon }

/-- `sess <- DONE`, and the sink's content settled as exactly `out` (R42, R72, R82). -/
def sessionDone (s : State) : State :=
  { s with sess := .done, log := .finished s.smode s.out :: s.log }

/-- Hardware reset between commands (R108): every register at its reset value. The port is the host's and the log is
not the block's, so they stay. -/
def hardwareReset (s : State) : State :=
  { State.reset with port := s.port, log := s.logAbandon }

end Sys2Proof.Machine
end

