-- ==== Sys2Proof/Machine/Operands.lean ====
section
/-! DEFINITION. The counters (R12) and the parts of the engines' registers that the cases write. -/

namespace Sys2Proof.Machine

/-- A 7-bit counter plus one: it never wraps (R12). -/
def increment (n : Count) (k : Count → Flow) : Flow :=
  if n.toNat < Config.maxLen then k (n + 1#7) else .stop .modelInvariant

/-- A 7-bit counter minus one: it is never zero (R12). -/
def decrement (n : Count) (k : Count → Flow) : Flow :=
  if 0 < n.toNat then k (n - 1#7) else .stop .modelInvariant

/-- The encoder's mode and run count written. -/
def State.setRun (s : State) (mode : EncMode) (n : Count) : State :=
  { s with enc := { s.enc with mode := some mode, runCount := some n } }

/-- `enc.pending_byte <- b`. -/
def State.setPendingByte (s : State) (b : Byte) : State :=
  { s with enc := { s.enc with pendingByte := some b } }

/-- `dec.phase <- p`. -/
def State.setPhase (s : State) (p : Phase) : State :=
  { s with dec := { s.dec with phase := some p } }

/-- `dec.remaining <- n`. -/
def State.setRemaining (s : State) (n : Count) : State :=
  { s with dec := { s.dec with remaining := some n } }

/-- `dec.phase` and `dec.remaining` written. -/
def State.setRecord (s : State) (p : Phase) (n : Count) : State :=
  (s.setPhase p).setRemaining n

end Sys2Proof.Machine
end

