-- ==== Sys2Proof/Machine/Wire.lean ====
section
/-! DEFINITION. The framer: record writes on the output port (R59, R61, R62). -/

namespace Sys2Proof.Machine

/-- `encode_status(kind, len)` in a command: `k` of the status byte, or `ModelInvariant` for a length outside 1..127
(R59, D28). -/
def statusByte (kind : Kind) (len : Nat) (k : Byte → Flow) : Flow :=
  match encodeStatus kind len with
  | some b => k b
  | none => .stop .modelInvariant

/-- `WriteRun(n, c)` (R61). -/
def writeRun (n : Nat) (c : Byte) (s : State) : Flow :=
  statusByte .runLength n fun st => (emit st s).andThen (emit c)

/-- `Emit(MemRead(j, 1))` for the `n` cells from `i` on. -/
def emitCells : Nat → Nat → State → Flow
  | _, 0, s => .done s
  | i, n + 1, s => memRead i s fun b => (emit b s).andThen (emitCells (i + 1) n)

/-- `WriteLit(n)` (R62). -/
def writeLit (n : Nat) (s : State) : Flow :=
  statusByte .literal n fun st => (emit st s).andThen (emitCells 0 n)

end Sys2Proof.Machine
end

