-- ==== Sys2Proof/Machine/DecoderCases.lean ====
section
/-! DEFINITION. The decoder's cases (R77 to R81), the choice among them (R76) and its finalize (R82). -/

namespace Sys2Proof.Machine

/-- STATUS_LIT (R77). -/
def decStatusLit (len : Count) (s : State) : Flow := .done (s.setRecord .readingBlockBytes len)

/-- STATUS_RUN (R78). -/
def decStatusRun (len : Count) (s : State) : Flow := .done (s.setRecord .readingRunByte len)

/-- STATUS_NOP (R79): no state change, and no byte consumed beyond the status byte. -/
def decStatusNop (s : State) : Flow := .done s

/-- `k` of `dec.remaining`, which the rules keep at 1 or more outside AWAITING_STATUS (R29, I3). -/
def readingRemaining (s : State) (k : Count → Flow) : Flow :=
  reading s.dec.remaining fun n => if n = 0#7 then .stop .modelInvariant else k n

/-- RUN_BYTE (R80). -/
def decRunByte (b : Byte) (s : State) : Flow :=
  readingRemaining s fun n =>
    (emitAll (List.replicate n.toNat b) s).andThen fun s => .done (s.setPhase .awaitingStatus)

/-- BLOCK_BYTE (R81). -/
def decBlockByte (b : Byte) (s : State) : Flow :=
  readingRemaining s fun n =>
    (emit b s).andThen fun s =>
      decrement n fun n' =>
        .done (if n' = 0#7 then s.setRecord .awaitingStatus n' else s.setRemaining n')

/-- A status byte in AWAITING_STATUS (R76). -/
def decStatus (b : Byte) (s : State) : Flow :=
  match decodeStatus b with
  | (kind, len) =>
    if len = 0#7 then decStatusNop s
    else match kind with
      | .literal => decStatusLit len s
      | .runLength => decStatusRun len s

/-- DEC.BYTE: the choice of the case (R76). -/
def decByte (b : Byte) (s : State) : Flow :=
  reading s.dec.phase fun phase =>
    match phase with
    | .awaitingStatus => decStatus b s
    | .readingRunByte => decRunByte b s
    | .readingBlockBytes => decBlockByte b s

/-- DEC.FIN: the truncation check comes before the flush (R82, R99). -/
def decFin (s : State) : Flow :=
  reading s.dec.phase fun phase =>
    match phase with
    | .awaitingStatus => (sinkFlush s).andThen fun s => .done (sessionDone s)
    | .readingRunByte | .readingBlockBytes => .raised .truncatedStream s

end Sys2Proof.Machine
end

