-- ==== Sys2Proof/Machine/EncoderCases.lean ====
section
/-! DEFINITION. The encoder's cases (R66 to R71), the choice among them (R65) and its finalize (R72). -/

namespace Sys2Proof.Machine

/-- ACC_PAIR (R66): the pair's first byte stays out of the literal that is flushed. -/
def encAccPair (b : Byte) (n : Count) (s : State) : Flow :=
  decrement n fun m =>
    (if 0 < m.toNat then writeLit m.toNat s else .done s).andThen fun s =>
      .done ((s.setRun .repeating 2#7).setPendingByte b)

/-- ACC_APPEND (R67). -/
def encAccAppend (b : Byte) (n : Count) (s : State) : Flow :=
  (memWrite n.toNat b s).andThen fun s =>
    increment n fun n' => .done ((s.setRun .accumulating n').setPendingByte b)

/-- ACC_FULL (R68). -/
def encAccFull (b : Byte) (s : State) : Flow :=
  (memWrite 126 b s).andThen fun s =>
    (writeLit 127 (s.setRun .accumulating 127#7)).andThen fun s =>
      .done ((s.setRun .accumulating 0#7).setPendingByte b)

/-- REP_EXTEND (R69). -/
def encRepExtend (n : Count) (s : State) : Flow :=
  increment n fun n' => .done (s.setRun .repeating n')

/-- REP_FULL (R70). -/
def encRepFull (p : Byte) (s : State) : Flow :=
  (writeRun 127 p (s.setRun .repeating 127#7)).andThen fun s =>
    .done (s.setRun .accumulating 0#7)

/-- REP_BREAK (R71). -/
def encRepBreak (b : Byte) (n : Count) (p : Byte) (s : State) : Flow :=
  (writeRun n.toNat p s).andThen fun s =>
    (memWrite 0 b s).andThen fun s =>
      .done ((s.setRun .accumulating 1#7).setPendingByte b)

/-- The run counts the rules leave at rest: 0..126 in ACCUMULATING, 2..126 in REPEATING (R28, I3). -/
def restingCount (mode : EncMode) (n : Count) : Bool :=
  match mode with
  | .accumulating => n.toNat ≤ 126
  | .repeating => 2 ≤ n.toNat ∧ n.toNat ≤ 126

/-- `k` of the encoder's mode and run count, or the model's stop where either holds ⊥ or a value outside the rules. -/
def readingEncoder (s : State) (k : EncMode → Count → Flow) : Flow :=
  reading s.enc.mode fun mode =>
    reading s.enc.runCount fun n =>
      if restingCount mode n then k mode n else .stop .modelInvariant

/-- ENC.BYTE in ACCUMULATING (R65). -/
def encAccumulating (b : Byte) (n : Count) (s : State) : Flow :=
  if n = 0#7 then encAccAppend b n s
  else reading s.enc.pendingByte fun p =>
    if b = p then encAccPair b n s
    else if n.toNat < 126 then encAccAppend b n s
    else encAccFull b s

/-- ENC.BYTE in REPEATING (R65). -/
def encRepeating (b : Byte) (n : Count) (s : State) : Flow :=
  reading s.enc.pendingByte fun p =>
    if b = p then
      if n.toNat < 126 then encRepExtend n s else encRepFull p s
    else encRepBreak b n p s

/-- ENC.BYTE: the choice of the case (R65). -/
def encByte (b : Byte) (s : State) : Flow :=
  readingEncoder s fun mode n =>
    match mode with
    | .accumulating => encAccumulating b n s
    | .repeating => encRepeating b n s

/-- The final record of ENC.FIN, if any (R72). -/
def encFinRecord (s : State) : Flow :=
  readingEncoder s fun mode n =>
    match mode with
    | .repeating => reading s.enc.pendingByte fun p => writeRun n.toNat p s
    | .accumulating => if 0 < n.toNat then writeLit n.toNat s else .done s

/-- ENC.FIN (R72). -/
def encFin (s : State) : Flow :=
  (encFinRecord s).andThen fun s =>
    (sinkFlush s).andThen fun s =>
      .done (sessionDone (s.setRun .accumulating 0#7))

end Sys2Proof.Machine
end

