-- ==== Sys2Proof/Machine/Command.lean ====
section
/-! DEFINITION. What the block does with a command word: the pseudocode of R84, line by line. -/

namespace Sys2Proof.Machine

/-- A command that needs a running session: its pseudocode when ACTIVE, ILLEGAL_COMMAND in IDLE and DONE, and no
effect in FAULTED (R84, R89, R90). -/
def inSession (body : State → Flow) (s : State) : Host.Outcome State Fault Refusal :=
  match s.sess with
  | .active => finish (body s)
  | .idle | .done => finish (.raised .illegalCommand s)
  | .faulted => .next s

/-- An illegal word: ILLEGAL_COMMAND, and no effect in FAULTED (R88, R90). -/
def illegal (s : State) : Host.Outcome State Fault Refusal :=
  match s.sess with
  | .faulted => .next s
  | .idle | .active | .done => finish (.raised .illegalCommand s)

/-- `Step(CW)` (R84). -/
def runWord (w : CommandWord) (s : State) : Host.Outcome State Fault Refusal :=
  if s.sess = .faulted ∧ ¬ legalInit w then .next s
  else if illegalWord w then finish (.raised .illegalCommand s)
  else match opOf w with
    | .init => .next (initSession (if dataField w = 0#8 then .compress else .decompress) s)
    | .byte =>
      match s.smode with
      | .compress => inSession (encByte (dataField w)) s
      | .decompress => inSession (decByte (dataField w)) s
    | .fin =>
      match s.smode with
      | .compress => inSession encFin s
      | .decompress => inSession decFin s
    | .srcfault => inSession (.raised .readFault) s

end Sys2Proof.Machine
end

