-- ==== Sys2Proof/Machine/Decoder.lean ====
section
/-! DEFINITION. The meanings of DEC.BYTE and DEC.FIN (R76, R82), and of the status and payload rows that DEC.BYTE's byte
can be (R77 to R81). Where a row's condition does not hold, `runWord` says what the block does with its word (log
entry 7). -/

namespace Sys2Proof.Machine

/-- DEC.BYTE, taken when `sess = ACTIVE` and `smode = DECOMPRESS` (R76). -/
def execDecByte (b : Byte) (s : State) : Host.Outcome State Fault Refusal :=
  if s.sess = .active ∧ s.smode = .decompress then finish (decByte b s) else runWord (byteWord b) s

/-- DEC.FIN, taken when `sess = ACTIVE` and `smode = DECOMPRESS` (R82). -/
def execDecFin (s : State) : Host.Outcome State Fault Refusal :=
  if s.sess = .active ∧ s.smode = .decompress then finish (decFin s) else runWord finWord s

/-- A stream row: `body` when the decoder is in the row's phase, else what its word does there (R57). -/
def streamRow (phase : Phase) (b : Byte) (body : State → Flow) (s : State) : Host.Outcome State Fault Refusal :=
  if s.sess = .active ∧ s.smode = .decompress ∧ s.dec.phase = some phase then finish (body s)
  else runWord (byteWord b) s

/-- ST.NOP0 (R79). -/
def execStNop0 (s : State) : Host.Outcome State Fault Refusal :=
  streamRow .awaitingStatus 0x00#8 decStatusNop s

/-- ST.NOP80: no payload byte is consumed (R79). -/
def execStNop80 (s : State) : Host.Outcome State Fault Refusal :=
  streamRow .awaitingStatus 0x80#8 decStatusNop s

/-- ST.LIT (R77). Length 0 is the byte of ST.NOP0. -/
def execStLit (len : Count) (s : State) : Host.Outcome State Fault Refusal :=
  if len = 0#7 then runWord (byteWord 0x00#8) s
  else streamRow .awaitingStatus (len.setWidth 8) (decStatusLit len) s

/-- ST.RUN (R78). Length 0 is the byte of ST.NOP80. -/
def execStRun (len : Count) (s : State) : Host.Outcome State Fault Refusal :=
  if len = 0#7 then runWord (byteWord 0x80#8) s
  else streamRow .awaitingStatus (0x80#8 ||| len.setWidth 8) (decStatusRun len) s

/-- PAYLOAD.RUN (R80). -/
def execPayloadRun (c : Byte) (s : State) : Host.Outcome State Fault Refusal :=
  streamRow .readingRunByte c (decRunByte c) s

/-- PAYLOAD.LIT (R81). -/
def execPayloadLit (d : Byte) (s : State) : Host.Outcome State Fault Refusal :=
  streamRow .readingBlockBytes d (decBlockByte d) s

end Sys2Proof.Machine
end

