-- ==== Sys2Proof/Machine/Encoder.lean ====
section
/-! DEFINITION. The meanings of ENC.BYTE and ENC.FIN (R65, R72). Where a row's condition does not hold, the block still
sees the row's word, and `runWord` says what it does with it (R84, log entry 7). -/

namespace Sys2Proof.Machine

/-- ENC.BYTE, taken when `sess = ACTIVE` and `smode = COMPRESS` (R65). -/
def execEncByte (b : Byte) (s : State) : Host.Outcome State Fault Refusal :=
  if s.sess = .active ∧ s.smode = .compress then finish (encByte b s) else runWord (byteWord b) s

/-- ENC.FIN, taken when `sess = ACTIVE` and `smode = COMPRESS` (R72). -/
def execEncFin (s : State) : Host.Outcome State Fault Refusal :=
  if s.sess = .active ∧ s.smode = .compress then finish (encFin s) else runWord finWord s

end Sys2Proof.Machine
end

