-- ==== Sys2Proof/Machine/Session.lean ====
section
/-! DEFINITION. The meanings of INIT, SRCFAULT, the words outside a session and the illegal words (R85 to R90). -/

namespace Sys2Proof.Machine

/-- INIT.C, accepted in every session state (R85). -/
def execInitC (s : State) : Host.Outcome State Fault Refusal := .next (initSession .compress s)

/-- INIT.D, accepted in every session state (R86). -/
def execInitD (s : State) : Host.Outcome State Fault Refusal := .next (initSession .decompress s)

/-- SRCFAULT (R87); outside an ACTIVE session its word is the row of R89. -/
def execSrcfault (s : State) : Host.Outcome State Fault Refusal :=
  if s.sess = .active then finish (.raised .readFault s) else runWord srcfaultWord s

/-- BYTE, FIN or SRCFAULT outside a session: ILLEGAL_COMMAND in IDLE and DONE (R89), no effect in FAULTED (R90). In an
ACTIVE session the word is another row's, and that row's effect is what the block does (log entry 7). -/
def execOutsideSession (c : SessionCommand) (s : State) : Host.Outcome State Fault Refusal :=
  match s.sess with
  | .idle | .done => finish (.raised .illegalCommand s)
  | .faulted => .next s
  | .active => runWord c.word s

/-- ILLEGAL (INIT space) (R88). Data 0 and 1 are the words of INIT.C and INIT.D. -/
def execIllegalInit (data : Byte) (s : State) : Host.Outcome State Fault Refusal :=
  if 2 ≤ data.toNat then illegal s else runWord (mkWord 0#2 data) s

/-- ILLEGAL (FIN space) (R88). Data 0 is the word of FIN. -/
def execIllegalFin (data : Byte) (s : State) : Host.Outcome State Fault Refusal :=
  if data ≠ 0#8 then illegal s else runWord finWord s

/-- ILLEGAL (SRCFAULT space) (R88). Data 0 is the word of SRCFAULT. -/
def execIllegalSrcfault (data : Byte) (s : State) : Host.Outcome State Fault Refusal :=
  if data ≠ 0#8 then illegal s else runWord srcfaultWord s

end Sys2Proof.Machine
end

