-- ==== Sys2Proof/Machine/Dispatch.lean ====
section
/-! DEFINITION. The one dispatch: an arm for each row of the opcode table. -/

namespace Sys2Proof.Machine

def exec (i : Instr) (s : State) : Host.Outcome State Fault Refusal :=
  match i with
  | .initC => Sys2Proof.Machine.execInitC s
  | .initD => Sys2Proof.Machine.execInitD s
  | .encByte b => Sys2Proof.Machine.execEncByte b s
  | .decByte b => Sys2Proof.Machine.execDecByte b s
  | .encFin => Sys2Proof.Machine.execEncFin s
  | .decFin => Sys2Proof.Machine.execDecFin s
  | .srcfault => Sys2Proof.Machine.execSrcfault s
  | .outsideSession c => Sys2Proof.Machine.execOutsideSession c s
  | .illegalInit data => Sys2Proof.Machine.execIllegalInit data s
  | .illegalFin data => Sys2Proof.Machine.execIllegalFin data s
  | .illegalSrcfault data => Sys2Proof.Machine.execIllegalSrcfault data s
  | .stNop0 => Sys2Proof.Machine.execStNop0 s
  | .stNop80 => Sys2Proof.Machine.execStNop80 s
  | .stLit len => Sys2Proof.Machine.execStLit len s
  | .stRun len => Sys2Proof.Machine.execStRun len s
  | .payloadRun c => Sys2Proof.Machine.execPayloadRun c s
  | .payloadLit d => Sys2Proof.Machine.execPayloadLit d s

end Sys2Proof.Machine
end

