-- ==== Sys2Proof/Machine/Fetch.lean ====
section
/-! DEFINITION. Where the next instruction comes from: the host's command port (R14, R84). -/

namespace Sys2Proof.Machine

/-- The state with these events issued by the host. -/
def State.setPending (s : State) (es : List HostEvent) : State :=
  { s with port := { s.port with pending := es } }

/-- The instruction that a command word is in this state (R51, R84). -/
def instrOf (s : State) (w : CommandWord) : Instr := decode s.sess s.smode w

/-- The row of the stream spaces that a byte is in this state, while the decoder is running (R57, R76). -/
def streamInstrOf (s : State) (b : Byte) : Option Instr :=
  s.dec.phase.map fun phase => decodeStream phase b

/-- What one host event does: a command runs as its instruction, a reset resets (R84, R108). -/
def runEvent (e : HostEvent) (s : State) : Host.Outcome State Fault Refusal :=
  match e with
  | .command w => exec (instrOf s w) s
  | .reset => .next (hardwareReset s)

/-- A session in which the table takes this instruction's row, as INIT would start it; a state that has one already is
left alone. -/
def readySession (i : Instr) (s : State) : State :=
  match i with
  | .encByte _ | .encFin =>
    if s.sess = .active ∧ s.smode = .compress then s else initSession .compress s
  | .decByte _ | .decFin =>
    if s.sess = .active ∧ s.smode = .decompress then s else initSession .decompress s
  | .srcfault => if s.sess = .active then s else initSession s.smode s
  | .stNop0 | .stNop80 | .stLit _ | .stRun _ | .payloadRun _ | .payloadLit _ =>
    if s.sess = .active ∧ s.smode = .decompress ∧ s.dec.phase = some .awaitingStatus then s
    else initSession .decompress s
  | .initC | .initD | .outsideSession _ | .illegalInit _ | .illegalFin _ | .illegalSrcfault _ => s

/-- The sink made ready (R110, step 1): answers for one command's largest burst and its flush (R114), where the host has
none ready. -/
def readySink (s : State) : State :=
  if s.port.answers = [] then { s with port := { s.port with answers := List.replicate 129 .accept } } else s

/-- The host's placing of the instruction with this table word: a session that takes its row, a sink ready to answer,
and its command word the next on the port. Log entry 9. -/
def placeWord (s : State) (nbits w : Nat) : State :=
  match decodeTableWord nbits w with
  | some i =>
    let s := readySink (readySession i s)
    s.setPending (.command (encode i) :: s.port.pending)
  | none => s.setPending (.command (BitVec.ofNat 10 w) :: s.port.pending)

end Sys2Proof.Machine
end

