-- ==== Sys2Proof/Machine/Step.lean ====
section
/-! DEFINITION. One step: the oldest event the host has issued (R5, R84). -/

namespace Sys2Proof.Machine

/-- One step takes the oldest event from the port and runs it. With no event issued the block waits and holds its
state (R107, R109; log entry 3). -/
def step (s : State) : Host.Outcome State Fault Refusal :=
  match s.port.pending with
  | [] => .next s
  | e :: es => runEvent e (s.setPending es)

/-- The state with the instruction of this table word as the next command on the port. -/
def State.withFetchWord (s : State) (nbits w : Nat) : State := placeWord s nbits w

end Sys2Proof.Machine
end

