-- ==== Sys2Proof/Machine/Flags.lean ====
section
/-! DEFINITION. The status outputs (R17 to R20, R30, R92, R102) and the encodings of the enumerated registers. The
block has no other flags. -/

namespace Sys2Proof.Machine

/-- R17, D5. -/
def sessCode : Sess → BitVec 2
  | .idle => 0 | .active => 1 | .done => 2 | .faulted => 3

/-- R18, D3. -/
def smodeCode : SMode → BitVec 1
  | .compress => 0 | .decompress => 1

/-- The fault codes (R92, D6). -/
def faultCode : FaultKind → BitVec 3
  | .readFault => 1 | .writeFault => 2 | .truncatedStream => 3 | .illegalCommand => 4

/-- `err` as the host reads it: 0 for NONE (R19). -/
def errCode : Option FaultKind → BitVec 3
  | none => 0
  | some k => faultCode k

/-- R21, D15. -/
def encModeCode : EncMode → BitVec 1
  | .accumulating => 0 | .repeating => 1

/-- R25, D15. -/
def phaseCode : Phase → BitVec 2
  | .awaitingStatus => 0 | .readingRunByte => 1 | .readingBlockBytes => 2

/-- `exit_code`: 0 when DONE, `err` when FAULTED, none before a session has ended (R20). -/
def State.exitCode (s : State) : Option (BitVec 3) :=
  match s.sess with
  | .done => some 0
  | .faulted => some (errCode s.err)
  | .idle | .active => none

/-- What the host can read between commands (R30). -/
structure Visible where
  sess     : BitVec 2
  smode    : BitVec 1
  err      : BitVec 3
  exitCode : Option (BitVec 3)
  out      : List Byte
  deriving DecidableEq, Repr

def State.visible (s : State) : Visible :=
  { sess := sessCode s.sess, smode := smodeCode s.smode, err := errCode s.err, exitCode := s.exitCode, out := s.out }

/-- What the sink holds of the session a log entry is about; `none` for an entry about no session (R42). -/
def entryHeld : LogEntry → Option (List Byte)
  | .finished _ out => some out
  | .faulted _ _ _ held => some held
  | .abandoned _ _ held => some held
  | .misuse _ => none

/-- What the sink holds of the session that ended last (R42). -/
def State.sinkContent (s : State) : Option (List Byte) := s.log.findSome? entryHeld

end Sys2Proof.Machine
end

