-- ==== Sys2Proof/Machine/Grammar.lean ====
section
/-! DEFINITION. The stream grammar: records on the wire, what the encoder may emit, and what the decoder accepts (R55,
R63, R73). -/

namespace Sys2Proof.Machine

/-- A record (R55): a run of `n` copies of a byte, or a literal block. -/
inductive Record where
  | run (n : Nat) (c : Byte)
  | lit (ds : List Byte)
  deriving DecidableEq, Repr

/-- The record's bytes on the wire (R55): `[0x80 + n, c]`, or `[n, d0, ..., d(n-1)]`. -/
def Record.bytes : Record → List Byte
  | .run n c => [BitVec.ofNat 8 (0x80 + n), c]
  | .lit ds => BitVec.ofNat 8 ds.length :: ds

/-- The raw bytes the record stands for (R55). -/
def Record.expand : Record → List Byte
  | .run n c => List.replicate n c
  | .lit ds => ds

/-- `1 ≤ length ≤ 127` (R63). -/
def Record.bounded : Record → Bool
  | .run n _ => 1 ≤ n ∧ n ≤ 127
  | .lit ds => 1 ≤ ds.length ∧ ds.length ≤ 127

/-- The lengths of the records the encoder emits: runs 2..127, literals 1..127 (R73). -/
def Record.byEncoder : Record → Bool
  | .run n _ => 2 ≤ n ∧ n ≤ 127
  | .lit ds => 1 ≤ ds.length ∧ ds.length ≤ 127

/-- A well-formed stream: a concatenation of records (R63). -/
def WellFormedStream (e : List Byte) : Prop :=
  ∃ rs : List Record, (∀ r ∈ rs, r.bounded = true) ∧ e = rs.flatMap Record.bytes

/-- What the decoder takes between two places where a status byte is expected: a record, or a zero-length status byte
(R57, R63). -/
inductive Token where
  | record (r : Record)
  | nop0
  | nop80
  deriving DecidableEq, Repr

def Token.bytes : Token → List Byte
  | .record r => r.bytes
  | .nop0 => [0x00]
  | .nop80 => [0x80]

def Token.expand : Token → List Byte
  | .record r => r.expand
  | .nop0 => []
  | .nop80 => []

def Token.bounded : Token → Bool
  | .record r => r.bounded
  | .nop0 => true
  | .nop80 => true

end Sys2Proof.Machine
end

