-- ==== Sys2Proof/Safety.lean ====
section
/-! DEFINITION. What the statements speak of: the invariants of R28 and R29 and of the whole state, the sink's coming
answers, and sessions as the host runs them. -/

namespace Sys2Proof.Machine

/-! ### The sink's coming answers -/

/-- The next `n` draws are all accepted. -/
abbrev State.accepts (s : State) (n : Nat) : Prop := ∀ i < n, s.answer i = .accept

/-- What `exec` answers for a command that offers the bytes `bs` to the sink in this order, in `draws` draws (one more
than the bytes where a flush follows them): `after` when every draw is accepted, and else WRITE_FAULT at the first
rejected draw, with the bytes accepted before it in `out` (R39, R41, R94). -/
def Offers (i : Instr) (s : State) (bs : List Byte) (draws : Nat) (after : State) : Prop :=
  (s.accepts draws → exec i s = .next after) ∧
  ∀ j < draws, s.accepts j → s.answer j = .reject →
    exec i s = .next (faultEntry .writeFault ((s.drawn (j + 1)).emitted (bs.take j)))

/-! ### Invariants -/

/-- The first cells of the buffer hold these bytes, cell 0 first (R24). -/
abbrev CellsHold (m : Memory) (bs : List Byte) : Prop := ∀ i < bs.length, Memory.read m i = bs[i]?

/-- The encoder's invariant at rest (R28). -/
def EncoderInv (e : EncRegs) : Prop :=
  ∃ mode n, e.mode = some mode ∧ e.runCount = some n ∧
    match mode with
    | .accumulating =>
      n.toNat ≤ 126 ∧
      (∀ i < n.toNat, (Memory.read e.blockBuffer i).isSome) ∧
      (0 < n.toNat → e.pendingByte = Memory.read e.blockBuffer (n.toNat - 1))
    | .repeating => 2 ≤ n.toNat ∧ n.toNat ≤ 126 ∧ e.pendingByte.isSome

/-- The decoder's invariant at rest (R29). -/
def DecoderInv (d : DecRegs) : Prop :=
  ∃ p, d.phase = some p ∧ (p ≠ .awaitingStatus → ∃ n, d.remaining = some n ∧ 1 ≤ n.toNat)

/-- What holds between two commands, whatever the host does. -/
structure Inv (s : State) : Prop where
  /-- The block buffer is in its canonical form, with no index beyond 126 (R35). -/
  buffer : Memory.wf s.enc.blockBuffer = true
  /-- `err` is NONE exactly while the session is not FAULTED (R17, R19). -/
  err : s.err = none ↔ s.sess ≠ .faulted
  /-- R28, with the idle decoder as INIT left it (R32). -/
  compress : s.sess = .active → s.smode = .compress → EncoderInv s.enc ∧ s.dec = .fresh
  /-- R29, with the idle encoder as INIT left it (R32). -/
  decompress : s.sess = .active → s.smode = .decompress → DecoderInv s.dec ∧ s.enc = .fresh
  /-- IDLE: nothing has happened since reset (R17, R33). -/
  idle : s.sess = .idle → s.smode = .compress ∧ s.enc = .fresh ∧ s.dec = .fresh ∧ s.out = []
  /-- DONE: no data is buffered, and the sink holds exactly `out` (R42, R72). -/
  finished : s.sess = .done → s.enc.mode = some .accumulating ∧ s.enc.runCount = some 0#7 ∧
    s.dec.phase = some .awaitingStatus ∧ s.sinkContent = some s.out
  /-- FAULTED: every engine register is ⊥ (R97). -/
  faulted : s.sess = .faulted → s.enc = .bottom ∧ s.dec = .bottom

/-- In a compress session with no fault, `out` is a concatenation of records the encoder may emit (R73). -/
def EncoderStream (s : State) : Prop :=
  (s.sess = .active ∨ s.sess = .done) → s.smode = .compress →
    ∃ rs : List Record, (∀ r ∈ rs, r.byEncoder = true) ∧ s.out = rs.flatMap Record.bytes

/-! ### Sessions -/

/-- The machine run over these command words, one step each. -/
def runCommands (ws : List CommandWord) (s : State) : Host.Outcome State Fault Refusal :=
  Sys2Proof.core.run ws.length (s.setPending (ws.map .command))

/-- The most bytes one command emits (R114). A stream row is a BYTE command. -/
def burstBound : Instr → Nat
  | .encByte _ => 128
  | .encFin => 127
  | .decByte _ | .stNop0 | .stNop80 | .stLit _ | .stRun _ | .payloadRun _ | .payloadLit _ => 127
  | .decFin | .initC | .initD | .srcfault | .outsideSession _ | .illegalInit _ | .illegalFin _ | .illegalSrcfault _ => 0

/-! ### What no command reads -/

/-- The state with anything, ⊥ included, in the registers that the spec leaves unspecified after reset and INIT: the
pending byte, the buffer's cells and the remaining count (R33, I2). -/
def State.withUnspecified (s : State) (p : Option Byte) (m : Memory) (r : Option Count) : State :=
  { s with enc := { s.enc with pendingByte := p, blockBuffer := m }, dec := { s.dec with remaining := r } }

/-- The encoders' registers agree where a command may read them: the mode and the count; in ACCUMULATING the counted
cells, and the pending byte if there is one; in REPEATING the pending byte (R22, R24, R31, I13). -/
def EncAgree (e e' : EncRegs) : Prop :=
  e.mode = e'.mode ∧ e.runCount = e'.runCount ∧
  (e.mode = some .repeating → e.pendingByte = e'.pendingByte) ∧
  ∀ n, e.mode = some .accumulating → e.runCount = some n →
    (0 < n.toNat → e.pendingByte = e'.pendingByte) ∧
    ∀ i < n.toNat, Memory.read e.blockBuffer i = Memory.read e'.blockBuffer i

/-- The decoders' registers agree where a command may read them: the phase, and `dec.remaining` outside
AWAITING_STATUS (R26, R31). -/
def DecAgree (d d' : DecRegs) : Prop :=
  d.phase = d'.phase ∧ (d.phase ≠ some .awaitingStatus → d.remaining = d'.remaining)

/-- The states differ at most in engine registers that no command reads: those of R31, and in an ACTIVE session those
of the engine that `smode` does not select (R32). -/
def HiddenAgree (s s' : State) : Prop :=
  s.sess = s'.sess ∧ s.smode = s'.smode ∧ s.err = s'.err ∧ s.out = s'.out ∧ s.port = s'.port ∧ s.log = s'.log ∧
  (s.sess = .active → s.smode = .compress → EncAgree s.enc s'.enc) ∧
  (s.sess = .active → s.smode = .decompress → DecAgree s.dec s'.dec)

end Sys2Proof.Machine
end

