-- ==== Sys2Proof/Certificates/Slice0/Obligations.lean ====
section
/-! DEFINITION. The statements for the provers: what the rules of spec/ say the block does. -/

open Sys2Proof Sys2Proof.Machine

/-! ### Encodings -/

/-- A few words written out from R50 and R57: the fields of INIT, BYTE, FIN and SRCFAULT, and one status byte of each
class. -/
def Obligations.WordsOfTheSpecDecode : Prop :=
  decode .idle .compress 0b0000000000#10 = .initC ∧
  decode .idle .compress 0b0000000001#10 = .initD ∧
  decode .active .compress 0b0101000001#10 = .encByte 0x41 ∧
  decode .active .decompress 0b0110000010#10 = .decByte 0x82 ∧
  decode .active .compress 0b1000000000#10 = .encFin ∧
  decode .active .decompress 0b1000000000#10 = .decFin ∧
  decode .active .compress 0b1100000000#10 = .srcfault ∧
  decode .done .compress 0b1000000000#10 = .outsideSession .fin ∧
  decode .active .compress 0b0000000010#10 = .illegalInit 0x02 ∧
  decode .idle .compress 0b1011111111#10 = .illegalFin 0xFF ∧
  decode .idle .compress 0b1111111111#10 = .illegalSrcfault 0xFF ∧
  decodeStream .awaitingStatus 0b00000000#8 = .stNop0 ∧
  decodeStream .awaitingStatus 0b10000000#8 = .stNop80 ∧
  decodeStream .awaitingStatus 0b01000001#8 = .stLit 65 ∧
  decodeStream .awaitingStatus 0b11001001#8 = .stRun 73

/-- R50, R51: INIT's mode is bit 0 of its data, BYTE's operand is its data used as is, and which row BYTE, FIN and
SRCFAULT are is chosen by the session state and the mode. -/
def Obligations.LegalWordsSelectTheirRows : Prop :=
  ∀ (sess : Sess) (smode : SMode) (b : Byte),
    decode sess smode 0x000#10 = .initC ∧
    decode sess smode 0x001#10 = .initD ∧
    decode sess smode (BitVec.ofNat 10 (0x100 + b.toNat)) =
      (if sess = .active then (if smode = .compress then .encByte b else .decByte b)
        else .outsideSession (.byte b)) ∧
    decode sess smode 0x200#10 =
      (if sess = .active then (if smode = .compress then .encFin else .decFin) else .outsideSession .fin) ∧
    decode sess smode 0x300#10 = (if sess = .active then .srcfault else .outsideSession .srcfault)

/-- R52, R88: the words 0x002..0x0FF, 0x201..0x2FF and 0x301..0x3FF raise ILLEGAL_COMMAND in IDLE, ACTIVE and DONE and
are ignored in FAULTED, and every other word is INIT C, INIT D, BYTE b, FIN or SRCFAULT. -/
def Obligations.IllegalWordsFault : Prop :=
  ∀ (w : CommandWord) (s : State),
    ((0x002 ≤ w.toNat ∧ w.toNat ≤ 0x0FF ∨ 0x201 ≤ w.toNat ∧ w.toNat ≤ 0x2FF ∨ 0x301 ≤ w.toNat ∧ w.toNat ≤ 0x3FF) →
      exec (instrOf s w) s = if s.sess = .faulted then .next s else .next (faultEntry .illegalCommand s)) ∧
    ((w.toNat < 0x002 ∨ 0x100 ≤ w.toNat ∧ w.toNat ≤ 0x200 ∨ w.toNat = 0x300) →
      w = initWord .compress ∨ w = initWord .decompress ∨ (∃ b, w = byteWord b) ∨ w = finWord ∨ w = srcfaultWord)

/-- R88 for the three illegal rows of the table: in IDLE, ACTIVE and DONE each answers with fault entry. -/
def Obligations.IllegalRowsRaiseIllegalCommand : Prop :=
  ∀ (data : Byte) (s : State), s.sess ≠ .faulted →
    (2 ≤ data.toNat → exec (.illegalInit data) s = .next (faultEntry .illegalCommand s)) ∧
    (data ≠ 0#8 → exec (.illegalFin data) s = .next (faultEntry .illegalCommand s)) ∧
    (data ≠ 0#8 → exec (.illegalSrcfault data) s = .next (faultEntry .illegalCommand s))

/-- R57: the four classes of status byte, and payload bytes that are never decoded. That 0x00 and 0x80 are classes of
their own depends on the zero-length branch (I1, log entry 11). -/
def Obligations.StatusByteClasses : Prop :=
  ∀ b : Byte,
    (b = 0x00#8 → decodeStream .awaitingStatus b = .stNop0) ∧
    (b = 0x80#8 → decodeStream .awaitingStatus b = .stNop80) ∧
    (0x01 ≤ b.toNat ∧ b.toNat ≤ 0x7F → decodeStream .awaitingStatus b = .stLit (BitVec.ofNat 7 b.toNat)) ∧
    (0x81 ≤ b.toNat ∧ b.toNat ≤ 0xFF → decodeStream .awaitingStatus b = .stRun (BitVec.ofNat 7 (b.toNat - 0x80))) ∧
    decodeStream .readingRunByte b = .payloadRun b ∧
    decodeStream .readingBlockBytes b = .payloadLit b

/-- Decoding an instruction's word gives it back: a command-word row in every session state and mode whose condition it
meets, a stream row in every phase whose condition it meets. -/
def Obligations.DecodeOfEncode : Prop :=
  ∀ i : Instr, i.wf = true →
    (∀ sess smode, i.selectedIn sess smode = true → decode sess smode (encode i) = i) ∧
    (∀ phase b, i.selectedAt phase = true → streamByte i = some b →
      encode i = byteWord b ∧ decodeStream phase b = i)

/-- The other direction: every word is the encoding of the row it decodes to, and that row is well formed and selected
there; likewise every stream byte in every phase. -/
def Obligations.EncodeOfDecode : Prop :=
  (∀ sess smode w, encode (decode sess smode w) = w ∧ (decode sess smode w).wf = true ∧
    (decode sess smode w).selectedIn sess smode = true) ∧
  (∀ phase b, streamByte (decodeStream phase b) = some b ∧ (decodeStream phase b).wf = true ∧
    (decodeStream phase b).selectedAt phase = true)

/-- R59: the status byte is the length, with bit 7 set for a run; a length outside 1..127 gives none, and a command that
asks for one stops with `ModelInvariant`. -/
def Obligations.EncodeStatusFormula : Prop :=
  ∀ (kind : Kind) (len : Nat),
    (1 ≤ len → len ≤ 127 → encodeStatus kind len =
      some (BitVec.ofNat 8 (len + if kind = .runLength then 0x80 else 0x00))) ∧
    (¬ (1 ≤ len ∧ len ≤ 127) → encodeStatus kind len = none ∧
      ∀ k, statusByte kind len k = .stop .modelInvariant)

/-- R60: kind is bit 7 and length bits 6..0, for all 256 byte values. -/
def Obligations.DecodeStatusFields : Prop :=
  ∀ b : Byte,
    (decodeStatus b).1 = (if 0x80 ≤ b.toNat then .runLength else .literal) ∧
    (decodeStatus b).2.toNat = b.toNat % 0x80

/-- R64: decoding an encoded status gives the kind and the length back; `encode_status` is injective on its domain, and
its image is every byte but 0x00 and 0x80. -/
def Obligations.StatusRoundTrip : Prop :=
  (∀ kind n b, 1 ≤ n → n ≤ 127 → encodeStatus kind n = some b →
    (decodeStatus b).1 = kind ∧ (decodeStatus b).2.toNat = n) ∧
  (∀ kind kind' n n' b, encodeStatus kind n = some b → encodeStatus kind' n' = some b → kind = kind' ∧ n = n') ∧
  (∀ b : Byte, (∃ kind n, encodeStatus kind n = some b) ↔ b ≠ 0x00#8 ∧ b ≠ 0x80#8)

/-- R56: the status byte alone tells the record's length; the zero-length bytes are whole records, and no record is
longer than 128 bytes. That 0x00 and 0x80 are whole records depends on the zero-length branch (I1, log entry 11). -/
def Obligations.RecordLengthFromStatusByte : Prop :=
  recordLength 0x00#8 = 1 ∧ recordLength 0x80#8 = 1 ∧
  ∀ r : Record, r.bounded = true →
    ∃ status payload, r.bytes = status :: payload ∧ r.bytes.length = recordLength status ∧ r.bytes.length ≤ 128

/-! ### The sink and the framer -/

/-- R39: a rejected byte is not appended and raises WRITE_FAULT; an accepted byte is appended; each takes one draw. -/
def Obligations.EmitOffersOneByte : Prop :=
  ∀ (b : Byte) (s : State),
    (s.answer 0 = .accept → emit b s = .done { (s.drawn 1) with out := s.out ++ [b] }) ∧
    (s.answer 0 = .reject → emit b s = .raised .writeFault (s.drawn 1)) ∧
    (s.drawn 1).out = s.out

/-- R41: the flush takes one draw, changes no register and not `out`, and raises WRITE_FAULT when it is rejected. -/
def Obligations.SinkFlushChangesNoRegister : Prop :=
  ∀ s : State,
    (s.answer 0 = .accept → sinkFlush s = .done (s.drawn 1)) ∧
    (s.answer 0 = .reject → sinkFlush s = .raised .writeFault (s.drawn 1)) ∧
    s.drawn 1 = { s with port := (s.drawn 1).port }

/-- R61: a run record is its status byte and its content byte; each may be rejected. -/
def Obligations.WriteRunFramesARun : Prop :=
  ∀ (n : Nat) (c : Byte) (s : State), 1 ≤ n → n ≤ 127 →
    (s.accepts 2 → writeRun n c s = .done ((s.drawn 2).emitted [BitVec.ofNat 8 (0x80 + n), c])) ∧
    (s.answer 0 = .reject → writeRun n c s = .raised .writeFault (s.drawn 1)) ∧
    (s.answer 0 = .accept → s.answer 1 = .reject →
      writeRun n c s = .raised .writeFault ((s.drawn 2).emitted [BitVec.ofNat 8 (0x80 + n)]))

/-- R62: a literal record is its status byte and the first `n` cells, cell 0 first; at the first rejection the bytes
before it stand in `out`. -/
def Obligations.WriteLitFramesTheBuffer : Prop :=
  ∀ (ds : List Byte) (s : State), 1 ≤ ds.length → ds.length ≤ 127 → CellsHold s.enc.blockBuffer ds →
    let record := BitVec.ofNat 8 ds.length :: ds
    (s.accepts record.length → writeLit ds.length s = .done ((s.drawn record.length).emitted record)) ∧
    ∀ j < record.length, s.accepts j → s.answer j = .reject →
      writeLit ds.length s = .raised .writeFault ((s.drawn (j + 1)).emitted (record.take j))

/-! ### Reset, INIT and fault entry -/

/-- R33: the registers after reset. Those that R33 gives ⊥, an unspecified value, hold some value; that they hold one, and
which, is the model's choice (log entry 13), and the statement rests on none. -/
def Obligations.ResetValues : Prop :=
  State.reset.sess = .idle ∧ State.reset.smode = .compress ∧ State.reset.err = none ∧
  State.reset.enc.mode = some .accumulating ∧ State.reset.enc.runCount = some 0#7 ∧
  State.reset.enc.pendingByte.isSome ∧ (∀ i < 127, (Memory.read State.reset.enc.blockBuffer i).isSome) ∧
  State.reset.dec.phase = some .awaitingStatus ∧ State.reset.dec.remaining.isSome ∧
  State.reset.out = [] ∧ State.reset.exitCode = none

/-- R108: a reset event sets every register to its reset value and takes no draw; nothing is emitted, and of a running
session the sink keeps a prefix of `out`. That the host's port keeps the other events and the sink's
answers is the model's choice (log entries 3, 4), and so is the session log, kept where no session runs (log entry 5). -/
def Obligations.HardwareResetSetsEveryRegister : Prop :=
  ∀ (s : State) (es : List HostEvent), s.port.pending = .reset :: es →
    ∃ t, step s = .next t ∧
      t.sess = State.reset.sess ∧ t.smode = State.reset.smode ∧ t.err = State.reset.err ∧
      t.enc = State.reset.enc ∧ t.dec = State.reset.dec ∧ t.out = State.reset.out ∧
      t.port = { s.port with pending := es } ∧
      (s.sess = .active → ∃ held, t.sinkContent = some held ∧ held <+: s.out) ∧
      (s.sess ≠ .active → t.log = s.log)

/-- R85, R86: INIT from any state writes every register, keeps the port, and abandons a running session without a
flush. The registers that R85 and R86 leave unspecified hold what they hold after reset (log entry 13). The session log,
which says that a session was abandoned and is kept where none runs, is the model's choice (log entry 5). -/
def Obligations.InitStartsASession : Prop :=
  ∀ (s : State) (i : Instr) (mode : SMode), (i = .initC ∧ mode = .compress ∨ i = .initD ∧ mode = .decompress) →
    ∃ t, exec i s = .next t ∧
      t.sess = .active ∧ t.smode = mode ∧ t.err = none ∧ t.out = [] ∧
      t.enc.mode = some .accumulating ∧ t.enc.runCount = some 0#7 ∧ t.dec.phase = some .awaitingStatus ∧
      t.enc = State.reset.enc ∧ t.dec = State.reset.dec ∧
      t.port = s.port ∧
      (s.sess = .active → ∃ held, t.sinkContent = some held ∧ held <+: s.out) ∧
      (s.sess ≠ .active → t.log = s.log)

/-- R97: fault entry writes `sess` and `err`, makes every engine register ⊥, keeps `smode`, `out` and the port, and takes
no draw. -/
def Obligations.FaultEntryState : Prop :=
  ∀ (kind : FaultKind) (s : State),
    let t := faultEntry kind s
    t.sess = .faulted ∧ t.err = some kind ∧
    t.enc.mode = none ∧ t.enc.runCount = none ∧ t.enc.pendingByte = none ∧
    (∀ a, Memory.read t.enc.blockBuffer a = none) ∧
    t.dec.phase = none ∧ t.dec.remaining = none ∧
    t.smode = s.smode ∧ t.out = s.out ∧ t.port = s.port

/-- R87: SRCFAULT in an ACTIVE session, in either mode, raises READ_FAULT; nothing is emitted and no draw is taken. -/
def Obligations.SrcfaultRaisesReadFault : Prop :=
  ∀ s : State, s.sess = .active →
    exec .srcfault s = .next (faultEntry .readFault s) ∧
    (faultEntry .readFault s).err = some .readFault ∧ (faultEntry .readFault s).out = s.out

/-- R89: BYTE, FIN and SRCFAULT in IDLE and DONE raise ILLEGAL_COMMAND; a DONE session becomes FAULTED with a non-zero
exit code, and the sink keeps what it had. -/
def Obligations.CommandsOutsideASessionFault : Prop :=
  ∀ (c : SessionCommand) (s : State), (s.sess = .idle ∨ s.sess = .done) →
    instrOf s c.word = .outsideSession c ∧
    exec (.outsideSession c) s = .next (faultEntry .illegalCommand s) ∧
    (faultEntry .illegalCommand s).exitCode = some 4 ∧
    (faultEntry .illegalCommand s).out = s.out ∧
    (faultEntry .illegalCommand s).sinkContent = s.sinkContent

/-- R90: in FAULTED every well-formed instruction but INIT leaves the whole state as it is, and INIT starts a new
session. -/
def Obligations.FaultedIgnoresAllButInit : Prop :=
  ∀ (i : Instr) (s : State), s.sess = .faulted → i.wf = true →
    (i ≠ .initC → i ≠ .initD → exec i s = .next s) ∧
    (i = .initC → exec i s = .next (initSession .compress s)) ∧
    (i = .initD → exec i s = .next (initSession .decompress s))

/-- R20: `exit_code` is 0 in DONE, `err` in FAULTED (1 to 4), and none in IDLE and ACTIVE. -/
def Obligations.ExitCodeFromSessAndErr : Prop :=
  ∀ s : State, Inv s →
    (s.sess = .done → s.exitCode = some 0) ∧
    (s.sess = .faulted → s.exitCode = some (errCode s.err) ∧ 1 ≤ (errCode s.err).toNat ∧ (errCode s.err).toNat ≤ 4) ∧
    (s.sess = .idle ∨ s.sess = .active → s.exitCode = none)

/-! ### The encoder -/

/-- R66: two equal bytes start a run; the bytes before the pair are flushed as a literal if there are any. -/
def Obligations.EncBytePairStartsARun : Prop :=
  ∀ (b : Byte) (n : Count) (ds : List Byte) (s : State),
    s.sess = .active → s.smode = .compress → s.enc.mode = some .accumulating → s.enc.runCount = some n →
    1 ≤ n.toNat → n.toNat ≤ 126 → s.enc.pendingByte = some b →
    ds.length = n.toNat - 1 → CellsHold s.enc.blockBuffer ds →
    let record := if ds = [] then [] else BitVec.ofNat 8 ds.length :: ds
    Offers (.encByte b) s record record.length
      { (s.drawn record.length) with
        out := s.out ++ record
        enc := { s.enc with mode := some .repeating, runCount := some 2#7, pendingByte := some b } }

/-- R67: a byte that makes no pair joins the literal block, in cell `run_count`; every other cell reads as before. -/
def Obligations.EncByteAppendsALiteral : Prop :=
  ∀ (b : Byte) (n : Count) (s : State),
    s.sess = .active → s.smode = .compress → s.enc.mode = some .accumulating → s.enc.runCount = some n →
    n.toNat < 126 → (n = 0#7 ∨ ∃ p, s.enc.pendingByte = some p ∧ p ≠ b) →
    let m := Memory.write s.enc.blockBuffer n.toNat b
    exec (.encByte b) s = .next
        { s with enc := { mode := some .accumulating, runCount := some (n + 1#7), pendingByte := some b, blockBuffer := m } } ∧
      (n + 1#7).toNat = n.toNat + 1 ∧
      Memory.read m n.toNat = some b ∧ ∀ a ≠ n.toNat, Memory.read m a = Memory.read s.enc.blockBuffer a

/-- R68: the 127th literal byte fills the block, which is flushed whole and left empty. -/
def Obligations.EncByteFullBlockIsFlushed : Prop :=
  ∀ (b p : Byte) (ds : List Byte) (s : State),
    s.sess = .active → s.smode = .compress → s.enc.mode = some .accumulating → s.enc.runCount = some 126#7 →
    s.enc.pendingByte = some p → b ≠ p → ds.length = 126 → CellsHold s.enc.blockBuffer ds →
    let record := 0x7F#8 :: (ds ++ [b])
    let m := Memory.write s.enc.blockBuffer 126 b
    Offers (.encByte b) s record 128
        { (s.drawn 128) with
          out := s.out ++ record
          enc := { mode := some .accumulating, runCount := some 0#7, pendingByte := some b, blockBuffer := m } } ∧
      Memory.read m 126 = some b ∧ ∀ a ≠ 126, Memory.read m a = Memory.read s.enc.blockBuffer a

/-- R69: the run grows by one; nothing is emitted. -/
def Obligations.EncByteExtendsARun : Prop :=
  ∀ (b : Byte) (n : Count) (s : State),
    s.sess = .active → s.smode = .compress → s.enc.mode = some .repeating → s.enc.runCount = some n →
    2 ≤ n.toNat → n.toNat < 126 → s.enc.pendingByte = some b →
    exec (.encByte b) s = .next { s with enc := { s.enc with runCount := some (n + 1#7) } } ∧
    (n + 1#7).toNat = n.toNat + 1

/-- R70: the run that reaches 127 is flushed, and the encoder is in empty ACCUMULATING. -/
def Obligations.EncByteFullRunIsFlushed : Prop :=
  ∀ (b : Byte) (s : State),
    s.sess = .active → s.smode = .compress → s.enc.mode = some .repeating → s.enc.runCount = some 126#7 →
    s.enc.pendingByte = some b →
    Offers (.encByte b) s [0xFF#8, b] 2
      { (s.drawn 2) with
        out := s.out ++ [0xFF#8, b]
        enc := { s.enc with mode := some .accumulating, runCount := some 0#7 } }

/-- R71: a different byte ends the run, which is flushed, and starts a literal block in cell 0. -/
def Obligations.EncByteBreaksARun : Prop :=
  ∀ (b p : Byte) (n : Count) (s : State),
    s.sess = .active → s.smode = .compress → s.enc.mode = some .repeating → s.enc.runCount = some n →
    2 ≤ n.toNat → n.toNat ≤ 126 → s.enc.pendingByte = some p → b ≠ p →
    let record := [BitVec.ofNat 8 (0x80 + n.toNat), p]
    let m := Memory.write s.enc.blockBuffer 0 b
    Offers (.encByte b) s record 2
        { (s.drawn 2) with
          out := s.out ++ record
          enc := { mode := some .accumulating, runCount := some 1#7, pendingByte := some b, blockBuffer := m } } ∧
      Memory.read m 0 = some b ∧ ∀ a ≠ 0, Memory.read m a = Memory.read s.enc.blockBuffer a

/-- R72: FIN writes the outstanding run or block, if there is one, then flushes the sink, and the session is DONE with no
buffered data. The entry `.finished` says that the sink holds the whole of `out` (R42); the session log it stands in is the
model's choice (log entry 5). -/
def Obligations.EncFinFlushesAndEnds : Prop :=
  ∀ (n : Count) (ds : List Byte) (p : Byte) (s : State),
    s.sess = .active → s.smode = .compress → s.enc.runCount = some n →
    let after (record : List Byte) : State :=
      { (s.drawn (record.length + 1)) with
        out := s.out ++ record
        sess := .done
        enc := { s.enc with mode := some .accumulating, runCount := some 0#7 }
        log := .finished s.smode (s.out ++ record) :: s.log }
    (s.enc.mode = some .repeating → 2 ≤ n.toNat → n.toNat ≤ 126 → s.enc.pendingByte = some p →
      Offers .encFin s [BitVec.ofNat 8 (0x80 + n.toNat), p] 3 (after [BitVec.ofNat 8 (0x80 + n.toNat), p])) ∧
    (s.enc.mode = some .accumulating → 1 ≤ n.toNat → n.toNat ≤ 126 → ds.length = n.toNat →
      CellsHold s.enc.blockBuffer ds →
      Offers .encFin s (BitVec.ofNat 8 n.toNat :: ds) (n.toNat + 2) (after (BitVec.ofNat 8 n.toNat :: ds))) ∧
    (s.enc.mode = some .accumulating → n = 0#7 → Offers .encFin s [] 1 (after []))

/-- The frame of the encoder's buffer: ENC.BYTE stores one cell, whose index is `run_count` where the byte joins a block
and 0 where it breaks a run, and no cell otherwise; ENC.FIN stores none. -/
def Obligations.EncoderBufferFrame : Prop :=
  ∀ (b : Byte) (n : Count) (s t : State),
    s.sess = .active → s.smode = .compress → s.enc.runCount = some n → t.sess ≠ .faulted →
    (exec (.encByte b) s = .next t → s.enc.mode = some .accumulating → (n = 0#7 ∨ s.enc.pendingByte ≠ some b) →
      Memory.read t.enc.blockBuffer n.toNat = some b ∧
      ∀ a ≠ n.toNat, Memory.read t.enc.blockBuffer a = Memory.read s.enc.blockBuffer a) ∧
    (exec (.encByte b) s = .next t → s.enc.mode = some .repeating → s.enc.pendingByte ≠ some b →
      Memory.read t.enc.blockBuffer 0 = some b ∧
      ∀ a ≠ 0, Memory.read t.enc.blockBuffer a = Memory.read s.enc.blockBuffer a) ∧
    (exec (.encByte b) s = .next t → n ≠ 0#7 → s.enc.pendingByte = some b →
      ∀ a, Memory.read t.enc.blockBuffer a = Memory.read s.enc.blockBuffer a) ∧
    (exec .encFin s = .next t → ∀ a, Memory.read t.enc.blockBuffer a = Memory.read s.enc.blockBuffer a)

/-! ### The decoder -/

/-- R76: DEC.BYTE runs the stream row that its byte is in the decoder's phase. -/
def Obligations.DecByteRunsItsStreamRow : Prop :=
  ∀ (b : Byte) (phase : Phase) (s : State),
    s.sess = .active → s.smode = .decompress → s.dec.phase = some phase →
    exec (.decByte b) s = exec (decodeStream phase b) s

/-- R77: a literal status byte begins a block of its length; nothing is emitted and no draw is taken. -/
def Obligations.StatusLitBeginsABlock : Prop :=
  ∀ (len : Count) (s : State),
    s.sess = .active → s.smode = .decompress → s.dec.phase = some .awaitingStatus → len ≠ 0#7 →
    let after : State := { s with dec := { phase := some .readingBlockBytes, remaining := some len } }
    exec (.stLit len) s = .next after ∧ exec (.decByte (BitVec.ofNat 8 len.toNat)) s = .next after

/-- R78: a run status byte begins a run of its length, 1 included. -/
def Obligations.StatusRunBeginsARun : Prop :=
  ∀ (len : Count) (s : State),
    s.sess = .active → s.smode = .decompress → s.dec.phase = some .awaitingStatus → len ≠ 0#7 →
    let after : State := { s with dec := { phase := some .readingRunByte, remaining := some len } }
    exec (.stRun len) s = .next after ∧ exec (.decByte (BitVec.ofNat 8 (0x80 + len.toNat))) s = .next after

/-- R79: the zero-length status bytes 0x00 and 0x80 change nothing at all, and no payload byte is consumed. The source
marks this branch as possibly unintended (I1, log entry 11). -/
def Obligations.ZeroLengthStatusIsANop : Prop :=
  ∀ s : State, s.sess = .active → s.smode = .decompress → s.dec.phase = some .awaitingStatus →
    exec .stNop0 s = .next s ∧ exec .stNop80 s = .next s ∧
    exec (.decByte 0x00#8) s = .next s ∧ exec (.decByte 0x80#8) s = .next s

/-- R80: the content byte of a run is emitted `remaining` times, and a status byte is awaited. -/
def Obligations.RunByteIsRepeated : Prop :=
  ∀ (b : Byte) (n : Count) (s : State),
    s.sess = .active → s.smode = .decompress → s.dec.phase = some .readingRunByte → s.dec.remaining = some n →
    1 ≤ n.toNat →
    let copies := List.replicate n.toNat b
    let after : State :=
      { (s.drawn n.toNat) with out := s.out ++ copies, dec := { s.dec with phase := some .awaitingStatus } }
    Offers (.payloadRun b) s copies n.toNat after ∧ Offers (.decByte b) s copies n.toNat after

/-- R81: a literal payload byte is emitted as it is, `remaining` goes down by one, and the last one ends the record. -/
def Obligations.BlockByteIsCopied : Prop :=
  ∀ (b : Byte) (n : Count) (s : State),
    s.sess = .active → s.smode = .decompress → s.dec.phase = some .readingBlockBytes → s.dec.remaining = some n →
    1 ≤ n.toNat →
    let after : State :=
      { (s.drawn 1) with
        out := s.out ++ [b]
        dec := { phase := if n.toNat = 1 then some .awaitingStatus else some .readingBlockBytes,
                 remaining := some (n - 1#7) } }
    (n - 1#7).toNat = n.toNat - 1 ∧
    Offers (.payloadLit b) s [b] 1 after ∧ Offers (.decByte b) s [b] 1 after

/-- R82: FIN at a record boundary flushes the sink and ends the session; inside a record it raises TRUNCATED_STREAM before
any flush, so no draw is taken. The entry `.finished` says that the sink holds the whole of `out` (R42); the session log it
stands in is the model's choice (log entry 5). -/
def Obligations.DecFinChecksTruncation : Prop :=
  ∀ s : State, s.sess = .active → s.smode = .decompress →
    (s.dec.phase = some .awaitingStatus →
      Offers .decFin s [] 1 { (s.drawn 1) with sess := .done, log := .finished s.smode s.out :: s.log }) ∧
    (s.dec.phase = some .readingRunByte ∨ s.dec.phase = some .readingBlockBytes →
      exec .decFin s = .next (faultEntry .truncatedStream s) ∧
      (faultEntry .truncatedStream s).port = s.port ∧ (faultEntry .truncatedStream s).out = s.out)

/-! ### Where the model stops -/

/-- R9, D18: a command whose case reads an engine register or a buffer cell that holds ⊥ stops with
`ModelUnwrittenRead`. A cell is read when its turn comes in a literal record, so the draws before it must be accepted. -/
def Obligations.UnwrittenReadsStop : Prop :=
  ∀ (b : Byte) (s : State), s.sess = .active →
    (s.smode = .compress → (s.enc.mode = none ∨ s.enc.runCount = none) →
      exec (.encByte b) s = .fault .modelUnwrittenRead ∧ exec .encFin s = .fault .modelUnwrittenRead) ∧
    (s.smode = .compress → s.enc.pendingByte = none →
      ∀ n : Count, s.enc.runCount = some n →
        (s.enc.mode = some .accumulating → 1 ≤ n.toNat → n.toNat ≤ 126 →
          exec (.encByte b) s = .fault .modelUnwrittenRead) ∧
        (s.enc.mode = some .repeating → 2 ≤ n.toNat → n.toNat ≤ 126 →
          exec (.encByte b) s = .fault .modelUnwrittenRead ∧ exec .encFin s = .fault .modelUnwrittenRead)) ∧
    (s.smode = .compress → s.enc.mode = some .accumulating →
      ∀ (n : Count) (p : Byte) (i : Nat), s.enc.runCount = some n → n.toNat ≤ 126 → s.enc.pendingByte = some p →
        Memory.read s.enc.blockBuffer i = none → s.accepts (i + 1) →
        (b = p → i + 1 < n.toNat → exec (.encByte b) s = .fault .modelUnwrittenRead) ∧
        (b ≠ p → n.toNat = 126 → i < 126 → exec (.encByte b) s = .fault .modelUnwrittenRead) ∧
        (i < n.toNat → exec .encFin s = .fault .modelUnwrittenRead)) ∧
    (s.smode = .decompress → s.dec.phase = none →
      exec (.decByte b) s = .fault .modelUnwrittenRead ∧ exec .decFin s = .fault .modelUnwrittenRead ∧
      ∀ i : Instr, i.isStream = true → exec i s = .fault .modelUnwrittenRead) ∧
    (s.smode = .decompress → s.dec.remaining = none →
      (s.dec.phase = some .readingRunByte → exec (.decByte b) s = .fault .modelUnwrittenRead ∧
        exec (.payloadRun b) s = .fault .modelUnwrittenRead) ∧
      (s.dec.phase = some .readingBlockBytes → exec (.decByte b) s = .fault .modelUnwrittenRead ∧
        exec (.payloadLit b) s = .fault .modelUnwrittenRead))

/-- I3: a command that reads a counter outside the rules stops with `ModelInvariant`. -/
def Obligations.CountersOutsideTheRulesStop : Prop :=
  ∀ (b : Byte) (n : Count) (s : State), s.sess = .active →
    (s.smode = .compress → s.enc.runCount = some n →
      (s.enc.mode = some .accumulating ∧ n.toNat = 127 ∨
        s.enc.mode = some .repeating ∧ (n.toNat < 2 ∨ n.toNat = 127)) →
      exec (.encByte b) s = .fault .modelInvariant ∧ exec .encFin s = .fault .modelInvariant) ∧
    (s.smode = .decompress → s.dec.remaining = some 0#7 →
      (s.dec.phase = some .readingRunByte → exec (.decByte b) s = .fault .modelInvariant ∧
        exec (.payloadRun b) s = .fault .modelInvariant) ∧
      (s.dec.phase = some .readingBlockBytes → exec (.decByte b) s = .fault .modelInvariant ∧
        exec (.payloadLit b) s = .fault .modelInvariant))

/-! ### The whole machine -/

/-- A step takes the oldest event off the port. A command word runs as the instruction it is in this session state and
mode, a reset resets, and with no event the block holds its state (the last is the model's choice, log entry 3). -/
def Obligations.StepRunsTheNextEvent : Prop :=
  ∀ (s : State) (es : List HostEvent) (w : CommandWord),
    (s.port.pending = .command w :: es →
      step s = exec (decode s.sess s.smode w) { s with port := { s.port with pending := es } }) ∧
    (s.port.pending = .reset :: es → step s = .next (hardwareReset { s with port := { s.port with pending := es } })) ∧
    (s.port.pending = [] → step s = .next s)

/-- R84: an instruction does what the pseudocode of the step does with its command word, and a word's instruction is the
row that has that word. -/
def Obligations.ExecFollowsTheStepPseudocode : Prop :=
  (∀ (i : Instr) (s : State), exec i s = runWord (encode i) s) ∧
  (∀ (w : CommandWord) (s : State), exec (instrOf s w) s = runWord w s)

/-- The invariant holds at reset. -/
def Obligations.ResetMeetsTheInvariant : Prop := Inv State.reset ∧ EncoderStream State.reset

/-- R28, R29 and the rest of `Inv` (R17, R19, R35, R72, R97) hold after every step of every state that meets them. That a
DONE session's content is the sink's (R42) is read from the model's session log (log entry 5). -/
def Obligations.StepKeepsTheInvariant : Prop :=
  ∀ s t : State, Inv s → step s = .next t → Inv t

/-- R84, R28: every step is total: from a state that meets the invariant, every step answers a next state, so that no
command reads ⊥ or meets a counter outside the rules. -/
def Obligations.EveryStepAnswersNext : Prop :=
  ∀ s : State, Inv s → ∃ t, step s = .next t

/-- R73: in a compress session with no fault `out` stays a concatenation of literals of 1..127 and runs of 2..127, and
each ENC.BYTE and the ENC.FIN emit at most one of them. -/
def Obligations.EncoderEmitsBoundedRecords : Prop :=
  (∀ s t : State, Inv s → EncoderStream s → step s = .next t → EncoderStream t) ∧
  (∀ (i : Instr) (s t : State), Inv s → s.sess = .active → s.smode = .compress →
    (i = .encFin ∨ ∃ b, i = .encByte b) → exec i s = .next t → t.sess ≠ .faulted →
    ∃ rs : List Record, rs.length ≤ 1 ∧ (∀ r ∈ rs, r.byEncoder = true) ∧ t.out = s.out ++ rs.flatMap Record.bytes)

/-- R37, R27: no command but INIT removes or changes a byte that `out` holds. -/
def Obligations.OutIsAppendOnly : Prop :=
  ∀ (w : CommandWord) (s t : State), exec (instrOf s w) s = .next t → legalInit w = false → s.out <+: t.out

/-- R114: the most bytes a command emits, by its row. -/
def Obligations.BurstIsBounded : Prop :=
  ∀ (w : CommandWord) (s t : State), Inv s → exec (instrOf s w) s = .next t → legalInit w = false →
    t.out.length ≤ s.out.length + burstBound (instrOf s w)

/-- R18: `smode` is written by INIT alone. -/
def Obligations.OnlyInitWritesSmode : Prop :=
  ∀ (w : CommandWord) (s t : State), exec (instrOf s w) s = .next t →
    t.smode = if w = 0x000#10 then .compress else if w = 0x001#10 then .decompress else s.smode

/-- R19, R100: a session's first fault stays in `err` until INIT or reset. -/
def Obligations.FirstFaultIsSticky : Prop :=
  ∀ (s t : State) (kind : FaultKind), Inv s → s.err = some kind → step s = .next t →
    t.err = some kind ∨
    s.port.pending.head? = some .reset ∨ ∃ w, s.port.pending.head? = some (.command w) ∧ legalInit w = true

/-- R17: what `sess` can become. Only INIT starts a session, only a FIN in an ACTIVE session completes one, and nothing
but reset returns to IDLE. -/
def Obligations.SessionLifecycle : Prop :=
  ∀ (w : CommandWord) (s t : State), exec (instrOf s w) s = .next t →
    (legalInit w = true → t.sess = .active) ∧
    (t.sess = .active → legalInit w = true ∨ s.sess = .active) ∧
    (t.sess = .done → s.sess = .active ∧ w = finWord ∧ t.err = s.err) ∧
    (t.sess = .faulted → s.sess = .faulted ∧ t = s ∨ t.err ≠ none) ∧
    t.sess ≠ .idle

/-- R42: the sink holds exactly `out` after DONE, a prefix of it (its length is the free value) after a fault or an INIT
in an ACTIVE session, and what it held when a DONE session faults. -/
def Obligations.DurableContentIsSettledOnce : Prop :=
  ∀ (w : CommandWord) (s t : State), exec (instrOf s w) s = .next t →
    (s.sess = .active → t.sess = .done → t.sinkContent = some t.out) ∧
    (s.sess = .active → t.sess = .faulted →
      t.sinkContent = some (t.out.take (Config.sinkDurable s.log.length))) ∧
    (s.sess = .active → legalInit w = true →
      t.sinkContent = some (s.out.take (Config.sinkDurable s.log.length))) ∧
    (s.sess = .done → t.sinkContent = s.sinkContent)

/-- R48: the commands the host has issued are no part of the block: no instruction reads or changes the ones to come. -/
def Obligations.CommandsAreNotStored : Prop :=
  ∀ (i : Instr) (es : List HostEvent) (s : State),
    exec i (s.setPending es) =
      match exec i s with
      | .next t => .next (t.setPending es)
      | .fault f => .fault f
      | .refused r => .refused r

/-- R31, R32: two states that differ only in registers no command reads run on together, whatever the host issues: the
same stop, or next states that again differ only in such registers. -/
def Obligations.HiddenRegistersHaveNoEffect : Prop :=
  ∀ s s' : State, HiddenAgree s s' →
    (∀ t, step s = .next t → ∃ t', step s' = .next t' ∧ HiddenAgree t t') ∧
    (∀ f, step s = .fault f → step s' = .fault f)

/-! ### Sessions -/

/-- R75: decompressing what a compress session put out gives its input back, from whatever states the host starts the two
sessions; and an empty input gives an empty output. -/
def Obligations.RoundTrip : Prop :=
  (∀ (xs : List Byte) (s t v u : State),
    runCommands (AsmLine.compress xs).words s = .next t → t.sess = .done →
    runCommands (AsmLine.decompress t.out).words v = .next u → u.sess = .done → u.out = xs) ∧
  (∀ s t : State, runCommands (AsmLine.compress []).words s = .next t → t.sess = .done → t.out = [])

/-- R83: with no write fault, a decompress session ends in DONE exactly when its input ends at a record boundary, with
the expansion of its records put out; else FIN raises TRUNCATED_STREAM.It depends on the zero-length no-op of R79
(I1, log entry 11): a token may be a lone 0x00 or 0x80. -/
def Obligations.DecoderAcceptsExactlyWholeRecords : Prop :=
  ∀ (e : List Byte) (s t : State),
    runCommands (AsmLine.decompress e).words s = .next t → t.err ≠ some .writeFault →
    (t.sess = .done ↔ ∃ ts : List Token, (∀ x ∈ ts, x.bounded = true) ∧ e = ts.flatMap Token.bytes) ∧
    (t.sess ≠ .done → t.sess = .faulted ∧ t.err = some .truncatedStream) ∧
    (∀ ts : List Token, (∀ x ∈ ts, x.bounded = true) → e = ts.flatMap Token.bytes → t.out = ts.flatMap Token.expand)

/-- R74 (a) with an empty block: `k` equal bytes give `k / 127` runs of 127, and the rest stands in the encoder: nothing,
one byte of a literal block, or a run. -/
def Obligations.RunsSplitAt127 : Prop :=
  ∀ (x : Byte) (k : Nat) (s t : State),
    s.sess = .active → s.smode = .compress → s.enc.mode = some .accumulating → s.enc.runCount = some 0#7 →
    runCommands (AsmLine.repeated x k).words s = .next t → t.sess = .active →
    t.out = s.out ++ (List.replicate (k / 127) [0xFF#8, x]).flatten ∧
    (k % 127 = 0 → t.enc.mode = some .accumulating ∧ t.enc.runCount = some 0#7) ∧
    (k % 127 = 1 → t.enc.mode = some .accumulating ∧ t.enc.runCount = some 1#7 ∧
      Memory.read t.enc.blockBuffer 0 = some x) ∧
    (2 ≤ k % 127 → t.enc.mode = some .repeating ∧ t.enc.runCount = some (BitVec.ofNat 7 (k % 127)) ∧
      t.enc.pendingByte = some x)

/-! ### The status outputs -/

/-- R17 to R19, R21, R25, R30, R92, D5, D6, D15: the codes of the registers, and what the host reads between commands:
`sess`, `smode`, `err`, `exit_code` and `out`. -/
def Obligations.RegisterCodesAndHostView : Prop :=
  (sessCode .idle = 0#2 ∧ sessCode .active = 1#2 ∧ sessCode .done = 2#2 ∧ sessCode .faulted = 3#2) ∧
  (smodeCode .compress = 0#1 ∧ smodeCode .decompress = 1#1) ∧
  (errCode none = 0#3 ∧ errCode (some .readFault) = 1#3 ∧ errCode (some .writeFault) = 2#3 ∧
    errCode (some .truncatedStream) = 3#3 ∧ errCode (some .illegalCommand) = 4#3) ∧
  (encModeCode .accumulating = 0#1 ∧ encModeCode .repeating = 1#1) ∧
  (phaseCode .awaitingStatus = 0#2 ∧ phaseCode .readingRunByte = 1#2 ∧ phaseCode .readingBlockBytes = 2#2) ∧
  ∀ s : State,
    s.visible.sess = sessCode s.sess ∧ s.visible.smode = smodeCode s.smode ∧ s.visible.err = errCode s.err ∧
    s.visible.out = s.out ∧
    (s.sess = .done → s.visible.exitCode = some 0#3) ∧
    (s.sess = .faulted → s.visible.exitCode = some s.visible.err) ∧
    (s.sess = .idle ∨ s.sess = .active → s.visible.exitCode = none)

/-! ### Runs from reset -/

/-- R28, R29, R33: from reset, whatever events the host issues and whatever the sink answers, every run goes on and keeps
the invariant; so no run from reset reads a register that holds ⊥ (R9, D18, log entry 1). The port that carries the
events and the answers is the model's (log entries 3, 4). -/
def Obligations.RunsFromResetNeverStop : Prop :=
  ∀ (port : Port) (k : Nat),
    ∃ t : State, Sys2Proof.core.run k { State.reset with port := port } = .next t ∧ Inv t

/-- I2, R31, R33, R85, R86: what the registers hold that reset and INIT leave unspecified has no effect. With anything in
them, ⊥ included, every run from reset and from INIT goes on just as far, and its end differs at most in registers that no
command reads. So no claim rests on the values that log entry 13 names. -/
def Obligations.UnspecifiedValuesHaveNoEffect : Prop :=
  ∀ (s₀ : State) (p : Option Byte) (m : Memory) (r : Option Count) (k : Nat),
    ((∃ mode s, s₀ = initSession mode s) ∨ ∃ port, s₀ = { State.reset with port := port }) →
    ∃ t t' : State, Sys2Proof.core.run k s₀ = .next t ∧
      Sys2Proof.core.run k (s₀.withUnspecified p m r) = .next t' ∧
      HiddenAgree t t' ∧ t.visible = t'.visible
end

