-- ==== Sys2Proof/Laws/Decode.lean ====
section
/-! SUPPORT. The fields of command words and status bytes, taken apart and put together. -/

namespace Sys2Proof

@[simp] theorem opField_mkWord (op : BitVec 2) (data : Byte) : opField (mkWord op data) = op := by
  exact BitVec.extractLsb'_append_eq_left

@[simp] theorem dataField_mkWord (op : BitVec 2) (data : Byte) : dataField (mkWord op data) = data := by
  exact BitVec.extractLsb'_append_eq_right

theorem mkWord_fields (w : CommandWord) : mkWord (opField w) (dataField w) = w := by
  refine BitVec.eq_of_getLsbD_eq fun i hi => ?_
  simp only [mkWord, opField, dataField, BitVec.getLsbD_append, BitVec.getLsbD_extractLsb']
  by_cases h : i < 8
  · simp [h]
  · simp [h, Nat.add_sub_cancel' (Nat.le_of_not_lt h)]
    omega

theorem opOf_mkWord_zero (data : Byte) : opOf (mkWord 0#2 data) = .init := by simp [opOf]
theorem opOf_mkWord_one (data : Byte) : opOf (mkWord 1#2 data) = .byte := by simp [opOf]
theorem opOf_mkWord_two (data : Byte) : opOf (mkWord 2#2 data) = .fin := by simp [opOf]
theorem opOf_mkWord_three (data : Byte) : opOf (mkWord 3#2 data) = .srcfault := by simp [opOf]

theorem toNat_mkWord (op : BitVec 2) (data : Byte) : (mkWord op data).toNat = op.toNat * 256 + data.toNat := by
  have h : (mkWord op data).toNat = op.toNat <<< 8 ||| data.toNat := BitVec.toNat_append op data
  rw [h, ← Nat.shiftLeft_add_eq_or_of_lt data.isLt, Nat.shiftLeft_eq]

/-- The two bits of `op` as the operation they name, and the word rebuilt from it. -/
theorem word_cases (w : CommandWord) :
    (opOf w = .init ∧ w = mkWord 0#2 (dataField w)) ∨ (opOf w = .byte ∧ w = mkWord 1#2 (dataField w)) ∨
    (opOf w = .fin ∧ w = mkWord 2#2 (dataField w)) ∨ (opOf w = .srcfault ∧ w = mkWord 3#2 (dataField w)) := by
  have key : ∀ op : BitVec 2, op = 0#2 ∨ op = 1#2 ∨ op = 2#2 ∨ op = 3#2 := by decide
  have hw := mkWord_fields w
  rcases key (opField w) with h | h | h | h <;> rw [h] at hw <;> rw [← hw]
  · exact .inl ⟨opOf_mkWord_zero _, by rw [dataField_mkWord]⟩
  · exact .inr (.inl ⟨opOf_mkWord_one _, by rw [dataField_mkWord]⟩)
  · exact .inr (.inr (.inl ⟨opOf_mkWord_two _, by rw [dataField_mkWord]⟩))
  · exact .inr (.inr (.inr ⟨opOf_mkWord_three _, by rw [dataField_mkWord]⟩))

/-! ### Status bytes -/

theorem decodeStatus_literal (len : Count) : decodeStatus (len.setWidth 8) = (.literal, len) := by
  revert len
  decide

theorem decodeStatus_runLength (len : Count) : decodeStatus (0x80#8 ||| len.setWidth 8) = (.runLength, len) := by
  revert len
  decide

/-- A byte is its kind bit and its length. -/
theorem byte_of_decodeStatus (b : Byte) :
    b = match decodeStatus b with
      | (.literal, len) => len.setWidth 8
      | (.runLength, len) => 0x80#8 ||| len.setWidth 8 := by
  revert b
  decide

end Sys2Proof
end

