-- ==== Sys2Proof/Laws/Memory.lean ====
section
/-! SUPPORT. The block buffer: reads after writes, and the canonical form that every write keeps. -/

namespace Sys2Proof.Machine

@[simp] theorem Memory.read_nil (a : Nat) : Memory.read [] a = none := rfl

theorem Memory.read_write_same (m : Memory) (a : Nat) (v : Byte) :
    Memory.read (Memory.write m a v) a = some v := by
  induction m with
  | nil => simp [Memory.write, Memory.read]
  | cons c m ih =>
    obtain ⟨k, x⟩ := c
    simp only [Memory.write]
    split
    · simp [Memory.read]
    · split
      · simp [Memory.read]
      · rename_i h
        simp [Memory.read, Ne.symm h, ih]

theorem Memory.read_write_other (m : Memory) {a b : Nat} (v : Byte) (h : b ≠ a) :
    Memory.read (Memory.write m a v) b = Memory.read m b := by
  induction m with
  | nil => simp [Memory.write, Memory.read, Ne.symm h, Memory.unlisted]
  | cons c m ih =>
    obtain ⟨k, x⟩ := c
    simp only [Memory.write]
    split
    · simp [Memory.read, Ne.symm h]
    · split
      · rename_i hk
        subst hk
        simp [Memory.read, Ne.symm h]
      · simp [Memory.read, ih]

theorem Memory.read_write (m : Memory) (a b : Nat) (v : Byte) :
    Memory.read (Memory.write m a v) b = if b = a then some v else Memory.read m b := by
  split
  · rename_i h
    rw [h, Memory.read_write_same]
  · rename_i h
    exact Memory.read_write_other m v h

theorem Memory.wfFrom_write {m : Memory} {lo a : Nat} (v : Byte) (hm : Memory.wfFrom lo m = true) (hlo : lo ≤ a)
    (ha : a < Config.bufCap) : Memory.wfFrom lo (Memory.write m a v) = true := by
  induction m generalizing lo with
  | nil => simp [Memory.write, Memory.wfFrom, hlo, ha]
  | cons c m ih =>
    obtain ⟨k, x⟩ := c
    simp only [Memory.wfFrom, Bool.and_eq_true, decide_eq_true_eq] at hm
    obtain ⟨⟨h1, h2⟩, h3⟩ := hm
    simp only [Memory.write]
    split
    · rename_i h
      simp [Memory.wfFrom, hlo, ha, h2, h3, Nat.succ_le_of_lt h]
    · split
      · rename_i h
        subst h
        simp [Memory.wfFrom, hlo, ha, h3]
      · rename_i h h'
        simp [Memory.wfFrom, h1, h2, ih h3 (by omega)]

/-- Every write keeps the canonical form. -/
theorem Memory.wf_write {m : Memory} {a : Nat} (v : Byte) (hm : Memory.wf m = true) (ha : a < Config.bufCap) :
    Memory.wf (Memory.write m a v) = true :=
  Memory.wfFrom_write v hm (Nat.zero_le a) ha

theorem Memory.wf_nil : Memory.wf [] = true := rfl

theorem Memory.wf_zeros : Memory.wf Memory.zeros = true := by decide +kernel

theorem Memory.read_zeros {i : Nat} (h : i < 127) : Memory.read Memory.zeros i = some 0x00#8 := by
  have key : ∀ i < 127, Memory.read Memory.zeros i = some 0x00#8 := by decide +kernel
  exact key i h

theorem Memory.read_of_wfFrom {m : Memory} {lo a : Nat} (hm : Memory.wfFrom lo m = true)
    (h : a < lo ∨ Config.bufCap ≤ a) : Memory.read m a = none := by
  induction m generalizing lo with
  | nil => rfl
  | cons c m ih =>
    obtain ⟨k, x⟩ := c
    simp only [Memory.wfFrom, Bool.and_eq_true, decide_eq_true_eq] at hm
    obtain ⟨⟨h1, h2⟩, h3⟩ := hm
    simp only [Memory.read]
    rw [if_neg (by omega)]
    exact ih h3 (by omega)

/-- Memories in canonical form that read the same are the same data. -/
theorem Memory.ext_of_wfFrom {m m' : Memory} {lo : Nat} (hm : Memory.wfFrom lo m = true)
    (hm' : Memory.wfFrom lo m' = true) (h : ∀ a, Memory.read m a = Memory.read m' a) : m = m' := by
  induction m generalizing m' lo with
  | nil =>
    cases m' with
    | nil => rfl
    | cons c m' =>
      have := h c.1
      simp [Memory.read, Memory.unlisted] at this
  | cons c m ih =>
    obtain ⟨k, x⟩ := c
    cases m' with
    | nil =>
      have := h k
      simp [Memory.read, Memory.unlisted] at this
    | cons c' m' =>
      obtain ⟨k', x'⟩ := c'
      simp only [Memory.wfFrom, Bool.and_eq_true, decide_eq_true_eq] at hm hm'
      obtain ⟨⟨h1, h2⟩, h3⟩ := hm
      obtain ⟨⟨h1', h2'⟩, h3'⟩ := hm'
      have hk : k = k' := by
        by_contra hne
        rcases Nat.lt_or_gt_of_ne hne with hlt | hlt
        · have := h k
          simp [Memory.read, Ne.symm hne, Memory.read_of_wfFrom h3' (.inl (by omega : k < k' + 1))] at this
        · have := h k'
          simp [Memory.read, hne, Memory.read_of_wfFrom h3 (.inl (by omega : k' < k + 1))] at this
      subst hk
      have hx : x = x' := by simpa [Memory.read] using h k
      subst hx
      have : m = m' := ih h3 h3' fun a => by
        by_cases hak : k = a
        · subst hak
          rw [Memory.read_of_wfFrom h3 (.inl (Nat.lt_succ_self k)), Memory.read_of_wfFrom h3' (.inl (Nat.lt_succ_self k))]
        · simpa [Memory.read, hak] using h a
      rw [this]

end Sys2Proof.Machine
end

