-- ==== Sys2Proof/Laws/State.lean ====
section
/-! SUPPORT. What each update of the state does to each field: one lemma per field per update. -/

namespace Sys2Proof.Machine

@[simp] theorem State.setCell_sess (s : State) (i : Nat) (v : Byte) : (s.setCell i v).sess = s.sess := rfl
@[simp] theorem State.setCell_smode (s : State) (i : Nat) (v : Byte) : (s.setCell i v).smode = s.smode := rfl
@[simp] theorem State.setCell_err (s : State) (i : Nat) (v : Byte) : (s.setCell i v).err = s.err := rfl
@[simp] theorem State.setCell_enc (s : State) (i : Nat) (v : Byte) : (s.setCell i v).enc = { s.enc with blockBuffer := Memory.write s.enc.blockBuffer i v } := rfl
@[simp] theorem State.setCell_dec (s : State) (i : Nat) (v : Byte) : (s.setCell i v).dec = s.dec := rfl
@[simp] theorem State.setCell_out (s : State) (i : Nat) (v : Byte) : (s.setCell i v).out = s.out := rfl
@[simp] theorem State.setCell_port (s : State) (i : Nat) (v : Byte) : (s.setCell i v).port = s.port := rfl
@[simp] theorem State.setCell_log (s : State) (i : Nat) (v : Byte) : (s.setCell i v).log = s.log := rfl

@[simp] theorem State.drawn_sess (s : State) (n : Nat) : (s.drawn n).sess = s.sess := rfl
@[simp] theorem State.drawn_smode (s : State) (n : Nat) : (s.drawn n).smode = s.smode := rfl
@[simp] theorem State.drawn_err (s : State) (n : Nat) : (s.drawn n).err = s.err := rfl
@[simp] theorem State.drawn_enc (s : State) (n : Nat) : (s.drawn n).enc = s.enc := rfl
@[simp] theorem State.drawn_dec (s : State) (n : Nat) : (s.drawn n).dec = s.dec := rfl
@[simp] theorem State.drawn_out (s : State) (n : Nat) : (s.drawn n).out = s.out := rfl
@[simp] theorem State.drawn_port (s : State) (n : Nat) : (s.drawn n).port = { s.port with answers := s.port.answers.drop n, draws := s.port.draws + n } := rfl
@[simp] theorem State.drawn_log (s : State) (n : Nat) : (s.drawn n).log = s.log := rfl

@[simp] theorem State.emitted_sess (s : State) (bs : List Byte) : (s.emitted bs).sess = s.sess := rfl
@[simp] theorem State.emitted_smode (s : State) (bs : List Byte) : (s.emitted bs).smode = s.smode := rfl
@[simp] theorem State.emitted_err (s : State) (bs : List Byte) : (s.emitted bs).err = s.err := rfl
@[simp] theorem State.emitted_enc (s : State) (bs : List Byte) : (s.emitted bs).enc = s.enc := rfl
@[simp] theorem State.emitted_dec (s : State) (bs : List Byte) : (s.emitted bs).dec = s.dec := rfl
@[simp] theorem State.emitted_out (s : State) (bs : List Byte) : (s.emitted bs).out = s.out ++ bs := rfl
@[simp] theorem State.emitted_port (s : State) (bs : List Byte) : (s.emitted bs).port = s.port := rfl
@[simp] theorem State.emitted_log (s : State) (bs : List Byte) : (s.emitted bs).log = s.log := rfl

@[simp] theorem State.setRun_sess (s : State) (m : EncMode) (n : Count) : (s.setRun m n).sess = s.sess := rfl
@[simp] theorem State.setRun_smode (s : State) (m : EncMode) (n : Count) : (s.setRun m n).smode = s.smode := rfl
@[simp] theorem State.setRun_err (s : State) (m : EncMode) (n : Count) : (s.setRun m n).err = s.err := rfl
@[simp] theorem State.setRun_enc (s : State) (m : EncMode) (n : Count) : (s.setRun m n).enc = { s.enc with mode := some m, runCount := some n } := rfl
@[simp] theorem State.setRun_dec (s : State) (m : EncMode) (n : Count) : (s.setRun m n).dec = s.dec := rfl
@[simp] theorem State.setRun_out (s : State) (m : EncMode) (n : Count) : (s.setRun m n).out = s.out := rfl
@[simp] theorem State.setRun_port (s : State) (m : EncMode) (n : Count) : (s.setRun m n).port = s.port := rfl
@[simp] theorem State.setRun_log (s : State) (m : EncMode) (n : Count) : (s.setRun m n).log = s.log := rfl

@[simp] theorem State.setPendingByte_sess (s : State) (b : Byte) : (s.setPendingByte b).sess = s.sess := rfl
@[simp] theorem State.setPendingByte_smode (s : State) (b : Byte) : (s.setPendingByte b).smode = s.smode := rfl
@[simp] theorem State.setPendingByte_err (s : State) (b : Byte) : (s.setPendingByte b).err = s.err := rfl
@[simp] theorem State.setPendingByte_enc (s : State) (b : Byte) : (s.setPendingByte b).enc = { s.enc with pendingByte := some b } := rfl
@[simp] theorem State.setPendingByte_dec (s : State) (b : Byte) : (s.setPendingByte b).dec = s.dec := rfl
@[simp] theorem State.setPendingByte_out (s : State) (b : Byte) : (s.setPendingByte b).out = s.out := rfl
@[simp] theorem State.setPendingByte_port (s : State) (b : Byte) : (s.setPendingByte b).port = s.port := rfl
@[simp] theorem State.setPendingByte_log (s : State) (b : Byte) : (s.setPendingByte b).log = s.log := rfl

@[simp] theorem State.setPhase_sess (s : State) (p : Phase) : (s.setPhase p).sess = s.sess := rfl
@[simp] theorem State.setPhase_smode (s : State) (p : Phase) : (s.setPhase p).smode = s.smode := rfl
@[simp] theorem State.setPhase_err (s : State) (p : Phase) : (s.setPhase p).err = s.err := rfl
@[simp] theorem State.setPhase_enc (s : State) (p : Phase) : (s.setPhase p).enc = s.enc := rfl
@[simp] theorem State.setPhase_dec (s : State) (p : Phase) : (s.setPhase p).dec = { s.dec with phase := some p } := rfl
@[simp] theorem State.setPhase_out (s : State) (p : Phase) : (s.setPhase p).out = s.out := rfl
@[simp] theorem State.setPhase_port (s : State) (p : Phase) : (s.setPhase p).port = s.port := rfl
@[simp] theorem State.setPhase_log (s : State) (p : Phase) : (s.setPhase p).log = s.log := rfl

@[simp] theorem State.setRemaining_sess (s : State) (n : Count) : (s.setRemaining n).sess = s.sess := rfl
@[simp] theorem State.setRemaining_smode (s : State) (n : Count) : (s.setRemaining n).smode = s.smode := rfl
@[simp] theorem State.setRemaining_err (s : State) (n : Count) : (s.setRemaining n).err = s.err := rfl
@[simp] theorem State.setRemaining_enc (s : State) (n : Count) : (s.setRemaining n).enc = s.enc := rfl
@[simp] theorem State.setRemaining_dec (s : State) (n : Count) : (s.setRemaining n).dec = { s.dec with remaining := some n } := rfl
@[simp] theorem State.setRemaining_out (s : State) (n : Count) : (s.setRemaining n).out = s.out := rfl
@[simp] theorem State.setRemaining_port (s : State) (n : Count) : (s.setRemaining n).port = s.port := rfl
@[simp] theorem State.setRemaining_log (s : State) (n : Count) : (s.setRemaining n).log = s.log := rfl

@[simp] theorem State.setRecord_sess (s : State) (p : Phase) (n : Count) : (s.setRecord p n).sess = s.sess := rfl
@[simp] theorem State.setRecord_smode (s : State) (p : Phase) (n : Count) : (s.setRecord p n).smode = s.smode := rfl
@[simp] theorem State.setRecord_err (s : State) (p : Phase) (n : Count) : (s.setRecord p n).err = s.err := rfl
@[simp] theorem State.setRecord_enc (s : State) (p : Phase) (n : Count) : (s.setRecord p n).enc = s.enc := rfl
@[simp] theorem State.setRecord_dec (s : State) (p : Phase) (n : Count) : (s.setRecord p n).dec = { phase := some p, remaining := some n } := rfl
@[simp] theorem State.setRecord_out (s : State) (p : Phase) (n : Count) : (s.setRecord p n).out = s.out := rfl
@[simp] theorem State.setRecord_port (s : State) (p : Phase) (n : Count) : (s.setRecord p n).port = s.port := rfl
@[simp] theorem State.setRecord_log (s : State) (p : Phase) (n : Count) : (s.setRecord p n).log = s.log := rfl

@[simp] theorem State.setPending_sess (s : State) (es : List HostEvent) : (s.setPending es).sess = s.sess := rfl
@[simp] theorem State.setPending_smode (s : State) (es : List HostEvent) : (s.setPending es).smode = s.smode := rfl
@[simp] theorem State.setPending_err (s : State) (es : List HostEvent) : (s.setPending es).err = s.err := rfl
@[simp] theorem State.setPending_enc (s : State) (es : List HostEvent) : (s.setPending es).enc = s.enc := rfl
@[simp] theorem State.setPending_dec (s : State) (es : List HostEvent) : (s.setPending es).dec = s.dec := rfl
@[simp] theorem State.setPending_out (s : State) (es : List HostEvent) : (s.setPending es).out = s.out := rfl
@[simp] theorem State.setPending_port (s : State) (es : List HostEvent) : (s.setPending es).port = { s.port with pending := es } := rfl
@[simp] theorem State.setPending_log (s : State) (es : List HostEvent) : (s.setPending es).log = s.log := rfl

@[simp] theorem sessionDone_sess (s : State) : (sessionDone s).sess = .done := rfl
@[simp] theorem sessionDone_smode (s : State) : (sessionDone s).smode = s.smode := rfl
@[simp] theorem sessionDone_err (s : State) : (sessionDone s).err = s.err := rfl
@[simp] theorem sessionDone_enc (s : State) : (sessionDone s).enc = s.enc := rfl
@[simp] theorem sessionDone_dec (s : State) : (sessionDone s).dec = s.dec := rfl
@[simp] theorem sessionDone_out (s : State) : (sessionDone s).out = s.out := rfl
@[simp] theorem sessionDone_port (s : State) : (sessionDone s).port = s.port := rfl
@[simp] theorem sessionDone_log (s : State) : (sessionDone s).log = .finished s.smode s.out :: s.log := rfl

@[simp] theorem faultEntry_sess (k : FaultKind) (s : State) : (faultEntry k s).sess = .faulted := rfl
@[simp] theorem faultEntry_smode (k : FaultKind) (s : State) : (faultEntry k s).smode = s.smode := rfl
@[simp] theorem faultEntry_err (k : FaultKind) (s : State) : (faultEntry k s).err = some k := rfl
@[simp] theorem faultEntry_enc (k : FaultKind) (s : State) : (faultEntry k s).enc = .bottom := rfl
@[simp] theorem faultEntry_dec (k : FaultKind) (s : State) : (faultEntry k s).dec = .bottom := rfl
@[simp] theorem faultEntry_out (k : FaultKind) (s : State) : (faultEntry k s).out = s.out := rfl
@[simp] theorem faultEntry_port (k : FaultKind) (s : State) : (faultEntry k s).port = s.port := rfl
@[simp] theorem faultEntry_log (k : FaultKind) (s : State) : (faultEntry k s).log = s.logFault k := rfl

@[simp] theorem initSession_sess (m : SMode) (s : State) : (initSession m s).sess = .active := rfl
@[simp] theorem initSession_smode (m : SMode) (s : State) : (initSession m s).smode = m := rfl
@[simp] theorem initSession_err (m : SMode) (s : State) : (initSession m s).err = none := rfl
@[simp] theorem initSession_enc (m : SMode) (s : State) : (initSession m s).enc = .fresh := rfl
@[simp] theorem initSession_dec (m : SMode) (s : State) : (initSession m s).dec = .fresh := rfl
@[simp] theorem initSession_out (m : SMode) (s : State) : (initSession m s).out = [] := rfl
@[simp] theorem initSession_port (m : SMode) (s : State) : (initSession m s).port = s.port := rfl
@[simp] theorem initSession_log (m : SMode) (s : State) : (initSession m s).log = s.logAbandon := rfl

@[simp] theorem hardwareReset_sess (s : State) : (hardwareReset s).sess = .idle := rfl
@[simp] theorem hardwareReset_smode (s : State) : (hardwareReset s).smode = .compress := rfl
@[simp] theorem hardwareReset_err (s : State) : (hardwareReset s).err = none := rfl
@[simp] theorem hardwareReset_enc (s : State) : (hardwareReset s).enc = .fresh := rfl
@[simp] theorem hardwareReset_dec (s : State) : (hardwareReset s).dec = .fresh := rfl
@[simp] theorem hardwareReset_out (s : State) : (hardwareReset s).out = [] := rfl
@[simp] theorem hardwareReset_port (s : State) : (hardwareReset s).port = s.port := rfl
@[simp] theorem hardwareReset_log (s : State) : (hardwareReset s).log = s.logAbandon := rfl

end Sys2Proof.Machine
end

