-- ==== Sys2Proof/Laws/Sink.lean ====
section
/-! SUPPORT. The sink and the framer: what `emit`, `emitAll`, `sinkFlush`, `writeRun` and `writeLit` can do. -/

namespace Sys2Proof.Machine

/-! ### Running pseudocode -/

@[simp] theorem Flow.done_andThen (s : State) (k : State → Flow) : (Flow.done s).andThen k = k s := rfl
@[simp] theorem Flow.raised_andThen (f : FaultKind) (s : State) (k : State → Flow) :
    (Flow.raised f s).andThen k = .raised f s := rfl
@[simp] theorem Flow.stop_andThen (f : Fault) (k : State → Flow) : (Flow.stop f).andThen k = .stop f := rfl
theorem Flow.andThen_assoc (r : Flow) (k l : State → Flow) :
    (r.andThen k).andThen l = r.andThen fun s => (k s).andThen l := by
  cases r <;> rfl
@[simp] theorem Flow.andThen_done (r : Flow) : r.andThen .done = r := by
  cases r <;> rfl
@[simp] theorem reading_some {α : Type} (v : α) (k : α → Flow) : reading (some v) k = k v := rfl
@[simp] theorem reading_none {α : Type} (k : α → Flow) : reading none k = .stop .modelUnwrittenRead := rfl
@[simp] theorem finish_done (s : State) : finish (.done s) = .next s := rfl
@[simp] theorem finish_raised (f : FaultKind) (s : State) : finish (.raised f s) = .next (faultEntry f s) := rfl
@[simp] theorem finish_stop (f : Fault) : finish (.stop f) = .fault f := rfl

/-! ### The coming answers -/

@[simp] theorem State.answer_emitted (s : State) (bs : List Byte) (i : Nat) : (s.emitted bs).answer i = s.answer i := rfl
@[simp] theorem State.answer_setCell (s : State) (a : Nat) (v : Byte) (i : Nat) :
    (s.setCell a v).answer i = s.answer i := rfl
@[simp] theorem State.answer_setRun (s : State) (m : EncMode) (n : Count) (i : Nat) :
    (s.setRun m n).answer i = s.answer i := rfl
@[simp] theorem State.answer_setPending (s : State) (es : List HostEvent) (i : Nat) :
    (s.setPending es).answer i = s.answer i := rfl

@[simp] theorem State.answer_drawn (s : State) (n i : Nat) : (s.drawn n).answer i = s.answer (n + i) := by
  simp [State.answer, State.drawn, List.getElem?_drop, Nat.add_assoc]

theorem State.drawn_drawn (s : State) (n m : Nat) : (s.drawn n).drawn m = s.drawn (n + m) := by
  simp [State.drawn, List.drop_drop, Nat.add_assoc]

@[simp] theorem State.drawn_zero (s : State) : s.drawn 0 = s := rfl

@[simp] theorem State.emitted_nil (s : State) : s.emitted [] = s := by
  simp [State.emitted]

theorem State.emitted_emitted (s : State) (bs cs : List Byte) : (s.emitted bs).emitted cs = s.emitted (bs ++ cs) := by
  simp [State.emitted, List.append_assoc]

theorem State.emitted_drawn (s : State) (bs : List Byte) (n : Nat) : (s.emitted bs).drawn n = (s.drawn n).emitted bs :=
  rfl

theorem State.answer_cases (s : State) (i : Nat) : s.answer i = .accept ∨ s.answer i = .reject := by
  cases s.answer i <;> simp

/-- The next `n` draws are all accepted, or one of them is the first rejected. -/
theorem State.accepts_or_first_reject (s : State) (n : Nat) :
    s.accepts n ∨ ∃ j < n, s.accepts j ∧ s.answer j = .reject := by
  induction n with
  | zero => exact .inl fun i h => absurd h (Nat.not_lt_zero i)
  | succ n ih =>
    rcases ih with h | ⟨j, hj, h⟩
    · rcases s.answer_cases n with ha | ha
      · refine .inl fun i hi => ?_
        rcases Nat.lt_succ_iff_lt_or_eq.mp hi with h' | rfl
        · exact h i h'
        · exact ha
      · exact .inr ⟨n, Nat.lt_succ_self n, h, ha⟩
    · exact .inr ⟨j, Nat.lt_succ_of_lt hj, h⟩

/-! ### Emissions -/

theorem emit_accept {s : State} (b : Byte) (h : s.answer 0 = .accept) :
    emit b s = .done ((s.drawn 1).emitted [b]) := by
  simp [emit, h]

theorem emit_reject {s : State} (b : Byte) (h : s.answer 0 = .reject) :
    emit b s = .raised .writeFault (s.drawn 1) := by
  simp [emit, h]

theorem sinkFlush_accept {s : State} (h : s.answer 0 = .accept) : sinkFlush s = .done (s.drawn 1) := by
  simp [sinkFlush, h]

theorem sinkFlush_reject {s : State} (h : s.answer 0 = .reject) :
    sinkFlush s = .raised .writeFault (s.drawn 1) := by
  simp [sinkFlush, h]

theorem emitAll_append (bs cs : List Byte) (s : State) :
    emitAll (bs ++ cs) s = (emitAll bs s).andThen (emitAll cs) := by
  induction bs generalizing s with
  | nil => rfl
  | cons b bs ih =>
    show (emit b s).andThen (emitAll (bs ++ cs)) = ((emit b s).andThen (emitAll bs)).andThen (emitAll cs)
    rw [Flow.andThen_assoc]
    congr 1
    exact funext ih

/-- Every byte accepted: all of them are appended. -/
theorem emitAll_accept {bs : List Byte} {s : State} (h : s.accepts bs.length) :
    emitAll bs s = .done ((s.drawn bs.length).emitted bs) := by
  induction bs generalizing s with
  | nil => simp [emitAll]
  | cons b bs ih =>
    have h0 : s.answer 0 = .accept := h 0 (Nat.succ_pos _)
    have hs : ((s.drawn 1).emitted [b]).accepts bs.length := fun i hi => by
      simpa [Nat.add_comm] using h (i + 1) (Nat.succ_lt_succ hi)
    simp only [emitAll, emit_accept b h0, Flow.done_andThen, ih hs]
    rw [State.emitted_drawn, State.drawn_drawn, State.emitted_emitted, Nat.add_comm 1]
    rfl

/-- The first rejection: the bytes before it are appended, and WRITE_FAULT is raised (R39). -/
theorem emitAll_reject {bs : List Byte} {s : State} {j : Nat} (hj : j < bs.length) (ha : s.accepts j)
    (hr : s.answer j = .reject) :
    emitAll bs s = .raised .writeFault ((s.drawn (j + 1)).emitted (bs.take j)) := by
  have h1 : s.accepts (bs.take j).length := fun i hi => ha i (by simp at hi; omega)
  have hlen : (bs.take j).length = j := by simp; omega
  obtain ⟨b, cs, hbc⟩ : ∃ b cs, bs.drop j = b :: cs := by
    cases h : bs.drop j with
    | nil => simp at h; omega
    | cons b cs => exact ⟨b, cs, rfl⟩
  conv_lhs => rw [← List.take_append_drop j bs, hbc]
  rw [emitAll_append, emitAll_accept h1, Flow.done_andThen, emitAll, hlen, emit_reject b (by simpa using hr),
    Flow.raised_andThen, State.emitted_drawn, State.drawn_drawn]

/-! ### Records -/

theorem encodeStatus_of_bounds {kind : Kind} {n : Nat} (h1 : 1 ≤ n) (h2 : n ≤ 127) :
    encodeStatus kind n =
      some (match kind with | .runLength => BitVec.ofNat 8 (0x80 + n) | .literal => BitVec.ofNat 8 n) := by
  unfold encodeStatus
  rw [if_pos ⟨h1, h2⟩]
  interval_cases n <;> cases kind <;> rfl

theorem writeRun_eq_emitAll {n : Nat} (c : Byte) (s : State) (h1 : 1 ≤ n) (h2 : n ≤ 127) :
    writeRun n c s = emitAll (Record.run n c).bytes s := by
  simp [writeRun, statusByte, encodeStatus_of_bounds h1 h2, Record.bytes, emitAll]

theorem memRead_hit {i : Nat} {s : State} {b : Byte} (k : Byte → Flow) (hi : i < 127)
    (h : Memory.read s.enc.blockBuffer i = some b) : memRead i s k = k b := by
  simp [memRead, Config.bufCap, hi, h]

theorem emitCells_eq_emitAll {ds : List Byte} {i : Nat} {s : State} (hb : i + ds.length ≤ 127)
    (h : ∀ j < ds.length, Memory.read s.enc.blockBuffer (i + j) = ds[j]?) :
    emitCells i ds.length s = emitAll ds s := by
  induction ds generalizing i s with
  | nil => rfl
  | cons d ds ih =>
    have h0 : Memory.read s.enc.blockBuffer i = some d := by simpa using h 0 (Nat.succ_pos _)
    simp only [List.length_cons, emitCells, emitAll]
    simp only [List.length_cons] at hb
    rw [memRead_hit _ (by omega) h0]
    rcases s.answer_cases 0 with ha | ha
    · rw [emit_accept d ha, Flow.done_andThen, Flow.done_andThen]
      refine ih (by omega) fun j hj => ?_
      have := h (j + 1) (by simpa using hj)
      simpa [Nat.add_assoc, Nat.add_comm 1] using this
    · rw [emit_reject d ha]
      rfl

/-- A cell that holds ⊥ stops the model when its turn comes, if the draws before it are accepted. -/
theorem emitCells_unwritten {i k n : Nat} {s : State} (hb : i + n ≤ 127) (hk : k < n) (ha : s.accepts k)
    (h : Memory.read s.enc.blockBuffer (i + k) = none) : emitCells i n s = .stop .modelUnwrittenRead := by
  induction n generalizing i k s with
  | zero => omega
  | succ n ih =>
    have hi : i < Config.bufCap := show i < 127 by omega
    rw [emitCells, memRead, if_pos hi]
    cases hr : Memory.read s.enc.blockBuffer i with
    | none => rfl
    | some b =>
      cases k with
      | zero => simp [hr] at h
      | succ k =>
        rw [reading_some, emit_accept b (ha 0 (Nat.succ_pos k)), Flow.done_andThen]
        refine ih (k := k) (by omega) (by omega) (fun j hj => ?_) ?_
        · simpa [Nat.add_comm] using ha (j + 1) (by omega)
        · simpa [Nat.add_assoc, Nat.add_comm 1] using h

theorem writeLit_unwritten {n k : Nat} {s : State} (hn : n ≤ 127) (hk : k < n) (ha : s.accepts (k + 1))
    (h : Memory.read s.enc.blockBuffer k = none) : writeLit n s = .stop .modelUnwrittenRead := by
  simp only [writeLit, statusByte, encodeStatus_of_bounds (show 1 ≤ n by omega) hn]
  rw [emit_accept _ (ha 0 (Nat.succ_pos k)), Flow.done_andThen]
  refine emitCells_unwritten (k := k) (by omega) hk (fun j hj => ?_) (by simpa using h)
  simpa [Nat.add_comm] using ha (j + 1) (by omega)

theorem writeLit_eq_emitAll {ds : List Byte} {s : State} (h1 : 1 ≤ ds.length) (h2 : ds.length ≤ 127)
    (h : CellsHold s.enc.blockBuffer ds) : writeLit ds.length s = emitAll (Record.lit ds).bytes s := by
  simp only [writeLit, statusByte, encodeStatus_of_bounds h1 h2, Record.bytes, emitAll]
  rcases s.answer_cases 0 with ha | ha
  · rw [emit_accept _ ha, Flow.done_andThen, Flow.done_andThen]
    exact emitCells_eq_emitAll (by omega) fun j hj => by simpa using h j hj
  · rw [emit_reject _ ha]
    rfl

end Sys2Proof.Machine
end

