-- ==== Sys2Proof/Laws/Commands.lean ====
section
/-! SUPPORT. The commands: which pseudocode each instruction runs, what a command that emits comes to, and what each
case of the engines is on a state that meets its conditions. -/

namespace Sys2Proof.Machine

/-! ### Runs -/

/-- A run whose first step goes on is the rest of the run from there. -/
theorem core_run_succ {s t : State} (k : Nat) (h : step s = .next t) :
    Sys2Proof.core.run (k + 1) s = Sys2Proof.core.run k t := by
  have h' : Sys2Proof.core.step s = .next t := h
  simp only [Host.Core.run, h']

/-! ### Instructions on their own rows -/

theorem exec_encByte {s : State} (b : Byte) (ha : s.sess = .active) (hm : s.smode = .compress) :
    exec (.encByte b) s = finish (encByte b s) := if_pos ⟨ha, hm⟩

theorem exec_encFin {s : State} (ha : s.sess = .active) (hm : s.smode = .compress) :
    exec .encFin s = finish (encFin s) := if_pos ⟨ha, hm⟩

theorem exec_decByte {s : State} (b : Byte) (ha : s.sess = .active) (hm : s.smode = .decompress) :
    exec (.decByte b) s = finish (decByte b s) := if_pos ⟨ha, hm⟩

theorem exec_decFin {s : State} (ha : s.sess = .active) (hm : s.smode = .decompress) :
    exec .decFin s = finish (decFin s) := if_pos ⟨ha, hm⟩

theorem streamRow_on {s : State} {p : Phase} (b : Byte) (body : State → Flow) (ha : s.sess = .active)
    (hm : s.smode = .decompress) (hp : s.dec.phase = some p) : streamRow p b body s = finish (body s) :=
  if_pos ⟨ha, hm, hp⟩

/-! ### Commands that emit -/

/-- Fault entry does not see what the engine registers held. -/
theorem faultEntry_with_enc (k : FaultKind) (s : State) (e : EncRegs) : faultEntry k { s with enc := e } = faultEntry k s :=
  rfl

theorem faultEntry_with_dec (k : FaultKind) (s : State) (d : DecRegs) : faultEntry k { s with dec := d } = faultEntry k s :=
  rfl

/-- A command that writes encoder registers, emits `bs` and goes on without another draw. -/
theorem offers_of_emitAll_enc {i : Instr} {s : State} {bs : List Byte} {k : State → Flow} {after : State} (e : EncRegs)
    (h : exec i s = finish ((emitAll bs { s with enc := e }).andThen k))
    (hk : k (({ s with enc := e }.drawn bs.length).emitted bs) = .done after) : Offers i s bs bs.length after := by
  refine ⟨fun ha => ?_, fun j hj ha hr => ?_⟩
  · have ha' : State.accepts { s with enc := e } bs.length := ha
    rw [h, emitAll_accept ha', Flow.done_andThen, hk, finish_done]
  · have ha' : State.accepts { s with enc := e } j := ha
    have hr' : State.answer { s with enc := e } j = .reject := hr
    rw [h, emitAll_reject hj ha' hr', Flow.raised_andThen, finish_raised]
    rfl

/-- A command that emits `bs` and goes on without another draw. -/
theorem offers_of_emitAll {i : Instr} {s : State} {bs : List Byte} {k : State → Flow} {after : State}
    (h : exec i s = finish ((emitAll bs s).andThen k))
    (hk : k ((s.drawn bs.length).emitted bs) = .done after) : Offers i s bs bs.length after :=
  offers_of_emitAll_enc s.enc h hk

/-- A command that emits `bs`, flushes the sink, and goes on without another draw. -/
theorem offers_of_emitAll_flush {i : Instr} {s : State} {bs : List Byte} {k : State → Flow} {after : State}
    (h : exec i s = finish ((emitAll bs s).andThen fun s => (sinkFlush s).andThen k))
    (hk : k ((s.drawn (bs.length + 1)).emitted bs) = .done after) : Offers i s bs (bs.length + 1) after := by
  refine ⟨fun ha => ?_, fun j hj ha hr => ?_⟩
  · have hf : ((s.drawn bs.length).emitted bs).answer 0 = .accept := by simpa using ha bs.length (Nat.lt_succ_self _)
    rw [h, emitAll_accept fun i hi => ha i (Nat.lt_succ_of_lt hi), Flow.done_andThen, sinkFlush_accept hf,
      Flow.done_andThen, State.emitted_drawn, State.drawn_drawn, hk, finish_done]
  · rcases Nat.lt_succ_iff_lt_or_eq.mp hj with hj | rfl
    · rw [h, emitAll_reject hj ha hr, Flow.raised_andThen, finish_raised]
    · have hf : ((s.drawn bs.length).emitted bs).answer 0 = .reject := by simpa using hr
      rw [h, emitAll_accept ha, Flow.done_andThen, sinkFlush_reject hf, Flow.raised_andThen, finish_raised,
        State.emitted_drawn, State.drawn_drawn, List.take_length]

/-- Either every draw of a command is accepted, or WRITE_FAULT is raised at the first rejected one. -/
theorem Offers.cases {i : Instr} {s after : State} {bs : List Byte} {draws : Nat} (h : Offers i s bs draws after) :
    exec i s = .next after ∨
    ∃ j < draws, exec i s = .next (faultEntry .writeFault ((s.drawn (j + 1)).emitted (bs.take j))) := by
  rcases s.accepts_or_first_reject draws with ha | ⟨j, hj, ha, hr⟩
  · exact .inl (h.1 ha)
  · exact .inr ⟨j, hj, h.2 j hj ha hr⟩

/-! ### Counters -/

theorem increment_of_lt {n : Count} (k : Count → Flow) (h : n.toNat < 127) : increment n k = k (n + 1#7) :=
  if_pos h

theorem decrement_of_pos {n : Count} (k : Count → Flow) (h : 0 < n.toNat) : decrement n k = k (n - 1#7) :=
  if_pos h

theorem Count.toNat_succ {n : Count} (h : n.toNat < 127) : (n + 1#7).toNat = n.toNat + 1 := by
  simp [BitVec.toNat_add]
  omega

theorem Count.toNat_pred {n : Count} (h : 0 < n.toNat) : (n - 1#7).toNat = n.toNat - 1 := by
  have := n.isLt
  simp [BitVec.toNat_sub]
  omega

/-! ### The encoder -/

/-- Where the encoder's mode and count are at rest, both are read. -/
theorem readingEncoder_some {s : State} {mode : EncMode} {n : Count} (k : EncMode → Count → Flow)
    (hm : s.enc.mode = some mode) (hn : s.enc.runCount = some n) (h : restingCount mode n = true) :
    readingEncoder s k = k mode n := by
  simp [readingEncoder, hm, hn, h]

theorem memWrite_of_lt {i : Nat} (v : Byte) (s : State) (h : i < 127) : memWrite i v s = .done (s.setCell i v) :=
  if_pos h

/-- ENC.BYTE in ACCUMULATING, at rest. -/
theorem encByte_accumulating {s : State} {n : Count} (b : Byte) (hm : s.enc.mode = some .accumulating)
    (hn : s.enc.runCount = some n) (h : n.toNat ≤ 126) : encByte b s = encAccumulating b n s := by
  rw [encByte, readingEncoder_some _ hm hn (by simpa [restingCount] using h)]

/-- ENC.BYTE in REPEATING, at rest. -/
theorem encByte_repeating {s : State} {n : Count} (b : Byte) (hm : s.enc.mode = some .repeating)
    (hn : s.enc.runCount = some n) (h2 : 2 ≤ n.toNat) (h : n.toNat ≤ 126) : encByte b s = encRepeating b n s := by
  rw [encByte, readingEncoder_some _ hm hn (by simp [restingCount, h2, h])]

/-! ### The decoder -/

theorem decByte_awaiting {s : State} (b : Byte) (hp : s.dec.phase = some .awaitingStatus) :
    decByte b s = decStatus b s := by
  simp [decByte, hp]

theorem decByte_runByte {s : State} (b : Byte) (hp : s.dec.phase = some .readingRunByte) :
    decByte b s = decRunByte b s := by
  simp [decByte, hp]

theorem decByte_blockByte {s : State} (b : Byte) (hp : s.dec.phase = some .readingBlockBytes) :
    decByte b s = decBlockByte b s := by
  simp [decByte, hp]

theorem readingRemaining_some {s : State} {n : Count} (k : Count → Flow) (hr : s.dec.remaining = some n)
    (h : 1 ≤ n.toNat) : readingRemaining s k = k n := by
  have h0 : ¬ n = 0#7 := by
    rintro rfl
    simp at h
  rw [readingRemaining, hr, reading_some, if_neg h0]

end Sys2Proof.Machine
end

