-- ==== Sys2Proof/Laws/PerInstr.lean ====
section
/-! SUPPORT. The statements made of every instruction, with one lemma per constructor: what the encoder writes lies on
the instruction's own row of spec/opcode_table.json. -/

namespace Sys2Proof.Laws.OpcodeRow

/-- What the opcode table says of the words of a row: the fixed bits, the least and the greatest word, and whether they
are illegal words (R52). -/
structure Row where
  mask    : Nat
  pattern : Nat
  first   : Nat
  last    : Nat
  illegal : Bool
  deriving DecidableEq, Repr

/-- The row of the table, copied from its `mask`, `match`, `encoding` and `words`. -/
def rowOf : Instr → Row
  | .initC => ⟨0x3FF, 0x000, 0x000, 0x000, false⟩
  | .initD => ⟨0x3FF, 0x001, 0x001, 0x001, false⟩
  | .encByte _ => ⟨0x300, 0x100, 0x100, 0x1FF, false⟩
  | .decByte _ => ⟨0x300, 0x100, 0x100, 0x1FF, false⟩
  | .encFin => ⟨0x3FF, 0x200, 0x200, 0x200, false⟩
  | .decFin => ⟨0x3FF, 0x200, 0x200, 0x200, false⟩
  | .srcfault => ⟨0x3FF, 0x300, 0x300, 0x300, false⟩
  | .outsideSession _ => ⟨0x000, 0x000, 0x100, 0x300, false⟩
  | .illegalInit _ => ⟨0x300, 0x000, 0x002, 0x0FF, true⟩
  | .illegalFin _ => ⟨0x300, 0x200, 0x201, 0x2FF, true⟩
  | .illegalSrcfault _ => ⟨0x300, 0x300, 0x301, 0x3FF, true⟩
  | .stNop0 => ⟨0xFF, 0x00, 0x00, 0x00, false⟩
  | .stNop80 => ⟨0xFF, 0x80, 0x80, 0x80, false⟩
  | .stLit _ => ⟨0x80, 0x00, 0x01, 0x7F, false⟩
  | .stRun _ => ⟨0x80, 0x80, 0x81, 0xFF, false⟩
  | .payloadRun _ => ⟨0x00, 0x00, 0x00, 0xFF, false⟩
  | .payloadLit _ => ⟨0x00, 0x00, 0x00, 0xFF, false⟩

/-- The instruction's bits as the table numbers them: its stream byte, or its command word. -/
def tableBits (i : Instr) : Nat :=
  match streamByte i with
  | some b => b.toNat
  | none => (encode i).toNat

/-- The encoder's bits for a well-formed instruction are a word of the instruction's row. -/
def Statement (i : Instr) : Prop :=
  i.wf = true →
    tableBits i &&& (rowOf i).mask = (rowOf i).pattern ∧
    (rowOf i).first ≤ tableBits i ∧ tableBits i ≤ (rowOf i).last ∧
    illegalWord (encode i) = (rowOf i).illegal

theorem initC : Statement .initC := by unfold Statement; decide
theorem initD : Statement .initD := by unfold Statement; decide
theorem encByte (b : Byte) : Statement (.encByte b) := by unfold Statement; revert b; decide
theorem decByte (b : Byte) : Statement (.decByte b) := encByte b
theorem encFin : Statement .encFin := by unfold Statement; decide
theorem decFin : Statement .decFin := encFin
theorem srcfault : Statement .srcfault := by unfold Statement; decide
theorem outsideSession (c : SessionCommand) : Statement (.outsideSession c) := by
  unfold Statement
  cases c with
  | byte b => revert b; decide
  | fin => decide
  | srcfault => decide
theorem illegalInit (data : Byte) : Statement (.illegalInit data) := by unfold Statement; revert data; decide
theorem illegalFin (data : Byte) : Statement (.illegalFin data) := by unfold Statement; revert data; decide
theorem illegalSrcfault (data : Byte) : Statement (.illegalSrcfault data) := by unfold Statement; revert data; decide
theorem stNop0 : Statement .stNop0 := by unfold Statement; decide
theorem stNop80 : Statement .stNop80 := by unfold Statement; decide
theorem stLit (len : Count) : Statement (.stLit len) := by unfold Statement; revert len; decide
theorem stRun (len : Count) : Statement (.stRun len) := by unfold Statement; revert len; decide
theorem payloadRun (c : Byte) : Statement (.payloadRun c) := by unfold Statement; revert c; decide
theorem payloadLit (d : Byte) : Statement (.payloadLit d) := payloadRun d

end Sys2Proof.Laws.OpcodeRow
end

