-- ==== Sys2Proof/Tests/Slice0.lean ====
section
/-! SUPPORT. Tests: well-formedness, decoding by words written out from the spec's encodings, single steps with the
results of spec/95_test_vectors.md, and a witness for the hypotheses of every statement. -/

namespace Sys2Proof.Tests

open Sys2Proof Sys2Proof.Machine

/-! ### Well-formedness: the smoke test -/

theorem test_wf_illegalInit_0_refused : (Instr.illegalInit 0x00).wf = false := by decide
theorem test_wf_illegalInit_1_refused : (Instr.illegalInit 0x01).wf = false := by decide
theorem test_wf_illegalInit_2_accepted : (Instr.illegalInit 0x02).wf = true := by decide
theorem test_wf_illegalFin_0_refused : (Instr.illegalFin 0x00).wf = false := by decide
theorem test_wf_illegalSrcfault_0_refused : (Instr.illegalSrcfault 0x00).wf = false := by decide
theorem test_wf_stLit_0_refused : (Instr.stLit 0).wf = false := by decide
theorem test_wf_stRun_0_refused : (Instr.stRun 0).wf = false := by decide
theorem test_wf_stRun_1_accepted : (Instr.stRun 1).wf = true := by decide

/-! ### Decoding: words written out bit by bit from the `encoding` column of the opcode table -/

theorem test_decode_initC : decode .faulted .compress 0b0000000000#10 = .initC := by decide
theorem test_decode_initD : decode .active .compress 0b0000000001#10 = .initD := by decide
theorem test_decode_encByte : decode .active .compress 0b0110000001#10 = .encByte 0x81 := by decide
theorem test_decode_decByte : decode .active .decompress 0b0110000001#10 = .decByte 0x81 := by decide
theorem test_decode_encFin : decode .active .compress 0b1000000000#10 = .encFin := by decide
theorem test_decode_decFin : decode .active .decompress 0b1000000000#10 = .decFin := by decide
theorem test_decode_srcfault : decode .active .decompress 0b1100000000#10 = .srcfault := by decide
theorem test_decode_byte_outside : decode .idle .compress 0b0100000001#10 = .outsideSession (.byte 0x01) := by decide
theorem test_decode_fin_outside : decode .done .decompress 0b1000000000#10 = .outsideSession .fin := by decide
theorem test_decode_srcfault_outside : decode .faulted .compress 0b1100000000#10 = .outsideSession .srcfault := by decide
theorem test_decode_illegalInit : decode .active .compress 0b0010000001#10 = .illegalInit 0x81 := by decide
theorem test_decode_illegalFin : decode .active .compress 0b1000000001#10 = .illegalFin 0x01 := by decide
theorem test_decode_illegalSrcfault : decode .active .compress 0b1110000000#10 = .illegalSrcfault 0x80 := by decide
theorem test_decode_stNop0 : decodeStream .awaitingStatus 0b00000000#8 = .stNop0 := by decide
theorem test_decode_stNop80 : decodeStream .awaitingStatus 0b10000000#8 = .stNop80 := by decide
theorem test_decode_stLit : decodeStream .awaitingStatus 0b01111111#8 = .stLit 127 := by decide
theorem test_decode_stRun : decodeStream .awaitingStatus 0b10000001#8 = .stRun 1 := by decide
theorem test_decode_payloadRun : decodeStream .readingRunByte 0b10000000#8 = .payloadRun 0x80 := by decide
theorem test_decode_payloadLit : decodeStream .readingBlockBytes 0b00000000#8 = .payloadLit 0x00 := by decide

/-- Bytes that are no command word are rejected by name. -/
theorem test_decodeBytes_short : decodeBytes .active .compress [0x00] = .error .notOneWord := rfl
theorem test_decodeBytes_eleven_bits : decodeBytes .active .compress [0x00, 0x04] = .error .beyondTenBits := rfl
theorem test_decodeBytes_srcfault : decodeBytes .active .compress [0x00, 0x03] = .ok .srcfault := rfl

theorem test_tableWord_encByte : decodeTableWord 10 0x1FF = some (.encByte 0xFF) := by decide
theorem test_tableWord_stRun : decodeTableWord 8 0xC9 = some (.stRun 73) := by decide
theorem test_tableWord_beyond : decodeTableWord 16 0x400 = none := by decide

/-- V-W5, V-W6, V-W15. -/
theorem test_encodeStatus_run : encodeStatus .runLength 73 = some 0xC9 := by decide
theorem test_decodeStatus_run : decodeStatus 0xFF = (.runLength, 127) := by decide

/-! ### Small states -/

/-- `n` answers that accept. -/
def yes (n : Nat) : List SinkAnswer := List.replicate n .accept

/-- The ascending bytes `lo` to `lo + n - 1`. -/
def bytesFrom (lo n : Nat) : List Byte := (List.range n).map fun i => BitVec.ofNat 8 (lo + i)

/-- A buffer that holds these bytes from cell `k` on. -/
def cellsFrom (k : Nat) : List Byte → Memory
  | [] => []
  | b :: bs => (k, b) :: cellsFrom (k + 1) bs

/-- A buffer that holds these bytes from cell 0 on. -/
def cells (bs : List Byte) : Memory := cellsFrom 0 bs

/-- A state with this session, as INIT leaves the rest. -/
def at_ (sess : Sess) (smode : SMode) (answers : List SinkAnswer) : State :=
  { State.reset with sess := sess, smode := smode, port := { pending := [], answers := answers, draws := 0 } }

/-- An ACTIVE COMPRESS state. -/
def enc (mode : EncMode) (rc : Count) (pb : Byte) (bs : List Byte) (answers : List SinkAnswer) : State :=
  { at_ .active .compress answers with
    enc := { mode := some mode, pendingByte := some pb, runCount := some rc, blockBuffer := cells bs } }

/-- An ACTIVE DECOMPRESS state. -/
def dec (phase : Phase) (remaining : Count) (answers : List SinkAnswer) : State :=
  { at_ .active .decompress answers with dec := { phase := some phase, remaining := some remaining } }

/-- A FAULTED state. -/
def faulted : State := faultEntry .truncatedStream (at_ .idle .compress [])

/-- A DONE state whose session put out these bytes. -/
def finished (out : List Byte) : State := sessionDone { at_ .active .compress [] with out := out }

/-- The outcome is a next state with this property. -/
def answers (o : Host.Outcome State Fault Refusal) (p : State → Bool) : Bool :=
  match o with
  | .next t => p t
  | .fault _ => false
  | .refused _ => false

theorem next_of_answers {o : Host.Outcome State Fault Refusal} {p : State → Bool} (h : answers o p = true) :
    ∃ t, o = .next t ∧ p t = true := by
  cases o with
  | next t => exact ⟨t, rfl, h⟩
  | fault f => cases h
  | refused r => cases h

/-! ### Single steps: the vectors of 95_test_vectors.md -/

/-- After reset every register holds a value (log entry 13). -/
theorem test_reset_cells : Memory.wf State.reset.enc.blockBuffer = true ∧
    ∀ i < 127, (Memory.read State.reset.enc.blockBuffer i).isSome = true :=
  ⟨Memory.wf_zeros, fun _ h => by rw [show State.reset.enc.blockBuffer = Memory.zeros from rfl, Memory.read_zeros h]; rfl⟩

/-- INIT.C from FAULTED: rules R85 and R90. -/
theorem test_initC : answers (exec .initC faulted) (fun t =>
    t.sess = .active ∧ t.smode = .compress ∧ t.err = none ∧ t.enc = .fresh ∧ t.dec = .fresh) = true := by decide

/-- V-S25: INIT.D in an ACTIVE compress session leaves `out = []`. -/
theorem test_initD : answers (exec .initD (enc .accumulating 2 0x02 [0x01, 0x02] [])) (fun t =>
    t.sess = .active ∧ t.smode = .decompress ∧ t.out = [] ∧ t.enc = .fresh) = true := by decide

/-- V-ES3: ACC_PAIR. -/
theorem test_encByte_pair : answers (exec (.encByte 0x03) (enc .accumulating 3 0x03 [0x01, 0x02, 0x03] (yes 3))) (fun t =>
    t.out = [0x02, 0x01, 0x02] ∧ t.enc.mode = some .repeating ∧ t.enc.runCount = some 2 ∧
    t.enc.pendingByte = some 0x03) = true := by decide

/-- V-ES11: REP_BREAK. -/
theorem test_encByte_break : answers (exec (.encByte 0x42) (enc .repeating 126 0x41 [] (yes 2))) (fun t =>
    t.out = [0xFE, 0x41] ∧ t.enc.mode = some .accumulating ∧ t.enc.runCount = some 1 ∧
    Memory.read t.enc.blockBuffer 0 = some 0x42 ∧ t.enc.pendingByte = some 0x42) = true := by decide

/-- V-ES15: the largest burst of a FIN, and its flush. -/
theorem test_encFin_literal : answers (exec .encFin (enc .accumulating 126 0x7E (bytesFrom 1 126) (yes 128))) (fun t =>
    t.out = 0x7E :: bytesFrom 1 126 ∧ t.sess = .done ∧ t.exitCode = some 0 ∧ t.port.draws = 128) = true := by decide +kernel

/-- V-S16: the content byte of the final run is rejected. -/
theorem test_encFin_reject : answers (exec .encFin (enc .repeating 2 0x05 [] [.accept, .reject])) (fun t =>
    t.out = [0x82] ∧ t.sess = .faulted ∧ t.exitCode = some 2) = true := by decide

/-- V-DS9: the largest burst of a decoder command. -/
theorem test_decByte_run : answers (exec (.decByte 0x00) (dec .readingRunByte 127 (yes 127))) (fun t =>
    t.out = List.replicate 127 0x00 ∧ t.dec.phase = some .awaitingStatus) = true := by decide +kernel

/-- V-DS11: a payload byte 0x80 is no status byte. -/
theorem test_decByte_block : answers (exec (.decByte 0x80) (dec .readingBlockBytes 3 (yes 1))) (fun t =>
    t.out = [0x80] ∧ t.dec.phase = some .readingBlockBytes ∧ t.dec.remaining = some 2) = true := by decide

/-- V-S20: FIN inside a record raises TRUNCATED_STREAM before its flush draws. -/
theorem test_decFin_truncated : answers (exec .decFin (dec .readingRunByte 2 [.reject])) (fun t =>
    t.sess = .faulted ∧ t.exitCode = some 3 ∧ t.port.draws = 0) = true := by decide

theorem test_decFin_done : answers (exec .decFin (dec .awaitingStatus 0 (yes 1))) (fun t =>
    t.sess = .done ∧ t.exitCode = some 0 ∧ t.port.draws = 1) = true := by decide

/-- V-S7: SRCFAULT in a decompress session. -/
theorem test_srcfault : answers (exec .srcfault (dec .readingRunByte 2 [])) (fun t =>
    t.sess = .faulted ∧ t.exitCode = some 1 ∧ t.out = []) = true := by decide

/-- V-S5: BYTE in DONE; `out` keeps the finished session's bytes. -/
theorem test_outsideSession_done : answers (exec (.outsideSession (.byte 0x02)) (finished [0x01, 0x01])) (fun t =>
    t.sess = .faulted ∧ t.exitCode = some 4 ∧ t.out = [0x01, 0x01]) = true := by decide

/-- V-S23: ignored in FAULTED. -/
theorem test_outsideSession_faulted : answers (exec (.outsideSession .fin) faulted) (fun t => t = faulted) = true := by
  decide

/-- V-S12, V-S9, V-S10. -/
theorem test_illegalInit : answers (exec (.illegalInit 0xFF) (enc .accumulating 0 0x00 [] [])) (fun t =>
    t.sess = .faulted ∧ t.exitCode = some 4) = true := by decide
theorem test_illegalFin : answers (exec (.illegalFin 0x01) (enc .accumulating 0 0x00 [] [])) (fun t =>
    t.sess = .faulted ∧ t.exitCode = some 4) = true := by decide
theorem test_illegalSrcfault : answers (exec (.illegalSrcfault 0xFF) (at_ .idle .compress [])) (fun t =>
    t.sess = .faulted ∧ t.exitCode = some 4) = true := by decide

/-- V-DS6, V-DS7. -/
theorem test_stNop0 : answers (exec .stNop0 (dec .awaitingStatus 0 [])) (fun t => t = dec .awaitingStatus 0 []) = true := by
  decide
theorem test_stNop80 : answers (exec .stNop80 (dec .awaitingStatus 0 [])) (fun t => t = dec .awaitingStatus 0 []) = true := by
  decide

/-- V-DS1, V-DS4. -/
theorem test_stLit : answers (exec (.stLit 3) (dec .awaitingStatus 0 [])) (fun t =>
    t.dec = { phase := some .readingBlockBytes, remaining := some 3 } ∧ t.out = []) = true := by decide
theorem test_stRun : answers (exec (.stRun 73) (dec .awaitingStatus 0 [])) (fun t =>
    t.dec = { phase := some .readingRunByte, remaining := some 73 } ∧ t.out = []) = true := by decide

/-- V-DS10, V-DS12. -/
theorem test_payloadRun : answers (exec (.payloadRun 0x80) (dec .readingRunByte 1 (yes 1))) (fun t =>
    t.out = [0x80] ∧ t.dec.phase = some .awaitingStatus) = true := by decide
theorem test_payloadLit : answers (exec (.payloadLit 0x09) (dec .readingBlockBytes 1 (yes 1))) (fun t =>
    t.out = [0x09] ∧ t.dec.phase = some .awaitingStatus) = true := by decide

/-- A reset event between two commands (R108), and a step with nothing on the port (log entry 3). -/
theorem test_step_reset : answers (step ((dec .readingRunByte 2 []).setPending [.reset])) (fun t =>
    t.sess = .idle ∧ t.smode = .compress ∧ t.dec = .fresh ∧ t.port.pending = []) = true := by decide
theorem test_step_idle : answers (step (at_ .idle .compress [])) (fun t => t = at_ .idle .compress []) = true := by decide

/-- The word placed for the host is the next instruction, from reset. -/
theorem test_fetch_encByte : answers (step (State.reset.withFetchWord 10 0x141)) (fun t =>
    t.smode = .compress ∧ t.enc.runCount = some 1 ∧ t.enc.pendingByte = some 0x41) = true := by decide
theorem test_fetch_stLit : answers (step (State.reset.withFetchWord 8 0x03)) (fun t =>
    t.smode = .decompress ∧ t.dec = { phase := some .readingBlockBytes, remaining := some 3 }) = true := by decide
theorem test_fetch_illegal : answers (step (State.reset.withFetchWord 10 0x201)) (fun t => t.exitCode = some 4) = true := by
  decide

/-! ### Witnesses: a concrete input that meets the hypotheses of each statement, at the ends of its ranges

Each theorem is named after its statement. A clause about the sink has one state whose draws are all accepted and one
whose draw `j` is the first rejected. -/

/-- In `s` every one of the draws is accepted; in `s'` draw `j` is the first to be rejected. -/
abbrev BothAnswers (s s' : State) (draws j : Nat) : Prop :=
  s.accepts draws ∧ j < draws ∧ s'.accepts j ∧ s'.answer j = .reject

theorem read_cellsFrom (bs : List Byte) (k i : Nat) : Memory.read (cellsFrom k bs) (k + i) = bs[i]? := by
  induction bs generalizing k i with
  | nil => rfl
  | cons b bs ih =>
    cases i with
    | zero => simp [cellsFrom, Memory.read]
    | succ i =>
      have := ih (k + 1) i
      simpa [cellsFrom, Memory.read, Nat.add_assoc, Nat.add_comm 1] using this

theorem cellsHold_cells (bs : List Byte) : CellsHold (cells bs) bs := fun i _ => by
  simpa [cells] using read_cellsFrom bs 0 i

/-- A buffer holds every shorter beginning of its bytes. -/
theorem cellsHold_take (bs : List Byte) (n : Nat) : CellsHold (cells bs) (bs.take n) := fun i hi => by
  rw [show Memory.read (cells bs) i = bs[i]? by simpa [cells] using read_cellsFrom bs 0 i,
    List.getElem?_take_of_lt (by simp at hi; omega)]

theorem accepts_yes {s : State} (n : Nat) (rest : List SinkAnswer) (h : s.port.answers = yes n ++ rest) :
    s.accepts n := fun i hi => by
  have hi' : (yes n ++ rest)[i]? = some .accept := by
    rw [List.getElem?_append_left (by simpa [yes] using hi)]
    simp [yes, hi]
  simp [State.answer, h, hi']

theorem answer_after_yes {s : State} (n : Nat) (a : SinkAnswer) (rest : List SinkAnswer)
    (h : s.port.answers = yes n ++ a :: rest) : s.answer n = a := by
  simp [State.answer, h, yes]

/-- `n + 1` draws accepted in `s`, and in `s'` the last of them rejected. -/
theorem bothAnswers_last {s s' : State} (n : Nat) (h : s.port.answers = yes (n + 1))
    (h' : s'.port.answers = yes n ++ [.reject]) : BothAnswers s s' (n + 1) n :=
  ⟨accepts_yes (n + 1) [] (by simpa using h), Nat.lt_succ_self n, accepts_yes n [.reject] h', answer_after_yes n _ _ h'⟩

theorem witness_IllegalWordsFault :
    (∀ w ∈ [0x002#10, 0x0FF#10, 0x201#10, 0x2FF#10, 0x301#10, 0x3FF#10],
      0x002 ≤ w.toNat ∧ w.toNat ≤ 0x0FF ∨ 0x201 ≤ w.toNat ∧ w.toNat ≤ 0x2FF ∨ 0x301 ≤ w.toNat ∧ w.toNat ≤ 0x3FF) ∧
    (∀ w ∈ [0x000#10, 0x001#10, 0x100#10, 0x1FF#10, 0x200#10, 0x300#10],
      w.toNat < 0x002 ∨ 0x100 ≤ w.toNat ∧ w.toNat ≤ 0x200 ∨ w.toNat = 0x300) := by decide

theorem witness_IllegalRowsRaiseIllegalCommand :
    State.reset.sess ≠ .faulted ∧ (finished []).sess ≠ .faulted ∧ (dec .awaitingStatus 0 []).sess ≠ .faulted ∧
    (∀ data ∈ [0x02#8, 0xFF#8], 2 ≤ data.toNat) ∧ (∀ data ∈ [0x01#8, 0xFF#8], data ≠ 0#8) := by decide

theorem witness_StatusByteClasses :
    (∀ b ∈ [0x01#8, 0x7F#8], 0x01 ≤ b.toNat ∧ b.toNat ≤ 0x7F) ∧
    (∀ b ∈ [0x81#8, 0xFF#8], 0x81 ≤ b.toNat ∧ b.toNat ≤ 0xFF) := by decide

theorem witness_DecodeOfEncode :
    (∀ i ∈ [Instr.initC, .initD, .illegalInit 0x02, .illegalFin 0xFF, .illegalSrcfault 0x01],
      i.wf = true ∧ i.selectedIn .faulted .decompress = true) ∧
    (∀ i ∈ [Instr.encByte 0xFF, .encFin, .srcfault], i.wf = true ∧ i.selectedIn .active .compress = true) ∧
    (∀ i ∈ [Instr.decByte 0x00, .decFin], i.wf = true ∧ i.selectedIn .active .decompress = true) ∧
    (∀ i ∈ [Instr.outsideSession (.byte 0xFF), .outsideSession .fin, .outsideSession .srcfault],
      i.wf = true ∧ i.selectedIn .done .compress = true) ∧
    (∀ i ∈ [Instr.stNop0, .stNop80, .stLit 1, .stLit 127, .stRun 1, .stRun 127],
      i.wf = true ∧ i.selectedAt .awaitingStatus = true ∧ (streamByte i).isSome = true) ∧
    (Instr.payloadRun 0xFF).selectedAt .readingRunByte = true ∧
    (Instr.payloadLit 0x80).selectedAt .readingBlockBytes = true := by decide

theorem witness_EncodeStatusFormula :
    (∀ len ∈ [1, 127], 1 ≤ len ∧ len ≤ 127) ∧ (∀ len ∈ [0, 128], ¬ (1 ≤ len ∧ len ≤ 127)) := by decide

theorem witness_StatusRoundTrip :
    encodeStatus .literal 1 = some 0x01 ∧ encodeStatus .literal 127 = some 0x7F ∧
    encodeStatus .runLength 1 = some 0x81 ∧ encodeStatus .runLength 127 = some 0xFF := by decide

theorem witness_RecordLengthFromStatusByte :
    (∀ r ∈ [Record.run 1 0x41, .run 127 0x41, .lit [0x41]], r.bounded = true) ∧
    (Record.lit (bytesFrom 1 127)).bounded = true := by decide +kernel

theorem witness_EmitOffersOneByte :
    BothAnswers (at_ .active .compress [.accept]) (at_ .active .compress [.reject]) 1 0 := by decide

theorem witness_SinkFlushChangesNoRegister :
    BothAnswers (at_ .active .compress [.accept]) (at_ .active .compress [.reject]) 1 0 := by decide

theorem witness_WriteRunFramesARun :
    (∀ n ∈ [1, 127], 1 ≤ n ∧ n ≤ 127) ∧
    BothAnswers (at_ .active .compress (yes 2)) (at_ .active .compress [.reject]) 2 0 ∧
    BothAnswers (at_ .active .compress (yes 2)) (at_ .active .compress [.accept, .reject]) 2 1 := by decide

theorem witness_WriteLitFramesTheBuffer_one :
    let s := enc .accumulating 1 0x41 [0x41] (yes 2)
    CellsHold s.enc.blockBuffer [0x41] ∧
    BothAnswers s (enc .accumulating 1 0x41 [0x41] [.reject]) 2 0 ∧
    BothAnswers s (enc .accumulating 1 0x41 [0x41] [.accept, .reject]) 2 1 := by decide

theorem witness_WriteLitFramesTheBuffer_127 :
    let s := enc .accumulating 127 0x7F (bytesFrom 1 127) (yes 128)
    (bytesFrom 1 127).length = 127 ∧ CellsHold s.enc.blockBuffer (bytesFrom 1 127) ∧
    BothAnswers s (enc .accumulating 127 0x7F (bytesFrom 1 127) (yes 127 ++ [.reject])) 128 127 :=
  ⟨rfl, cellsHold_cells _, bothAnswers_last 127 rfl rfl⟩

theorem witness_HardwareResetSetsEveryRegister :
    ((dec .readingRunByte 2 []).setPending [.reset]).port.pending = [.reset] ∧
    (dec .readingRunByte 2 []).sess = .active ∧
    (faulted.setPending [.reset, .command finWord]).port.pending = [.reset, .command finWord] ∧
    faulted.sess ≠ .active := by decide

theorem witness_InitStartsASession :
    (Instr.initC = .initC ∧ SMode.compress = .compress) ∧ (Instr.initD = .initD ∧ SMode.decompress = .decompress) ∧
    (enc .repeating 2 0x05 [] []).sess = .active ∧ faulted.sess ≠ .active := by decide

theorem witness_SrcfaultRaisesReadFault :
    (enc .accumulating 0 0x00 [] []).sess = .active ∧ (dec .readingRunByte 2 []).sess = .active := by decide

theorem witness_CommandsOutsideASessionFault : State.reset.sess = .idle ∧ (finished [0x01, 0x01]).sess = .done := by
  decide

theorem witness_FaultedIgnoresAllButInit :
    faulted.sess = .faulted ∧
    (∀ i ∈ [Instr.encByte 0x00, .decByte 0xFF, .encFin, .decFin, .srcfault, .outsideSession .fin, .illegalInit 0x02,
      .illegalFin 0x01, .illegalSrcfault 0xFF, .stNop0, .stNop80, .stLit 127, .stRun 1, .payloadRun 0, .payloadLit 0],
      i.wf = true ∧ i ≠ .initC ∧ i ≠ .initD) := by decide

/-! #### States that meet the invariant -/

theorem inv_idle : Inv ((at_ .idle .compress []).setPending [.command finWord]) where
  buffer := by decide
  err := by decide
  compress := fun h => by cases h
  decompress := fun h => by cases h
  idle := fun _ => ⟨rfl, rfl, rfl, rfl⟩
  finished := fun h => by cases h
  faulted := fun h => by cases h

theorem inv_faulted (es : List HostEvent) : Inv (faulted.setPending es) where
  buffer := rfl
  err := ⟨fun h => (by cases h), fun h => absurd rfl h⟩
  compress := fun h => by cases h
  decompress := fun h => by cases h
  idle := fun h => by cases h
  finished := fun h => by cases h
  faulted := fun _ => ⟨rfl, rfl⟩

theorem inv_done : Inv (sessionDone (dec .awaitingStatus 0 [])) where
  buffer := by decide
  err := by decide
  compress := fun h => by cases h
  decompress := fun h => by cases h
  idle := fun h => by cases h
  finished := fun _ => ⟨rfl, rfl, rfl, rfl⟩
  faulted := fun h => by cases h

theorem encoderInv_accumulating {rc : Count} {pb : Byte} {bs : List Byte} (h : rc.toNat ≤ 126)
    (hb : ∀ i < rc.toNat, (Memory.read (cells bs) i).isSome = true)
    (hp : 0 < rc.toNat → some pb = Memory.read (cells bs) (rc.toNat - 1)) (answers : List SinkAnswer) :
    EncoderInv (enc .accumulating rc pb bs answers).enc :=
  ⟨_, _, rfl, rfl, h, hb, hp⟩

theorem inv_enc {mode : EncMode} {rc : Count} {pb : Byte} {bs : List Byte} {answers : List SinkAnswer}
    (hb : Memory.wf (cells bs) = true) (h : EncoderInv (enc mode rc pb bs answers).enc) (es : List HostEvent) :
    Inv ((enc mode rc pb bs answers).setPending es) where
  buffer := hb
  err := ⟨fun _ hs => (by cases hs), fun _ => rfl⟩
  compress := fun _ _ => ⟨h, rfl⟩
  decompress := fun _ hm => by cases hm
  idle := fun hs => by cases hs
  finished := fun hs => by cases hs
  faulted := fun hs => by cases hs

theorem inv_dec {p : Phase} {n : Count} {answers : List SinkAnswer} (h : p ≠ .awaitingStatus → 1 ≤ n.toNat)
    (es : List HostEvent) : Inv ((dec p n answers).setPending es) where
  buffer := rfl
  err := ⟨fun _ hs => (by cases hs), fun _ => rfl⟩
  compress := fun _ hm => by cases hm
  decompress := fun _ _ => ⟨⟨_, rfl, fun hp => ⟨_, rfl, h hp⟩⟩, rfl⟩
  idle := fun hs => by cases hs
  finished := fun hs => by cases hs
  faulted := fun hs => by cases hs

/-- A compress session in the middle of a literal block, with a FIN to come. -/
theorem inv_enc_literal : Inv ((enc .accumulating 2 0x02 [0x01, 0x02] (yes 4)).setPending [.command finWord]) :=
  inv_enc (by decide) (encoderInv_accumulating (by decide) (by decide) (by decide) _) _

/-- A compress session in the middle of a run, one byte from its full length. -/
theorem inv_enc_run (es : List HostEvent) : Inv ((enc .repeating 126 0x41 [] (yes 2)).setPending es) :=
  inv_enc rfl ⟨.repeating, 126, rfl, rfl, by decide, by decide, rfl⟩ _

theorem witness_ExitCodeFromSessAndErr :
    (∃ s, Inv s ∧ s.sess = .done) ∧ (∃ s, Inv s ∧ s.sess = .faulted) ∧ (∃ s, Inv s ∧ s.sess = .idle) ∧
    (∃ s, Inv s ∧ s.sess = .active) :=
  ⟨⟨_, inv_done, rfl⟩, ⟨_, inv_faulted [], rfl⟩, ⟨_, inv_idle, rfl⟩, ⟨_, inv_enc_literal, rfl⟩⟩

theorem witness_RegisterCodesAndHostView :
    (finished [0x01]).sess = .done ∧ faulted.sess = .faulted ∧ State.reset.sess = .idle ∧
    (dec .awaitingStatus 0 []).sess = .active := by decide

/-! #### The encoder -/

/-- The hypotheses that the encoder's statements share. -/
abbrev Encoding (s : State) (mode : EncMode) (n : Count) (p : Byte) : Prop :=
  s.sess = .active ∧ s.smode = .compress ∧ s.enc.mode = some mode ∧ s.enc.runCount = some n ∧ s.enc.pendingByte = some p

/-- V-ES2: with one byte in the block there is no literal and no draw. -/
theorem witness_EncBytePairStartsARun_one :
    let s := enc .accumulating 1 0x05 [0x05] []
    Encoding s .accumulating 1 0x05 ∧ CellsHold s.enc.blockBuffer [] ∧ s.accepts 0 := by decide

/-- V-ES4: 125 bytes before the pair. -/
theorem witness_EncBytePairStartsARun_126 :
    let s := enc .accumulating 126 0x7E (bytesFrom 1 126) (yes 126)
    let s' := enc .accumulating 126 0x7E (bytesFrom 1 126) (yes 125 ++ [.reject])
    let ds := (bytesFrom 1 126).take 125
    Encoding s .accumulating 126 0x7E ∧ Encoding s' .accumulating 126 0x7E ∧ ds.length = 125 ∧
    CellsHold s.enc.blockBuffer ds ∧ CellsHold s'.enc.blockBuffer ds ∧ BothAnswers s s' 126 125 :=
  ⟨⟨rfl, rfl, rfl, rfl, rfl⟩, ⟨rfl, rfl, rfl, rfl, rfl⟩, rfl, cellsHold_take _ _, cellsHold_take _ _,
    bothAnswers_last 125 rfl rfl⟩

/-- V-ES1 and V-ES12 with no byte counted, V-ES5 with 125. -/
theorem witness_EncByteAppendsALiteral :
    Encoding (enc .accumulating 0 0x41 [] []) .accumulating 0 0x41 ∧
    Encoding (enc .accumulating 125 0x7D (bytesFrom 1 125) []) .accumulating 125 0x7D ∧
    (125#7).toNat < 126 ∧ 0x7D#8 ≠ 0xAA#8 :=
  ⟨⟨rfl, rfl, rfl, rfl, rfl⟩, ⟨rfl, rfl, rfl, rfl, rfl⟩, by decide, by decide⟩

/-- V-ES6. -/
theorem witness_EncByteFullBlockIsFlushed :
    let s := enc .accumulating 126 0x7E (bytesFrom 1 126) (yes 128)
    let s' := enc .accumulating 126 0x7E (bytesFrom 1 126) (yes 127 ++ [.reject])
    Encoding s .accumulating 126 0x7E ∧ Encoding s' .accumulating 126 0x7E ∧ 0xAA#8 ≠ 0x7E#8 ∧
    (bytesFrom 1 126).length = 126 ∧ CellsHold s.enc.blockBuffer (bytesFrom 1 126) ∧
    CellsHold s'.enc.blockBuffer (bytesFrom 1 126) ∧ BothAnswers s s' 128 127 :=
  ⟨⟨rfl, rfl, rfl, rfl, rfl⟩, ⟨rfl, rfl, rfl, rfl, rfl⟩, by decide, rfl, cellsHold_cells _, cellsHold_cells _,
    bothAnswers_last 127 rfl rfl⟩

/-- V-ES7, V-ES8. -/
theorem witness_EncByteExtendsARun :
    Encoding (enc .repeating 2 0x41 [] []) .repeating 2 0x41 ∧
    Encoding (enc .repeating 125 0x41 [] []) .repeating 125 0x41 ∧ (125#7).toNat < 126 := by decide

/-- V-ES9. -/
theorem witness_EncByteFullRunIsFlushed :
    let s := enc .repeating 126 0x41 [] (yes 2)
    let s' := enc .repeating 126 0x41 [] [.accept, .reject]
    Encoding s .repeating 126 0x41 ∧ Encoding s' .repeating 126 0x41 ∧ BothAnswers s s' 2 1 := by decide

/-- V-ES10, V-ES11. -/
theorem witness_EncByteBreaksARun :
    let s := enc .repeating 2 0x05 [] (yes 2)
    let s' := enc .repeating 126 0x05 [] [.reject]
    Encoding s .repeating 2 0x05 ∧ Encoding s' .repeating 126 0x05 ∧ 0x09#8 ≠ 0x05#8 ∧ BothAnswers s s' 2 0 := by decide

/-- V-ES16, V-ES17: a run. -/
theorem witness_EncFinFlushesAndEnds_run :
    let s := enc .repeating 2 0x05 [] (yes 3)
    let s' := enc .repeating 126 0x07 [] (yes 2 ++ [.reject])
    Encoding s .repeating 2 0x05 ∧ Encoding s' .repeating 126 0x07 ∧ BothAnswers s s' 3 2 := by decide

/-- V-ES14, V-ES15: a literal block. -/
theorem witness_EncFinFlushesAndEnds_literal :
    let s := enc .accumulating 1 0x09 [0x09] (yes 3)
    let s' := enc .accumulating 126 0x7E (bytesFrom 1 126) (yes 127 ++ [.reject])
    Encoding s .accumulating 1 0x09 ∧ CellsHold s.enc.blockBuffer [0x09] ∧ s.accepts 3 ∧
    Encoding s' .accumulating 126 0x7E ∧ (bytesFrom 1 126).length = 126 ∧
    CellsHold s'.enc.blockBuffer (bytesFrom 1 126) ∧ 127 < 128 ∧ s'.accepts 127 ∧ s'.answer 127 = .reject :=
  ⟨⟨rfl, rfl, rfl, rfl, rfl⟩, cellsHold_cells _, accepts_yes 3 [] rfl, ⟨rfl, rfl, rfl, rfl, rfl⟩, rfl, cellsHold_cells _,
    by decide, accepts_yes 127 _ rfl, answer_after_yes 127 _ [] rfl⟩

/-- V-ES13, V-S15: nothing to write. -/
theorem witness_EncFinFlushesAndEnds_empty :
    let s := enc .accumulating 0 0x41 [] (yes 1)
    let s' := enc .accumulating 0 0x41 [] [.reject]
    Encoding s .accumulating 0 0x41 ∧ Encoding s' .accumulating 0 0x41 ∧ BothAnswers s s' 1 0 := by decide

theorem witness_EncoderBufferFrame :
    answers (exec (.encByte 0x02) (enc .accumulating 1 0x01 [0x01] [])) (fun t => t.sess ≠ .faulted) = true ∧
    answers (exec (.encByte 0x02) (enc .accumulating 0 0x02 [] [])) (fun t => t.sess ≠ .faulted) = true ∧
    answers (exec (.encByte 0x02) (enc .repeating 2 0x01 [0x01] (yes 2))) (fun t => t.sess ≠ .faulted) = true ∧
    answers (exec (.encByte 0x01) (enc .accumulating 1 0x01 [0x01] [])) (fun t => t.sess ≠ .faulted) = true ∧
    answers (exec (.encByte 0x01) (enc .repeating 126 0x01 [0x01] (yes 2))) (fun t => t.sess ≠ .faulted) = true ∧
    answers (exec .encFin (enc .accumulating 1 0x01 [0x01] (yes 3))) (fun t => t.sess ≠ .faulted) = true := by decide

/-! #### The decoder -/

/-- The hypotheses that the decoder's statements share. -/
abbrev Decoding (s : State) (phase : Phase) (n : Count) : Prop :=
  s.sess = .active ∧ s.smode = .decompress ∧ s.dec.phase = some phase ∧ s.dec.remaining = some n

theorem witness_DecByteRunsItsStreamRow :
    Decoding (dec .awaitingStatus 0 []) .awaitingStatus 0 ∧ Decoding (dec .readingRunByte 1 []) .readingRunByte 1 ∧
    Decoding (dec .readingBlockBytes 127 []) .readingBlockBytes 127 := by decide

theorem witness_StatusLitBeginsABlock :
    Decoding (dec .awaitingStatus 0 []) .awaitingStatus 0 ∧ 1#7 ≠ 0#7 ∧ 127#7 ≠ 0#7 := by decide

theorem witness_StatusRunBeginsARun :
    Decoding (dec .awaitingStatus 0 []) .awaitingStatus 0 ∧ 1#7 ≠ 0#7 ∧ 127#7 ≠ 0#7 := by decide

theorem witness_ZeroLengthStatusIsANop : Decoding (dec .awaitingStatus 5 []) .awaitingStatus 5 := by decide

/-- V-DS9, V-DS10. -/
theorem witness_RunByteIsRepeated :
    let s := dec .readingRunByte 1 (yes 1)
    let s' := dec .readingRunByte 127 (yes 126 ++ [.reject])
    Decoding s .readingRunByte 1 ∧ s.accepts 1 ∧ Decoding s' .readingRunByte 127 ∧ s'.accepts 126 ∧
    s'.answer 126 = .reject :=
  ⟨⟨rfl, rfl, rfl, rfl⟩, accepts_yes 1 [] rfl, ⟨rfl, rfl, rfl, rfl⟩, accepts_yes 126 _ rfl, answer_after_yes 126 _ [] rfl⟩

/-- V-DS11, V-DS12. -/
theorem witness_BlockByteIsCopied :
    let s := dec .readingBlockBytes 1 (yes 1)
    let s' := dec .readingBlockBytes 127 [.reject]
    Decoding s .readingBlockBytes 1 ∧ Decoding s' .readingBlockBytes 127 ∧ BothAnswers s s' 1 0 := by decide

theorem witness_DecFinChecksTruncation :
    BothAnswers (dec .awaitingStatus 0 (yes 1)) (dec .awaitingStatus 0 [.reject]) 1 0 ∧
    Decoding (dec .awaitingStatus 0 (yes 1)) .awaitingStatus 0 ∧
    Decoding (dec .awaitingStatus 0 [.reject]) .awaitingStatus 0 ∧
    Decoding (dec .readingRunByte 2 []) .readingRunByte 2 ∧
    Decoding (dec .readingBlockBytes 1 []) .readingBlockBytes 1 := by decide

/-! #### Where the model stops -/

theorem witness_UnwrittenReadsStop :
    let e : State := at_ .active .compress []
    let d : State := at_ .active .decompress []
    let acc := enc .accumulating 1 0x01 [0x01] []
    let rep := enc .repeating 126 0x01 [] []
    (e.sess = .active ∧ e.smode = .compress ∧ d.sess = .active ∧ d.smode = .decompress) ∧
    ({ e with enc := .bottom } : State).enc.mode = none ∧
    ({ acc with enc := { acc.enc with pendingByte := none } } : State).enc.runCount = some 1 ∧
    ({ acc with enc := { acc.enc with pendingByte := none } } : State).enc.mode = some .accumulating ∧
    ({ acc with enc := { acc.enc with pendingByte := none } } : State).enc.pendingByte = none ∧
    ({ rep with enc := { rep.enc with pendingByte := none } } : State).enc.runCount = some 126 ∧
    ({ rep with enc := { rep.enc with pendingByte := none } } : State).enc.mode = some .repeating ∧
    ({ d with dec := .bottom } : State).dec.phase = none ∧ (Instr.payloadLit 0x00).isStream = true ∧
    ({ d with dec := { phase := some .readingRunByte, remaining := none } } : State).dec.remaining = none ∧
    ({ d with dec := { phase := some .readingBlockBytes, remaining := none } } : State).dec.remaining = none := by decide

/-- A pair after one byte and a FIN of one byte, each with no cell written. -/
theorem witness_UnwrittenReadsStop_first_cell :
    let s := enc .accumulating 2 0x01 [] (yes 1)
    let s' := enc .accumulating 1 0x01 [] (yes 1)
    Encoding s .accumulating 2 0x01 ∧ Encoding s' .accumulating 1 0x01 ∧ Memory.read s.enc.blockBuffer 0 = none ∧
    Memory.read s'.enc.blockBuffer 0 = none ∧ s.accepts 1 ∧ s'.accepts 1 ∧ 0 + 1 < (2#7).toNat ∧ 0 < (1#7).toNat := by
  decide

/-- The last cell below the count: cell 125, where the count is 126. -/
theorem witness_UnwrittenReadsStop_last_cell :
    let s := enc .accumulating 126 0x7D (bytesFrom 1 125) (yes 126)
    Encoding s .accumulating 126 0x7D ∧ Memory.read s.enc.blockBuffer 125 = none ∧ s.accepts 126 ∧ 0xAA#8 ≠ 0x7D#8 ∧
    (126#7).toNat = 126 :=
  ⟨⟨rfl, rfl, rfl, rfl, rfl⟩, (read_cellsFrom (bytesFrom 1 125) 0 125).trans rfl, accepts_yes 126 [] rfl, by decide, rfl⟩

theorem witness_CountersOutsideTheRulesStop :
    Encoding (enc .accumulating 127 0x01 [] []) .accumulating 127 0x01 ∧
    Encoding (enc .repeating 1 0x01 [] []) .repeating 1 0x01 ∧
    Encoding (enc .repeating 127 0x01 [] []) .repeating 127 0x01 ∧
    Decoding (dec .readingRunByte 0 []) .readingRunByte 0 ∧
    Decoding (dec .readingBlockBytes 0 []) .readingBlockBytes 0 := by decide

/-! #### The whole machine -/

theorem witness_StepRunsTheNextEvent :
    (State.reset.setPending [.command finWord]).port.pending = [.command finWord] ∧
    (State.reset.setPending [.reset, .command finWord]).port.pending = [.reset, .command finWord] ∧
    State.reset.port.pending = [] := by decide

theorem witness_StepKeepsTheInvariant : ∃ s t, Inv s ∧ step s = .next t ∧ t.sess = .done :=
  have ⟨t, ht, hp⟩ := next_of_answers (p := fun t => t.sess = .done)
    (o := step ((enc .accumulating 2 0x02 [0x01, 0x02] (yes 4)).setPending [.command finWord])) (by decide)
  ⟨_, t, inv_enc_literal, ht, by simpa using hp⟩

theorem witness_EveryStepAnswersNext : Inv ((enc .repeating 126 0x41 [] (yes 2)).setPending [.command 0x141#10]) :=
  inv_enc_run _

/-- The step that puts out a full run keeps the stream of records; so does the FIN of the block. -/
theorem witness_EncoderEmitsBoundedRecords :
    (∃ s t, Inv s ∧ EncoderStream s ∧ step s = .next t ∧ t.out = [0xFF, 0x41]) ∧
    (∃ s t, Inv s ∧ s.sess = .active ∧ s.smode = .compress ∧ exec .encFin s = .next t ∧ t.sess ≠ .faulted) :=
  have ⟨t, ht, hp⟩ := next_of_answers (p := fun t => t.out = [0xFF, 0x41])
    (o := step ((enc .repeating 126 0x41 [] (yes 2)).setPending [.command 0x141#10])) (by decide)
  have ⟨u, hu, hq⟩ := next_of_answers (p := fun t => t.sess ≠ .faulted)
    (o := exec .encFin ((enc .accumulating 2 0x02 [0x01, 0x02] (yes 4)).setPending [.command finWord])) (by decide)
  ⟨⟨_, t, inv_enc_run _, fun _ _ => ⟨[], by simp, rfl⟩, ht, by simpa using hp⟩,
    ⟨_, u, inv_enc_literal, rfl, rfl, hu, by simpa using hq⟩⟩

/-- One command word that emits, one that does not, and one that INIT does not start with. -/
theorem witness_OutIsAppendOnly : legalInit 0x109#10 = false ∧
    answers (exec (instrOf (enc .repeating 2 0x05 [] (yes 2)) 0x109#10) (enc .repeating 2 0x05 [] (yes 2)))
      (fun t => t.out = [0x82, 0x05]) = true := by decide

theorem witness_BurstIsBounded : ∃ s t, Inv s ∧ exec (instrOf s 0x141#10) s = .next t ∧ legalInit 0x141#10 = false ∧
    t.out.length = 2 :=
  have ⟨t, ht, hp⟩ := next_of_answers (p := fun t => t.out.length = 2)
    (o := exec (instrOf ((enc .repeating 126 0x41 [] (yes 2)).setPending []) 0x141#10)
      ((enc .repeating 126 0x41 [] (yes 2)).setPending [])) (by decide)
  ⟨_, t, inv_enc_run [], ht, rfl, by simpa using hp⟩

theorem witness_OnlyInitWritesSmode :
    answers (exec (instrOf faulted 0x001#10) faulted) (fun t => t.smode = .decompress) = true ∧
    answers (exec (instrOf faulted 0x000#10) faulted) (fun t => t.smode = .compress) = true ∧
    answers (exec (instrOf faulted 0x200#10) faulted) (fun t => t.smode = faulted.smode) = true := by decide

theorem witness_FirstFaultIsSticky : ∃ s t, Inv s ∧ s.err = some .truncatedStream ∧ step s = .next t ∧
    t.err = some .truncatedStream :=
  have ⟨t, ht, hp⟩ := next_of_answers (p := fun t => t.err = some .truncatedStream)
    (o := step (faulted.setPending [.command 0x201#10])) (by decide)
  ⟨_, t, inv_faulted _, rfl, ht, by simpa using hp⟩

theorem witness_SessionLifecycle :
    answers (exec (instrOf State.reset 0x000#10) State.reset) (fun t => t.sess = .active) = true ∧
    answers (exec (instrOf (dec .awaitingStatus 0 (yes 1)) 0x200#10) (dec .awaitingStatus 0 (yes 1)))
      (fun t => t.sess = .done) = true ∧
    answers (exec (instrOf State.reset 0x200#10) State.reset) (fun t => t.sess = .faulted) = true := by decide

theorem witness_DurableContentIsSettledOnce :
    answers (exec (instrOf (dec .awaitingStatus 0 (yes 1)) 0x200#10) (dec .awaitingStatus 0 (yes 1)))
      (fun t => t.sess = .done) = true ∧
    answers (exec (instrOf (dec .readingRunByte 2 []) 0x200#10) (dec .readingRunByte 2 []))
      (fun t => t.sess = .faulted) = true ∧
    (answers (exec (instrOf (dec .readingRunByte 2 []) 0x000#10) (dec .readingRunByte 2 [])) (fun t => t.sess = .active) = true ∧
      legalInit 0x000#10 = true) ∧
    answers (exec (instrOf (finished [0x01]) 0x200#10) (finished [0x01])) (fun t => t.sess = .faulted) = true := by decide

/-- Reset and INIT, and a state after INIT whose unspecified registers hold ⊥ where the model's hold a value. -/
theorem witness_UnspecifiedValuesHaveNoEffect :
    (∃ mode s, initSession .compress faulted = initSession mode s) ∧
    (∃ port, State.reset.setPending [.command finWord] = { State.reset with port := port }) ∧
    (initSession .compress faulted).withUnspecified none [] none ≠ initSession .compress faulted :=
  ⟨⟨_, _, rfl⟩, ⟨_, rfl⟩, fun h => absurd (congrArg (fun s : State => s.enc.pendingByte) h) (by decide)⟩

/-- Two encoders that differ in a cell above the count, and two decoders that differ in `dec.remaining` while a status
byte is awaited. -/
theorem witness_HiddenRegistersHaveNoEffect :
    (enc .accumulating 1 0x05 [0x05, 0x06] [] ≠ enc .accumulating 1 0x05 [0x05] [] ∧
      HiddenAgree (enc .accumulating 1 0x05 [0x05, 0x06] []) (enc .accumulating 1 0x05 [0x05] [])) ∧
    (dec .awaitingStatus 9 [] ≠ dec .awaitingStatus 0 [] ∧
      HiddenAgree (dec .awaitingStatus 9 []) (dec .awaitingStatus 0 [])) := by
  refine ⟨⟨by decide, rfl, rfl, rfl, rfl, rfl, rfl, fun _ _ => ⟨rfl, rfl, fun h => (by cases h), ?_⟩, fun _ h => (by cases h)⟩,
    ⟨by decide, rfl, rfl, rfl, rfl, rfl, rfl, fun _ h => (by cases h), fun _ _ => ⟨rfl, fun h => absurd rfl h⟩⟩⟩
  intro n _ hn
  cases hn
  exact ⟨fun _ => rfl, by decide⟩

/-! #### Sessions -/

/-- L1-3, and its way back in a block that another session left in FAULTED. -/
theorem witness_RoundTrip : ∃ s t v u,
    runCommands (AsmLine.compress [0x05, 0x05, 0x09]).words s = .next t ∧ t.sess = .done ∧ v.sess = .faulted ∧
    runCommands (AsmLine.decompress t.out).words v = .next u ∧ u.sess = .done :=
  let v : State := { faulted with port := { pending := [], answers := yes 4, draws := 0 } }
  have ⟨t, ht, hp⟩ := next_of_answers
    (p := fun t => t.sess = .done ∧ answers (runCommands (AsmLine.decompress t.out).words v) (fun u => u.sess = .done) = true)
    (o := runCommands (AsmLine.compress [0x05, 0x05, 0x09]).words (at_ .idle .compress (yes 5))) (by decide)
  have hp := of_decide_eq_true hp
  have ⟨u, hu, hq⟩ := next_of_answers hp.2
  ⟨_, t, v, u, ht, hp.1, rfl, hu, of_decide_eq_true hq⟩

/-- The empty input of R75. -/
theorem witness_RoundTrip_empty : ∃ s t, runCommands (AsmLine.compress []).words s = .next t ∧ t.sess = .done :=
  have ⟨t, ht, hp⟩ := next_of_answers (p := fun t => t.sess = .done)
    (o := runCommands (AsmLine.compress []).words (at_ .idle .compress (yes 1))) (by decide)
  ⟨_, t, ht, by simpa using hp⟩

/-- A whole record with a no-op after it ends in DONE, and a record cut short does not. -/
theorem witness_DecoderAcceptsExactlyWholeRecords :
    (∃ s t, runCommands (AsmLine.decompress [0x81, 0x41, 0x80]).words s = .next t ∧ t.err ≠ some .writeFault ∧
      t.sess = .done ∧ (∀ x ∈ [Token.record (.run 1 0x41), .nop80], x.bounded = true) ∧
      [0x81#8, 0x41#8, 0x80#8] = [Token.record (.run 1 0x41), .nop80].flatMap Token.bytes) ∧
    (∃ s t, runCommands (AsmLine.decompress [0x81]).words s = .next t ∧ t.err ≠ some .writeFault ∧ t.sess ≠ .done) :=
  have ⟨t, ht, hp⟩ := next_of_answers (p := fun t => t.err ≠ some .writeFault ∧ t.sess = .done)
    (o := runCommands (AsmLine.decompress [0x81, 0x41, 0x80]).words (at_ .idle .compress (yes 2))) (by decide)
  have ⟨u, hu, hq⟩ := next_of_answers (p := fun t => t.err ≠ some .writeFault ∧ t.sess ≠ .done)
    (o := runCommands (AsmLine.decompress [0x81]).words (at_ .idle .compress [])) (by decide)
  ⟨⟨_, t, ht, (of_decide_eq_true hp).1, (of_decide_eq_true hp).2, by decide, by decide⟩,
    ⟨_, u, hu, (of_decide_eq_true hq).1, (of_decide_eq_true hq).2⟩⟩

/-- `k` is 0, 1 and 2, and the 127th byte of a run. -/
theorem witness_RunsSplitAt127 :
    (∀ k ∈ [0, 1, 2], answers (runCommands (AsmLine.repeated 0x07 k).words (enc .accumulating 0 0x00 [] (yes 2)))
      (fun t => t.sess = .active) = true) ∧
    answers (runCommands (AsmLine.repeated 0x07 127).words (enc .accumulating 0 0x00 [] (yes 2)))
      (fun t => t.sess = .active ∧ t.out = [0xFF, 0x07]) = true := by decide +kernel

end Sys2Proof.Tests
end

section
/-! PROOFS. The registers after reset (R33) and `exit_code` (R20). -/

namespace Sys2Proof.Machine

/-! ### `exit_code`, by the session's state -/

theorem State.exitCode_of_done {s : State} (h : s.sess = .done) : s.exitCode = some 0 := by
  simp only [State.exitCode, h]

theorem State.exitCode_of_faulted {s : State} (h : s.sess = .faulted) : s.exitCode = some (errCode s.err) := by
  simp only [State.exitCode, h]

theorem State.exitCode_of_not_ended {s : State} (h : s.sess = .idle ∨ s.sess = .active) : s.exitCode = none := by
  rcases h with h | h <;> simp only [State.exitCode, h]

/-! ### The code of a fault -/

/-- R92. -/
theorem faultCode_bounds (k : FaultKind) : 1 ≤ (faultCode k).toNat ∧ (faultCode k).toNat ≤ 4 := by
  cases k <;> decide

theorem Inv.exists_fault {s : State} (hs : Inv s) (h : s.sess = .faulted) : ∃ k, s.err = some k :=
  Option.ne_none_iff_exists'.mp fun hnone => hs.err.mp hnone h

/-- Settles O23: the invariant makes `err` a fault in FAULTED, and a fault's code is 1 to 4. -/
theorem exitCodeFromSessAndErr : Obligations.ExitCodeFromSessAndErr := by
  intro s hs
  refine ⟨State.exitCode_of_done, fun hfaulted => ?_, State.exitCode_of_not_ended⟩
  obtain ⟨k, hk⟩ := hs.exists_fault hfaulted
  have hcode : errCode s.err = faultCode k := by rw [hk, errCode]
  exact ⟨State.exitCode_of_faulted hfaulted, hcode ▸ faultCode_bounds k⟩

/-! ### The registers after reset -/

/-- R33 leaves the cells' values unspecified; that each holds one is log entry 13. -/
theorem EncRegs.fresh_cell_isSome {i : Nat} (h : i < 127) : (Memory.read EncRegs.fresh.blockBuffer i).isSome := by
  rw [EncRegs.fresh, Memory.read_zeros h, Option.isSome_some]

/-- Settles O16: every register but the buffer and `exit_code` is read off R33's reset state; the buffer's cells are
those of a fresh encoder, and no session has ended. -/
theorem resetValues : Obligations.ResetValues :=
  ⟨rfl, rfl, rfl, rfl, rfl, rfl, fun _ => EncRegs.fresh_cell_isSome, rfl, rfl, rfl,
    State.exitCode_of_not_ended (.inl rfl)⟩

end Sys2Proof.Machine
end

section
/-! PROOFS. `Emit`: one byte offered to the sink, for one draw (R39). -/

namespace Sys2Proof.Machine

/-- Settles O12: the sink's answer decides between the two outcomes of `emit`, and the draw itself keeps `out`. -/
theorem emitOffersOneByte : Obligations.EmitOffersOneByte := by
  intro b s
  refine ⟨fun haccept => ?_, emit_reject b, s.drawn_out 1⟩
  rw [emit_accept b haccept, State.emitted, State.drawn_out]

end Sys2Proof.Machine
end

section
/-! PROOFS. Which command words are illegal, and what they do (R52, R88). -/

namespace Sys2Proof

/-! ### The illegal words, as a range and as rows -/

theorem toNat_of_eq_mkWord {w : CommandWord} {op : BitVec 2} (h : w = mkWord op (dataField w)) :
    w.toNat = op.toNat * 256 + (dataField w).toNat := by
  conv_lhs => rw [h]
  exact toNat_mkWord op _

/-- R52: each operation has 256 words in a row; those of INIT are illegal from data 2 on, those of FIN and SRCFAULT from
data 1 on, and those of BYTE never. -/
theorem illegalWord_iff (w : CommandWord) :
    illegalWord w = true ↔
      0x002 ≤ w.toNat ∧ w.toNat ≤ 0x0FF ∨ 0x201 ≤ w.toNat ∧ w.toNat ≤ 0x2FF ∨ 0x301 ≤ w.toNat ∧ w.toNat ≤ 0x3FF := by
  rcases word_cases w with ⟨hop, hw⟩ | ⟨hop, hw⟩ | ⟨hop, hw⟩ | ⟨hop, hw⟩ <;>
    have hnum := toNat_of_eq_mkWord hw <;>
    simp only [illegalWord, hop, decide_eq_true_eq]
  · bv_omega
  · refine iff_of_false Bool.false_ne_true ?_
    bv_omega
  · bv_omega
  · bv_omega

/-- R50: the operand of INIT is a mode, that of BYTE any byte, and those of FIN and SRCFAULT are zero. -/
theorem legal_word_cases {w : CommandWord} (h : ¬ illegalWord w = true) :
    w = initWord .compress ∨ w = initWord .decompress ∨ (∃ b, w = byteWord b) ∨ w = finWord ∨ w = srcfaultWord := by
  rcases word_cases w with ⟨hop, hw⟩ | ⟨-, hw⟩ | ⟨hop, hw⟩ | ⟨hop, hw⟩
  · have hmode : dataField w = 0x00#8 ∨ dataField w = 0x01#8 := by
      simp only [illegalWord, hop, decide_eq_true_eq] at h
      bv_omega
    rcases hmode with hdata | hdata <;> rw [hdata] at hw
    · exact .inl hw
    · exact .inr (.inl hw)
  · exact .inr (.inr (.inl ⟨_, hw⟩))
  · have hdata : dataField w = 0x00#8 := by simpa [illegalWord, hop] using h
    rw [hdata] at hw
    exact .inr (.inr (.inr (.inl hw)))
  · have hdata : dataField w = 0x00#8 := by simpa [illegalWord, hop] using h
    rw [hdata] at hw
    exact .inr (.inr (.inr (.inr hw)))

theorem decode_of_illegal_init {w : CommandWord} (sess : Sess) (smode : SMode) (hop : opOf w = .init)
    (h : 2 ≤ (dataField w).toNat) : decode sess smode w = .illegalInit (dataField w) := by
  have hzero : dataField w ≠ 0#8 := by bv_omega
  have hone : dataField w ≠ 1#8 := by bv_omega
  simp only [decode, hop, if_neg hzero, if_neg hone]

theorem decode_of_illegal_fin {w : CommandWord} (sess : Sess) (smode : SMode) (hop : opOf w = .fin)
    (h : dataField w ≠ 0#8) : decode sess smode w = .illegalFin (dataField w) := by
  simp only [decode, hop, if_pos h]

theorem decode_of_illegal_srcfault {w : CommandWord} (sess : Sess) (smode : SMode) (hop : opOf w = .srcfault)
    (h : dataField w ≠ 0#8) : decode sess smode w = .illegalSrcfault (dataField w) := by
  simp only [decode, hop, if_pos h]

end Sys2Proof

namespace Sys2Proof.Machine

/-! ### What the illegal rows do -/

theorem exec_illegalInit {data : Byte} (s : State) (h : 2 ≤ data.toNat) : exec (.illegalInit data) s = illegal s :=
  if_pos h

theorem exec_illegalFin {data : Byte} (s : State) (h : data ≠ 0#8) : exec (.illegalFin data) s = illegal s :=
  if_pos h

theorem exec_illegalSrcfault {data : Byte} (s : State) (h : data ≠ 0#8) :
    exec (.illegalSrcfault data) s = illegal s :=
  if_pos h

/-- R88, R90. -/
theorem illegal_eq (s : State) :
    illegal s = if s.sess = .faulted then .next s else .next (faultEntry .illegalCommand s) := by
  cases h : s.sess <;> simp [illegal, h]

/-- An illegal word decodes to the illegal row of its operation, whatever the session and the mode. -/
theorem exec_instrOf_of_illegalWord {w : CommandWord} (s : State) (h : illegalWord w = true) :
    exec (instrOf s w) s = illegal s := by
  cases hop : opOf w <;> simp only [illegalWord, hop, decide_eq_true_eq, Bool.false_eq_true] at h
  case init => rw [instrOf, decode_of_illegal_init _ _ hop h, exec_illegalInit s h]
  case fin => rw [instrOf, decode_of_illegal_fin _ _ hop h, exec_illegalFin s h]
  case srcfault => rw [instrOf, decode_of_illegal_srcfault _ _ hop h, exec_illegalSrcfault s h]

/-- Settles O3: the ranges are those of the illegal words, which all run as `illegal`, and the other ranges hold no
illegal word. -/
theorem illegalWordsFault : Obligations.IllegalWordsFault := by
  intro w s
  refine ⟨fun hrange => ?_, fun hrange => ?_⟩
  · rw [exec_instrOf_of_illegalWord s ((illegalWord_iff w).mpr hrange), illegal_eq]
  · have hlegal : ¬ illegalWord w = true := by
      rw [illegalWord_iff]
      omega
    exact legal_word_cases hlegal

end Sys2Proof.Machine
end

section
/-! PROOFS. The classes of status byte (R57) and the record length that a status byte tells (R56). -/

namespace Sys2Proof

/-! ### The fields of a status byte, by its value -/

/-- R60. -/
theorem decodeStatus_eq (b : Byte) :
    decodeStatus b = (if 0x80 ≤ b.toNat then .runLength else .literal, BitVec.ofNat 7 b.toNat) := by
  have hkind : b.getLsbD 7 = decide (0x80 ≤ b.toNat) := BitVec.msb_eq_decide b
  have hlen : b.extractLsb' 0 7 = BitVec.ofNat 7 b.toNat := rfl
  simp only [decodeStatus, hkind, hlen, decide_eq_true_eq]

theorem decodeStatus_of_literal {b : Byte} (h : b.toNat ≤ 0x7F) :
    decodeStatus b = (.literal, BitVec.ofNat 7 b.toNat) := by
  rw [decodeStatus_eq, if_neg (by omega)]

theorem decodeStatus_of_run {b : Byte} (h : 0x80 ≤ b.toNat) :
    decodeStatus b = (.runLength, BitVec.ofNat 7 (b.toNat - 0x80)) := by
  have hlen : BitVec.ofNat 7 b.toNat = BitVec.ofNat 7 (b.toNat - 0x80) := by bv_omega
  rw [decodeStatus_eq, if_pos h, hlen]

theorem Count.ofNat_ne_zero {n : Nat} (h1 : 1 ≤ n) (h2 : n ≤ 0x7F) : BitVec.ofNat 7 n ≠ 0#7 := by
  bv_omega

/-! ### The record length -/

theorem recordLength_of_literal {b : Byte} (h1 : 0x01 ≤ b.toNat) (h2 : b.toNat ≤ 0x7F) :
    recordLength b = 1 + b.toNat := by
  have hlen : (BitVec.ofNat 7 b.toNat).toNat = b.toNat := Nat.mod_eq_of_lt (by omega)
  simp only [recordLength, decodeStatus_of_literal h2, if_neg (Count.ofNat_ne_zero h1 h2), hlen]

theorem recordLength_of_run {b : Byte} (h : 0x81 ≤ b.toNat) : recordLength b = 2 := by
  have hlen : BitVec.ofNat 7 (b.toNat - 0x80) ≠ 0#7 := Count.ofNat_ne_zero (by omega) (by omega)
  simp only [recordLength, decodeStatus_of_run (show 0x80 ≤ b.toNat by omega), if_neg hlen]

end Sys2Proof

namespace Sys2Proof.Machine

/-- A record of bounded length is its status byte, which tells how long the record is, and its payload. -/
theorem Record.bytes_length_of_bounded {r : Record} (h : r.bounded = true) :
    ∃ status payload, r.bytes = status :: payload ∧ r.bytes.length = recordLength status := by
  cases r with
  | run n c =>
    simp only [Record.bounded, decide_eq_true_eq] at h
    have hstatus : (BitVec.ofNat 8 (0x80 + n)).toNat = 0x80 + n := Nat.mod_eq_of_lt (by omega)
    refine ⟨_, _, rfl, ?_⟩
    rw [recordLength_of_run (by omega)]
    rfl
  | lit ds =>
    simp only [Record.bounded, decide_eq_true_eq] at h
    have hstatus : (BitVec.ofNat 8 ds.length).toNat = ds.length := Nat.mod_eq_of_lt (by omega)
    refine ⟨_, _, rfl, ?_⟩
    rw [recordLength_of_literal (by omega) (by omega), hstatus, Record.bytes, List.length_cons, Nat.add_comm]

theorem recordLength_le (b : Byte) : recordLength b ≤ 128 := by
  have hlen := (decodeStatus b).2.isLt
  unfold recordLength
  split
  · omega
  · split <;> omega

/-- Settles O11: the status byte of a record tells its length, and no status byte tells more than 128. -/
theorem recordLengthFromStatusByte : Obligations.RecordLengthFromStatusByte := by
  refine ⟨rfl, rfl, fun r hr => ?_⟩
  obtain ⟨status, payload, hbytes, hlength⟩ := Record.bytes_length_of_bounded hr
  exact ⟨status, payload, hbytes, hlength, hlength ▸ recordLength_le status⟩

/-- Settles O5: a status byte's row is that of its kind and length, the zero lengths first; a payload phase does not
look at the byte. -/
theorem statusByteClasses : Obligations.StatusByteClasses := by
  intro b
  refine ⟨?_, ?_, fun ⟨h1, h2⟩ => ?_, fun ⟨h1, _⟩ => ?_, rfl, rfl⟩
  · rintro rfl
    rfl
  · rintro rfl
    rfl
  · simp only [decodeStream, decodeStatus_of_literal h2, if_neg (Count.ofNat_ne_zero h1 h2)]
  · have hlen : BitVec.ofNat 7 (b.toNat - 0x80) ≠ 0#7 := Count.ofNat_ne_zero (by omega) (by omega)
    simp only [decodeStream, decodeStatus_of_run (show 0x80 ≤ b.toNat by omega), if_neg hlen]

end Sys2Proof.Machine
end

section
/-! PROOFS. The status codec: what `encodeStatus` answers (R59), the fields of every byte (R60), and the round trip
between them (R64). -/

namespace Sys2Proof

/-! ### The domain of `encodeStatus` -/

/-- R59. -/
theorem encodeStatus_of_not_bounds {kind : Kind} {n : Nat} (h : ¬ (1 ≤ n ∧ n ≤ 127)) : encodeStatus kind n = none :=
  if_neg h

theorem bounds_of_encodeStatus {kind : Kind} {n : Nat} {b : Byte} (h : encodeStatus kind n = some b) :
    1 ≤ n ∧ n ≤ 127 := by
  by_contra hn
  rw [encodeStatus_of_not_bounds hn] at h
  cases h

/-! ### Decoding an encoded status, and encoding a byte's fields -/

/-- R64: below 0x80 the length is the whole byte, and bit 7 does not reach into the field of a run's length. -/
theorem decodeStatus_of_encodeStatus {kind : Kind} {n : Nat} {b : Byte} (h : encodeStatus kind n = some b) :
    (decodeStatus b).1 = kind ∧ (decodeStatus b).2.toNat = n := by
  obtain ⟨h1, h2⟩ := bounds_of_encodeStatus h
  have hlen : (BitVec.ofNat 7 n).toNat = n := Nat.mod_eq_of_lt (by omega)
  rw [Machine.encodeStatus_of_bounds h1 h2] at h
  cases kind with
  | literal =>
    obtain rfl : BitVec.ofNat 8 n = b := Option.some.inj h
    have hvalue : (BitVec.ofNat 8 n).toNat = n := Nat.mod_eq_of_lt (by omega)
    rw [decodeStatus_of_literal (by omega), hvalue]
    exact ⟨rfl, hlen⟩
  | runLength =>
    obtain rfl : BitVec.ofNat 8 (0x80 + n) = b := Option.some.inj h
    have hvalue : (BitVec.ofNat 8 (0x80 + n)).toNat = 0x80 + n := Nat.mod_eq_of_lt (by omega)
    rw [decodeStatus_of_run (by omega), hvalue, Nat.add_sub_cancel_left]
    exact ⟨rfl, hlen⟩

theorem encodeStatus_of_literal {b : Byte} (h1 : 0x01 ≤ b.toNat) (h2 : b.toNat ≤ 0x7F) :
    encodeStatus .literal b.toNat = some b := by
  rw [Machine.encodeStatus_of_bounds h1 h2]
  simp only [BitVec.ofNat_toNat, BitVec.setWidth_eq]

theorem encodeStatus_of_run {b : Byte} (h : 0x81 ≤ b.toNat) : encodeStatus .runLength (b.toNat - 0x80) = some b := by
  have hvalue : 0x80 + (b.toNat - 0x80) = b.toNat := by omega
  rw [Machine.encodeStatus_of_bounds (by omega) (by omega)]
  simp only [hvalue, BitVec.ofNat_toNat, BitVec.setWidth_eq]

/-- R64: every byte with a length is the status byte of its own fields, and a byte without one is 0x00 or 0x80. -/
theorem exists_encodeStatus_iff (b : Byte) :
    (∃ kind n, encodeStatus kind n = some b) ↔ b ≠ 0x00#8 ∧ b ≠ 0x80#8 := by
  constructor
  · rintro ⟨kind, n, h⟩
    have hpos : 1 ≤ (decodeStatus b).2.toNat := by
      rw [(decodeStatus_of_encodeStatus h).2]
      exact (bounds_of_encodeStatus h).1
    constructor <;> rintro rfl <;> exact absurd hpos (by decide)
  · rintro ⟨hnop0, hnop80⟩
    by_cases h : b.toNat ≤ 0x7F
    · exact ⟨.literal, _, encodeStatus_of_literal (by bv_omega) h⟩
    · exact ⟨.runLength, _, encodeStatus_of_run (by bv_omega)⟩

end Sys2Proof

namespace Sys2Proof.Machine

/-- R59, D28. -/
theorem statusByte_of_not_bounds {kind : Kind} {n : Nat} (h : ¬ (1 ≤ n ∧ n ≤ 127)) (k : Byte → Flow) :
    statusByte kind n k = .stop .modelInvariant := by
  rw [statusByte, encodeStatus_of_not_bounds h]

/-- Settles O8: the two kinds differ by bit 7, which is 0x80 added; outside the domain there is no byte to go on with. -/
theorem encodeStatusFormula : Obligations.EncodeStatusFormula := by
  intro kind len
  refine ⟨fun h1 h2 => ?_, fun h => ⟨encodeStatus_of_not_bounds h, statusByte_of_not_bounds h⟩⟩
  rw [encodeStatus_of_bounds h1 h2]
  cases kind with
  | literal => rfl
  | runLength => simp only [if_true, Nat.add_comm]

/-- Settles O9: the value of the byte gives both fields. -/
theorem decodeStatusFields : Obligations.DecodeStatusFields := by
  intro b
  rw [decodeStatus_eq]
  exact ⟨rfl, BitVec.toNat_ofNat b.toNat 7⟩

/-- Settles O10: the round trip makes the status byte determine its two arguments. -/
theorem statusRoundTrip : Obligations.StatusRoundTrip := by
  refine ⟨fun _ _ _ _ _ => decodeStatus_of_encodeStatus, fun kind kind' n n' b h h' => ?_, exists_encodeStatus_iff⟩
  obtain ⟨hkind, hlen⟩ := decodeStatus_of_encodeStatus h
  obtain ⟨hkind', hlen'⟩ := decodeStatus_of_encodeStatus h'
  exact ⟨hkind.symm.trans hkind', hlen.symm.trans hlen'⟩

end Sys2Proof.Machine
end

section
/-! PROOFS. The framer: a record is its bytes offered to the sink one by one (R61, R62). -/

namespace Sys2Proof.Machine

/-- Settles O14: `WriteRun` emits the record's two bytes, and a rejection at draw 0 or 1 keeps the bytes before it. -/
theorem writeRunFramesARun : Obligations.WriteRunFramesARun := by
  intro n c s h1 h2
  rw [writeRun_eq_emitAll c s h1 h2]
  refine ⟨emitAll_accept (bs := (Record.run n c).bytes), fun hstatus => ?_, fun hstatus hcontent => ?_⟩
  · have hfirst : s.accepts 0 := fun i hi => absurd hi (Nat.not_lt_zero i)
    rw [emitAll_reject (Nat.zero_lt_two : 0 < (Record.run n c).bytes.length) hfirst hstatus, List.take_zero,
      State.emitted_nil]
  · have hfirst : s.accepts 1 := fun i hi => Nat.lt_one_iff.mp hi ▸ hstatus
    exact emitAll_reject (Nat.one_lt_two : 1 < (Record.run n c).bytes.length) hfirst hcontent

/-- Settles O15: `WriteLit` emits the record's bytes as they stand in the cells, and a rejection at draw `j` keeps the
first `j` of them. -/
theorem writeLitFramesTheBuffer : Obligations.WriteLitFramesTheBuffer := by
  intro ds s h1 h2 hcells
  rw [writeLit_eq_emitAll h1 h2 hcells]
  exact ⟨emitAll_accept, fun _ => emitAll_reject⟩

end Sys2Proof.Machine
end

section
/-! PROOFS. The encoder's cases: which one ENC.BYTE takes (R65), and what each of them and ENC.FIN offer to the sink
(R66 to R72). -/

namespace Sys2Proof.Machine

/-! ### The first cells of the buffer -/

theorem CellsHold.nil (m : Memory) : CellsHold m [] :=
  fun i hi => absurd hi (Nat.not_lt_zero i)

theorem CellsHold.left {m : Memory} {ds es : List Byte} (h : CellsHold m (ds ++ es)) : CellsHold m ds := by
  intro i hi
  rw [h i (by rw [List.length_append]; omega), List.getElem?_append_left hi]

/-- The next cell written after the first ones. -/
theorem CellsHold.write {m : Memory} {ds : List Byte} (b : Byte) (h : CellsHold m ds) :
    CellsHold (Memory.write m ds.length b) (ds ++ [b]) := by
  intro i hi
  rw [Memory.read_write]
  by_cases hlast : i = ds.length
  · rw [if_pos hlast, hlast, List.getElem?_concat_length]
  · have hlt : i < ds.length := by
      rw [List.length_append, List.length_singleton] at hi
      omega
    rw [if_neg hlast, List.getElem?_append_left hlt, h i hlt]

/-! ### The record that a literal block makes, if it holds any byte -/

/-- The records of a block: one literal, or none when the block is empty (R66, R72). -/
def literalRecords (ds : List Byte) : List Record :=
  if ds = [] then [] else [.lit ds]

theorem literalRecords_bytes (ds : List Byte) :
    (literalRecords ds).flatMap Record.bytes = if ds = [] then [] else BitVec.ofNat 8 ds.length :: ds := by
  by_cases h : ds = [] <;> simp [literalRecords, h, Record.bytes]

theorem writeLit_if_pos_eq_emitAll {ds : List Byte} {s : State} (hlen : ds.length ≤ 127)
    (hcells : CellsHold s.enc.blockBuffer ds) :
    (if 0 < ds.length then writeLit ds.length s else .done s) =
      emitAll ((literalRecords ds).flatMap Record.bytes) s := by
  rw [literalRecords_bytes]
  by_cases h : ds = []
  · subst h
    rfl
  · have hpos : 0 < ds.length := List.length_pos_of_ne_nil h
    rw [if_pos hpos, if_neg h, writeLit_eq_emitAll hpos hlen hcells, Record.bytes]

/-! ### The choice of the case (R65) -/

theorem Count.ne_zero_of_pos {n : Count} (h : 1 ≤ n.toNat) : n ≠ 0#7 := by
  bv_omega

theorem encByte_pair {s : State} {n : Count} {b : Byte} (hm : s.enc.mode = some .accumulating)
    (hn : s.enc.runCount = some n) (h1 : 1 ≤ n.toNat) (h2 : n.toNat ≤ 126) (hp : s.enc.pendingByte = some b) :
    encByte b s = encAccPair b n s := by
  rw [encByte_accumulating b hm hn h2, encAccumulating, if_neg (Count.ne_zero_of_pos h1), hp, reading_some, if_pos rfl]

theorem encByte_append {s : State} {n : Count} {b : Byte} (hm : s.enc.mode = some .accumulating)
    (hn : s.enc.runCount = some n) (h : n.toNat < 126) (hp : n = 0#7 ∨ ∃ p, s.enc.pendingByte = some p ∧ p ≠ b) :
    encByte b s = encAccAppend b n s := by
  rw [encByte_accumulating b hm hn (Nat.le_of_lt h), encAccumulating]
  by_cases h0 : n = 0#7
  · rw [if_pos h0]
  · obtain ⟨p, hp, hne⟩ := hp.resolve_left h0
    rw [if_neg h0, hp, reading_some, if_neg hne.symm, if_pos h]

theorem encByte_full {s : State} {b p : Byte} (hm : s.enc.mode = some .accumulating)
    (hn : s.enc.runCount = some 126#7) (hp : s.enc.pendingByte = some p) (hne : b ≠ p) :
    encByte b s = encAccFull b s := by
  rw [encByte_accumulating b hm hn (Nat.le_refl 126), encAccumulating, if_neg (by decide), hp, reading_some,
    if_neg hne, if_neg (by decide)]

theorem encByte_extend {s : State} {n : Count} {b : Byte} (hm : s.enc.mode = some .repeating)
    (hn : s.enc.runCount = some n) (h1 : 2 ≤ n.toNat) (h2 : n.toNat < 126) (hp : s.enc.pendingByte = some b) :
    encByte b s = encRepExtend n s := by
  rw [encByte_repeating b hm hn h1 (Nat.le_of_lt h2), encRepeating, hp, reading_some, if_pos rfl, if_pos h2]

theorem encByte_repFull {s : State} {b : Byte} (hm : s.enc.mode = some .repeating)
    (hn : s.enc.runCount = some 126#7) (hp : s.enc.pendingByte = some b) : encByte b s = encRepFull b s := by
  rw [encByte_repeating b hm hn (by decide) (Nat.le_refl 126), encRepeating, hp, reading_some, if_pos rfl,
    if_neg (by decide)]

theorem encByte_break {s : State} {n : Count} {b p : Byte} (hm : s.enc.mode = some .repeating)
    (hn : s.enc.runCount = some n) (h1 : 2 ≤ n.toNat) (h2 : n.toNat ≤ 126) (hp : s.enc.pendingByte = some p)
    (hne : b ≠ p) : encByte b s = encRepBreak b n p s := by
  rw [encByte_repeating b hm hn h1 h2, encRepeating, hp, reading_some, if_neg hne]

theorem encFinRecord_repeating {s : State} {n : Count} {p : Byte} (hm : s.enc.mode = some .repeating)
    (hn : s.enc.runCount = some n) (h1 : 2 ≤ n.toNat) (h2 : n.toNat ≤ 126) (hp : s.enc.pendingByte = some p) :
    encFinRecord s = writeRun n.toNat p s := by
  rw [encFinRecord, readingEncoder_some _ hm hn (by simp [restingCount, h1, h2])]
  simp only [hp, reading_some]

theorem encFinRecord_accumulating {s : State} {n : Count} (hm : s.enc.mode = some .accumulating)
    (hn : s.enc.runCount = some n) (h : n.toNat ≤ 126) :
    encFinRecord s = if 0 < n.toNat then writeLit n.toNat s else .done s := by
  rw [encFinRecord, readingEncoder_some _ hm hn (by simpa [restingCount] using h)]

/-! ### ENC.BYTE -/

theorem State.setRun_of_mode {s : State} {m : EncMode} {n : Count} (h : s.enc.mode = some m) :
    s.setRun m n = { s with enc := { s.enc with runCount := some n } } := by
  rw [State.setRun, ← h]

/-- Settles O24: the count less one is the number of bytes before the pair, and those cells are the literal put out. -/
theorem encBytePairStartsARun : Obligations.EncBytePairStartsARun := by
  intro b n ds s ha hc hm hn h1 h2 hp hlen hcells
  have hpred : (n - 1#7).toNat = ds.length := by rw [Count.toNat_pred h1, hlen]
  have hpair : encAccPair b n s = (emitAll ((literalRecords ds).flatMap Record.bytes) s).andThen fun s =>
      .done ((s.setRun .repeating 2#7).setPendingByte b) := by
    rw [encAccPair, decrement_of_pos _ h1, hpred, writeLit_if_pos_eq_emitAll (by omega) hcells]
  rw [literalRecords_bytes] at hpair
  exact offers_of_emitAll (by rw [exec_encByte b ha hc, encByte_pair hm hn h1 h2 hp, hpair]) rfl

/-- Settles O25: the one write is to cell `run_count`, and below 126 the count does not wrap. -/
theorem encByteAppendsALiteral : Obligations.EncByteAppendsALiteral := by
  intro b n s ha hc hm hn h hp
  refine ⟨?_, Count.toNat_succ (by omega), Memory.read_write_same _ _ _, fun a => Memory.read_write_other _ _⟩
  rw [exec_encByte b ha hc, encByte_append hm hn h hp, encAccAppend, memWrite_of_lt b s (by omega), Flow.done_andThen,
    increment_of_lt _ (by omega), finish_done]
  rfl

/-- Settles O26: with `b` in cell 126 the block is the 127 bytes that the literal puts out. -/
theorem encByteFullBlockIsFlushed : Obligations.EncByteFullBlockIsFlushed := by
  intro b p ds s ha hc hm hn hp hne hlen hcells
  refine ⟨?_, Memory.read_write_same _ _ _, fun a => Memory.read_write_other _ _⟩
  have hlen' : (ds ++ [b]).length = 127 := by rw [List.length_append, hlen, List.length_singleton]
  have hbytes : (Record.lit (ds ++ [b])).bytes = 0x7F#8 :: (ds ++ [b]) := by rw [Record.bytes, hlen']
  have hcount : (0x7F#8 :: (ds ++ [b])).length = 128 := by rw [List.length_cons, hlen']
  have hcells' : CellsHold (Memory.write s.enc.blockBuffer 126 b) (ds ++ [b]) := hlen ▸ hcells.write b
  have hfull : encAccFull b s = (emitAll (0x7F#8 :: (ds ++ [b])) ((s.setCell 126 b).setRun .accumulating 127#7)).andThen
      fun s => .done ((s.setRun .accumulating 0#7).setPendingByte b) := by
    rw [encAccFull, memWrite_of_lt b s (by omega), Flow.done_andThen, ← hbytes, ← writeLit_eq_emitAll (by omega)
      (by omega) hcells', hlen']
  rw [← hcount]
  exact offers_of_emitAll_enc ((s.setCell 126 b).setRun .accumulating 127#7).enc
    (by rw [exec_encByte b ha hc, encByte_full hm hn hp hne, hfull]; rfl) rfl

/-- Settles O27: below 126 the count does not wrap, and REP_EXTEND writes nothing else. -/
theorem encByteExtendsARun : Obligations.EncByteExtendsARun := by
  intro b n s ha hc hm hn h1 h2 hp
  refine ⟨?_, Count.toNat_succ (by omega)⟩
  rw [exec_encByte b ha hc, encByte_extend hm hn h1 h2 hp, encRepExtend, increment_of_lt _ (by omega), finish_done,
    State.setRun_of_mode hm]

/-- Settles O28: a run of 127 is the record [0xFF, b]. -/
theorem encByteFullRunIsFlushed : Obligations.EncByteFullRunIsFlushed := by
  intro b s ha hc hm hn hp
  have hfull : encRepFull b s = (emitAll [0xFF#8, b] (s.setRun .repeating 127#7)).andThen fun s =>
      .done (s.setRun .accumulating 0#7) := by
    rw [encRepFull, writeRun_eq_emitAll b _ (by omega) (by omega), Record.bytes]
  exact offers_of_emitAll_enc (s.setRun .repeating 127#7).enc
    (by rw [exec_encByte b ha hc, encByte_repFull hm hn hp, hfull]; rfl) rfl

/-- Settles O29: the run's record goes out before the new byte is written to cell 0. -/
theorem encByteBreaksARun : Obligations.EncByteBreaksARun := by
  intro b p n s ha hc hm hn h1 h2 hp hne
  refine ⟨?_, Memory.read_write_same _ _ _, fun a => Memory.read_write_other _ _⟩
  have hbreak : exec (.encByte b) s = finish ((emitAll (Record.run n.toNat p).bytes s).andThen fun s =>
      (memWrite 0 b s).andThen fun s => .done ((s.setRun .accumulating 1#7).setPendingByte b)) := by
    rw [exec_encByte b ha hc, encByte_break hm hn h1 h2 hp hne, encRepBreak,
      writeRun_eq_emitAll p s (by omega) (by omega)]
  exact offers_of_emitAll hbreak rfl

/-! ### ENC.FIN -/

/-- The state that ENC.FIN leaves once its final record is out and the sink is flushed (R72, R42). -/
def State.encFinished (s : State) (record : List Byte) : State :=
  { (s.drawn (record.length + 1)) with
    out := s.out ++ record
    sess := .done
    enc := { s.enc with mode := some .accumulating, runCount := some 0#7 }
    log := .finished s.smode (s.out ++ record) :: s.log }

theorem offers_encFin {s : State} {record : List Byte} (ha : s.sess = .active) (hc : s.smode = .compress)
    (h : encFinRecord s = emitAll record s) : Offers .encFin s record (record.length + 1) (s.encFinished record) :=
  offers_of_emitAll_flush (by rw [exec_encFin ha hc, encFin, h]) rfl

theorem offers_encFin_run {s : State} {n : Count} {p : Byte} (ha : s.sess = .active) (hc : s.smode = .compress)
    (hm : s.enc.mode = some .repeating) (hn : s.enc.runCount = some n) (h1 : 2 ≤ n.toNat) (h2 : n.toNat ≤ 126)
    (hp : s.enc.pendingByte = some p) :
    Offers .encFin s (Record.run n.toNat p).bytes 3 (s.encFinished (Record.run n.toNat p).bytes) :=
  offers_encFin ha hc (by
    rw [encFinRecord_repeating hm hn h1 h2 hp, writeRun_eq_emitAll p s (by omega) (by omega)])

theorem offers_encFin_literal {s : State} {n : Count} {ds : List Byte} (ha : s.sess = .active)
    (hc : s.smode = .compress) (hm : s.enc.mode = some .accumulating) (hn : s.enc.runCount = some n)
    (h : n.toNat ≤ 126) (hlen : ds.length = n.toNat) (hcells : CellsHold s.enc.blockBuffer ds) :
    Offers .encFin s ((literalRecords ds).flatMap Record.bytes) (((literalRecords ds).flatMap Record.bytes).length + 1)
      (s.encFinished ((literalRecords ds).flatMap Record.bytes)) :=
  offers_encFin ha hc (by
    rw [encFinRecord_accumulating hm hn h, ← hlen, writeLit_if_pos_eq_emitAll (by omega) hcells])

/-- Settles O30: the final record is the run, the block, or nothing where the block is empty; the flush is one more
draw. -/
theorem encFinFlushesAndEnds : Obligations.EncFinFlushesAndEnds := by
  intro n ds p s ha hc hn
  refine ⟨fun hm h1 h2 hp => offers_encFin_run ha hc hm hn h1 h2 hp, fun hm h1 h2 hlen hcells => ?_, fun hm h0 => ?_⟩
  · have hne : ds ≠ [] := List.ne_nil_of_length_pos (by omega)
    have hliteral := offers_encFin_literal ha hc hm hn h2 hlen hcells
    rw [literalRecords_bytes, if_neg hne, List.length_cons, hlen] at hliteral
    exact hliteral
  · subst h0
    exact offers_encFin_literal ha hc hm hn (Nat.zero_le _) rfl (CellsHold.nil _)

end Sys2Proof.Machine
end

section
/-! PROOFS. What the encoder holds of its input, and what each of its commands does with it (R65 to R73): the bytes held
and the new one are what the record put out expands to, followed by the bytes held afterwards. -/

namespace Sys2Proof.Machine

/-! ### The bytes that the encoder holds -/

/-- The encoder at rest (R28) holds these bytes of its input, in their order, and has not put them out yet: the counted
cells of the buffer in ACCUMULATING, the run in REPEATING (R22 to R24). -/
inductive EncRegs.Holds (e : EncRegs) (held : List Byte) : Prop where
  | block (n : Count) (hm : e.mode = some .accumulating) (hn : e.runCount = some n) (hlen : held.length = n.toNat)
      (hmax : n.toNat ≤ 126) (hcells : CellsHold e.blockBuffer held)
      (hlast : held ≠ [] → e.pendingByte = held.getLast?)
  | run (n : Count) (p : Byte) (hm : e.mode = some .repeating) (hn : e.runCount = some n) (hmin : 2 ≤ n.toNat)
      (hmax : n.toNat ≤ 126) (hp : e.pendingByte = some p) (hheld : held = List.replicate n.toNat p)

theorem EncRegs.holds_nil {e : EncRegs} (hm : e.mode = some .accumulating) (hn : e.runCount = some 0#7) :
    e.Holds [] :=
  .block 0#7 hm hn rfl (Nat.zero_le _) (CellsHold.nil _) fun h => absurd rfl h

theorem exists_cellsHold {m : Memory} {n : Nat} (h : ∀ i < n, (Memory.read m i).isSome) :
    ∃ ds : List Byte, ds.length = n ∧ CellsHold m ds := by
  induction n with
  | zero => exact ⟨[], rfl, CellsHold.nil m⟩
  | succ n ih =>
    obtain ⟨ds, hlen, hcells⟩ := ih fun i hi => h i (Nat.lt_succ_of_lt hi)
    obtain ⟨b, hb⟩ := Option.isSome_iff_exists.mp (h n (Nat.lt_succ_self n))
    refine ⟨ds ++ [b], by rw [List.length_append, hlen, List.length_singleton], fun i hi => ?_⟩
    by_cases hlast : i = ds.length
    · rw [hlast, List.getElem?_concat_length, hlen, hb]
    · have hlt : i < ds.length := by
        rw [List.length_append, List.length_singleton] at hi
        omega
      rw [List.getElem?_append_left hlt, hcells i hlt]

/-- R28 says that the encoder holds some bytes. -/
theorem encoderInv_iff_holds (e : EncRegs) : EncoderInv e ↔ ∃ held, e.Holds held := by
  constructor
  · rintro ⟨_ | _, n, hm, hn, h⟩
    · obtain ⟨hmax, hsome, hlast⟩ := h
      obtain ⟨ds, hlen, hcells⟩ := exists_cellsHold hsome
      refine ⟨ds, .block n hm hn hlen hmax hcells fun hne => ?_⟩
      have hpos : 0 < ds.length := List.length_pos_of_ne_nil hne
      rw [hlast (hlen ▸ hpos), ← hlen, hcells _ (by omega), List.getLast?_eq_getElem?]
    · obtain ⟨hmin, hmax, hp⟩ := h
      obtain ⟨p, hp⟩ := Option.isSome_iff_exists.mp hp
      exact ⟨_, .run n p hm hn hmin hmax hp rfl⟩
  · rintro ⟨held, h⟩
    cases h with
    | block n hm hn hlen hmax hcells hlast =>
      refine ⟨.accumulating, n, hm, hn, hmax, fun i hi => ?_, fun hpos => ?_⟩
      · rw [hcells i (hlen ▸ hi), List.getElem?_eq_getElem (hlen ▸ hi), Option.isSome_some]
      · have hne : held ≠ [] := List.ne_nil_of_length_pos (hlen ▸ hpos)
        rw [hlast hne, ← hlen, hcells _ (by omega), List.getLast?_eq_getElem?]
    | run n p hm hn hmin hmax hp hheld => exact ⟨.repeating, n, hm, hn, hmin, hmax, by rw [hp, Option.isSome_some]⟩

/-! ### The records that a command puts out -/

theorem run_byEncoder {n : Nat} {c : Byte} (h1 : 2 ≤ n) (h2 : n ≤ 127) :
    ∀ r ∈ [Record.run n c], r.byEncoder = true :=
  List.forall_mem_singleton.mpr (decide_eq_true ⟨h1, h2⟩)

theorem literal_byEncoder {ds : List Byte} (h1 : 1 ≤ ds.length) (h2 : ds.length ≤ 127) :
    ∀ r ∈ [Record.lit ds], r.byEncoder = true :=
  List.forall_mem_singleton.mpr (decide_eq_true ⟨h1, h2⟩)

theorem literalRecords_length (ds : List Byte) : (literalRecords ds).length ≤ 1 := by
  unfold literalRecords
  split <;> simp

theorem literalRecords_byEncoder {ds : List Byte} (h : ds.length ≤ 127) :
    ∀ r ∈ literalRecords ds, r.byEncoder = true := by
  unfold literalRecords
  split
  · exact List.forall_mem_nil _
  · next hne => exact literal_byEncoder (List.length_pos_of_ne_nil hne) h

theorem literalRecords_expand (ds : List Byte) : (literalRecords ds).flatMap Record.expand = ds := by
  by_cases h : ds = [] <;> simp [literalRecords, h, Record.expand]

/-! ### ENC.BYTE -/

/-- The state after a command that puts out `bs`, a draw for each byte, and leaves these encoder registers. -/
def State.encoded (s : State) (bs : List Byte) (e : EncRegs) : State :=
  { (s.drawn bs.length) with out := s.out ++ bs, enc := e }

/-- What ENC.BYTE of `b` does where the encoder holds `held`: it offers the records `rs`, at most one, to the sink, and
leaves the registers `e`. -/
structure EncodesByte (b : Byte) (s : State) (held : List Byte) (rs : List Record) (e : EncRegs) : Prop where
  short : rs.length ≤ 1
  byEncoder : ∀ r ∈ rs, r.byEncoder = true
  offers : Offers (.encByte b) s (rs.flatMap Record.bytes) (rs.flatMap Record.bytes).length
    (s.encoded (rs.flatMap Record.bytes) e)
  held : ∃ held', e.Holds held' ∧ held ++ [b] = rs.flatMap Record.expand ++ held'
  buffer : Memory.wf s.enc.blockBuffer = true → Memory.wf e.blockBuffer = true

/-- A command that takes no draw offers nothing. -/
theorem offers_nil {i : Instr} {s after : State} (h : exec i s = .next after) : Offers i s [] 0 after :=
  ⟨fun _ => h, fun j hj => absurd hj (Nat.not_lt_zero j)⟩

theorem State.encoded_nil (s : State) (e : EncRegs) : s.encoded [] e = { s with enc := e } := by
  simp [State.encoded]

section
variable {s : State} {held : List Byte} {n : Count} {b p : Byte} (ha : s.sess = .active) (hc : s.smode = .compress)
include ha hc

/-- R66. -/
theorem encodesByte_pair (hm : s.enc.mode = some .accumulating) (hn : s.enc.runCount = some n)
    (hlen : (held ++ [b]).length = n.toNat) (hmax : n.toNat ≤ 126) (hcells : CellsHold s.enc.blockBuffer (held ++ [b]))
    (hp : s.enc.pendingByte = some b) :
    EncodesByte b s (held ++ [b]) (literalRecords held)
      { s.enc with mode := some .repeating, runCount := some 2#7, pendingByte := some b } := by
  rw [List.length_append, List.length_singleton] at hlen
  refine ⟨literalRecords_length held, literalRecords_byEncoder (by omega), ?_, ⟨[b, b], ?_, ?_⟩, id⟩
  · rw [literalRecords_bytes]
    exact encBytePairStartsARun b n held s ha hc hm hn (by omega) hmax hp (by omega) hcells.left
  · exact .run 2#7 b rfl rfl (Nat.le_refl 2) (by decide) rfl rfl
  · rw [literalRecords_expand, List.append_assoc, List.singleton_append]

/-- R67. -/
theorem encodesByte_append (hm : s.enc.mode = some .accumulating) (hn : s.enc.runCount = some n)
    (hlen : held.length = n.toNat) (hmax : n.toNat < 126) (hcells : CellsHold s.enc.blockBuffer held)
    (hp : n = 0#7 ∨ ∃ p, s.enc.pendingByte = some p ∧ p ≠ b) :
    EncodesByte b s held []
      { mode := some .accumulating, runCount := some (n + 1#7), pendingByte := some b,
        blockBuffer := Memory.write s.enc.blockBuffer n.toNat b } := by
  obtain ⟨hexec, hcount, -, -⟩ := encByteAppendsALiteral b n s ha hc hm hn hmax hp
  refine ⟨Nat.zero_le 1, List.forall_mem_nil _, ?_, ⟨held ++ [b], ?_, rfl⟩, fun hwf => Memory.wf_write b hwf ?_⟩
  · rw [List.flatMap_nil, State.encoded_nil]
    exact offers_nil hexec
  · refine .block (n + 1#7) rfl rfl ?_ (by omega) (hlen ▸ hcells.write b) fun _ => ?_
    · rw [hcount, List.length_append, hlen, List.length_singleton]
    · rw [List.getLast?_concat]
  · exact Nat.lt_of_lt_of_le hmax (by decide)

/-- R68. -/
theorem encodesByte_full (hm : s.enc.mode = some .accumulating) (hn : s.enc.runCount = some 126#7)
    (hlen : held.length = 126) (hcells : CellsHold s.enc.blockBuffer held) (hp : s.enc.pendingByte = some p)
    (hne : b ≠ p) :
    EncodesByte b s held [.lit (held ++ [b])]
      { mode := some .accumulating, runCount := some 0#7, pendingByte := some b,
        blockBuffer := Memory.write s.enc.blockBuffer 126 b } := by
  have hlen' : (held ++ [b]).length = 127 := by rw [List.length_append, hlen, List.length_singleton]
  have hbytes : [Record.lit (held ++ [b])].flatMap Record.bytes = 0x7F#8 :: (held ++ [b]) := by
    rw [List.flatMap_singleton, Record.bytes, hlen']
  refine ⟨Nat.le_refl 1, literal_byEncoder (by omega) (by omega), ?_, ⟨[], EncRegs.holds_nil rfl rfl, ?_⟩,
    fun hwf => Memory.wf_write b hwf (by decide)⟩
  · obtain ⟨hoffers, -, -⟩ := encByteFullBlockIsFlushed b p held s ha hc hm hn hp hne hlen hcells
    rw [hbytes, State.encoded, List.length_cons, hlen']
    exact hoffers
  · rw [List.flatMap_singleton, Record.expand, List.append_nil]

/-- R69. -/
theorem encodesByte_extend (hm : s.enc.mode = some .repeating) (hn : s.enc.runCount = some n) (hmin : 2 ≤ n.toNat)
    (hmax : n.toNat < 126) (hp : s.enc.pendingByte = some b) :
    EncodesByte b s (List.replicate n.toNat b) [] { s.enc with runCount := some (n + 1#7) } := by
  obtain ⟨hexec, hcount⟩ := encByteExtendsARun b n s ha hc hm hn hmin hmax hp
  refine ⟨Nat.zero_le 1, List.forall_mem_nil _, ?_, ⟨_, .run (n + 1#7) b hm rfl (by omega) (by omega) hp rfl, ?_⟩, id⟩
  · rw [List.flatMap_nil, State.encoded_nil]
    exact offers_nil hexec
  · rw [hcount, List.replicate_succ', List.flatMap_nil, List.nil_append]

/-- R70. -/
theorem encodesByte_repFull (hm : s.enc.mode = some .repeating) (hn : s.enc.runCount = some 126#7)
    (hp : s.enc.pendingByte = some b) :
    EncodesByte b s (List.replicate 126 b) [.run 127 b]
      { s.enc with mode := some .accumulating, runCount := some 0#7 } := by
  refine ⟨Nat.le_refl 1, run_byEncoder (by decide) (by decide), encByteFullRunIsFlushed b s ha hc hm hn hp,
    ⟨[], EncRegs.holds_nil rfl rfl, ?_⟩, id⟩
  rw [List.flatMap_singleton, Record.expand, List.append_nil, List.replicate_succ' (n := 126)]

/-- R71. -/
theorem encodesByte_break (hm : s.enc.mode = some .repeating) (hn : s.enc.runCount = some n) (hmin : 2 ≤ n.toNat)
    (hmax : n.toNat ≤ 126) (hp : s.enc.pendingByte = some p) (hne : b ≠ p) :
    EncodesByte b s (List.replicate n.toNat p) [.run n.toNat p]
      { mode := some .accumulating, runCount := some 1#7, pendingByte := some b,
        blockBuffer := Memory.write s.enc.blockBuffer 0 b } := by
  obtain ⟨hoffers, -, -⟩ := encByteBreaksARun b p n s ha hc hm hn hmin hmax hp hne
  refine ⟨Nat.le_refl 1, run_byEncoder hmin (by omega), hoffers, ⟨[b], ?_, ?_⟩,
    fun hwf => Memory.wf_write b hwf (by decide)⟩
  · exact .block 1#7 rfl rfl rfl (by decide) ((CellsHold.nil _).write b) fun _ => rfl
  · rw [List.flatMap_singleton, Record.expand]

/-- R65: ENC.BYTE takes one of its six cases. -/
theorem exists_encodesByte (b : Byte) (h : s.enc.Holds held) : ∃ rs e, EncodesByte b s held rs e := by
  cases h with
  | block n hm hn hlen hmax hcells hlast =>
    rcases List.eq_nil_or_concat' held with rfl | ⟨ds, p, rfl⟩
    · have hzero : n = 0#7 := BitVec.eq_of_toNat_eq hlen.symm
      exact ⟨_, _, encodesByte_append ha hc hm hn hlen (by rw [← hlen]; decide) hcells (.inl hzero)⟩
    · have hp : s.enc.pendingByte = some p := by rw [hlast (by simp), List.getLast?_concat]
      by_cases hbp : b = p
      · subst hbp
        exact ⟨_, _, encodesByte_pair ha hc hm hn hlen hmax hcells hp⟩
      · by_cases hfull : n.toNat < 126
        · exact ⟨_, _, encodesByte_append ha hc hm hn hlen hfull hcells (.inr ⟨p, hp, Ne.symm hbp⟩)⟩
        · have hn126 : n = 126#7 := BitVec.eq_of_toNat_eq (Nat.le_antisymm hmax (Nat.le_of_not_lt hfull))
          subst hn126
          exact ⟨_, _, encodesByte_full ha hc hm hn hlen hcells hp hbp⟩
  | run n p hm hn hmin hmax hp hheld =>
    subst hheld
    by_cases hbp : b = p
    · subst hbp
      by_cases hfull : n.toNat < 126
      · exact ⟨_, _, encodesByte_extend ha hc hm hn hmin hfull hp⟩
      · have hn126 : n = 126#7 := BitVec.eq_of_toNat_eq (Nat.le_antisymm hmax (Nat.le_of_not_lt hfull))
        subst hn126
        exact ⟨_, _, encodesByte_repFull ha hc hm hn hp⟩
    · exact ⟨_, _, encodesByte_break ha hc hm hn hmin hmax hp hbp⟩

/-! ### ENC.FIN -/

/-- R72: the final record, if any, is what the encoder holds. -/
theorem exists_encodesFin (h : s.enc.Holds held) :
    ∃ rs : List Record, rs.length ≤ 1 ∧ (∀ r ∈ rs, r.byEncoder = true) ∧ rs.flatMap Record.expand = held ∧
      Offers .encFin s (rs.flatMap Record.bytes) ((rs.flatMap Record.bytes).length + 1)
        (s.encFinished (rs.flatMap Record.bytes)) := by
  cases h with
  | block n hm hn hlen hmax hcells hlast =>
    exact ⟨literalRecords held, literalRecords_length held, literalRecords_byEncoder (by omega),
      literalRecords_expand held, offers_encFin_literal ha hc hm hn hmax hlen hcells⟩
  | run n p hm hn hmin hmax hp hheld =>
    refine ⟨[.run n.toNat p], Nat.le_refl 1, run_byEncoder hmin (by omega), ?_,
      offers_encFin_run ha hc hm hn hmin hmax hp⟩
    rw [List.flatMap_singleton, Record.expand, hheld]

end

end Sys2Proof.Machine
end

section
/-! PROOFS. What a command word does, by the session (R84 to R90), and what a step of the host's next event does (R84,
R108). -/

namespace Sys2Proof

/-! ### The rows of the legal words -/

theorem decode_initWord (sess : Sess) (smode mode : SMode) :
    decode sess smode (initWord mode) = match mode with | .compress => .initC | .decompress => .initD := by
  cases mode <;> rfl

theorem decode_byteWord_compress (b : Byte) : decode .active .compress (byteWord b) = .encByte b := by
  simp [decode, byteWord, opOf_mkWord_one]

theorem decode_byteWord_decompress (b : Byte) : decode .active .decompress (byteWord b) = .decByte b := by
  simp [decode, byteWord, opOf_mkWord_one]

theorem decode_word_outside {sess : Sess} (smode : SMode) (h : sess ≠ .active) (c : SessionCommand) :
    decode sess smode c.word = .outsideSession c := by
  cases sess with
  | active => exact absurd rfl h
  | idle | done | faulted =>
    cases c with
    | byte b => simp [decode, SessionCommand.word, byteWord, opOf_mkWord_one]
    | fin | srcfault => rfl

theorem legalInit_initWord (mode : SMode) : legalInit (initWord mode) = true := by
  cases mode <;> decide

theorem legalInit_byteWord (b : Byte) : legalInit (byteWord b) = false := by
  simp [legalInit, byteWord, opOf_mkWord_one]

end Sys2Proof

namespace Sys2Proof.Machine

/-! ### Commands, by the session -/

theorem illegal_cases {s t : State} (h : illegal s = .next t) : t = s ∨ t = faultEntry .illegalCommand s := by
  rw [illegal_eq] at h
  split at h
  · exact .inl (Host.Outcome.next.inj h).symm
  · exact .inr (Host.Outcome.next.inj h).symm

/-- R89, R90: outside a session BYTE, FIN and SRCFAULT do what an illegal word does. -/
theorem exec_outsideSession {s : State} (c : SessionCommand) (h : s.sess ≠ .active) :
    exec (.outsideSession c) s = illegal s := by
  cases hs : s.sess with
  | active => exact absurd hs h
  | idle | done | faulted => simp [exec, execOutsideSession, illegal, hs]

theorem exec_srcfault {s : State} (h : s.sess = .active) : exec .srcfault s = .next (faultEntry .readFault s) :=
  if_pos h

theorem exec_initWord (mode : SMode) (s : State) :
    exec (instrOf s (initWord mode)) s = .next (initSession mode s) := by
  rw [instrOf, decode_initWord]
  cases mode <;> rfl

/-- What a command word can be in a state: INIT, a word that faults or is ignored, SRCFAULT in a session, or a command
of the session's engine. -/
inductive CommandCases (w : CommandWord) (s : State) : Prop where
  | init (mode : SMode) (hw : w = initWord mode) (h : exec (instrOf s w) s = .next (initSession mode s))
  | illegal (h : exec (instrOf s w) s = illegal s)
  | srcfault (ha : s.sess = .active) (h : exec (instrOf s w) s = .next (faultEntry .readFault s))
  | compress (ha : s.sess = .active) (hc : s.smode = .compress)
      (hi : instrOf s w = .encFin ∨ ∃ b, instrOf s w = .encByte b)
  | decompress (ha : s.sess = .active) (hd : s.smode = .decompress)
      (hi : instrOf s w = .decFin ∨ ∃ b, instrOf s w = .decByte b)

theorem commandCases_word (c : SessionCommand) (s : State) : CommandCases c.word s := by
  by_cases ha : s.sess = .active
  · cases c with
    | byte b =>
      cases hm : s.smode with
      | compress => exact .compress ha hm (.inr ⟨b, by rw [instrOf, ha, hm]; exact decode_byteWord_compress b⟩)
      | decompress => exact .decompress ha hm (.inr ⟨b, by rw [instrOf, ha, hm]; exact decode_byteWord_decompress b⟩)
    | fin =>
      cases hm : s.smode with
      | compress => exact .compress ha hm (.inl (by rw [instrOf, ha, hm]; rfl))
      | decompress => exact .decompress ha hm (.inl (by rw [instrOf, ha, hm]; rfl))
    | srcfault =>
      have hi : instrOf s SessionCommand.srcfault.word = .srcfault := by rw [instrOf, ha]; rfl
      exact .srcfault ha (by rw [hi, exec_srcfault ha])
  · exact .illegal (by rw [instrOf, decode_word_outside _ ha, exec_outsideSession c ha])

theorem commandCases (w : CommandWord) (s : State) : CommandCases w s := by
  by_cases hillegal : illegalWord w = true
  · exact .illegal (exec_instrOf_of_illegalWord s hillegal)
  · rcases legal_word_cases hillegal with rfl | rfl | ⟨b, rfl⟩ | rfl | rfl
    · exact .init .compress rfl (exec_initWord _ s)
    · exact .init .decompress rfl (exec_initWord _ s)
    · exact commandCases_word (.byte b) s
    · exact commandCases_word .fin s
    · exact commandCases_word .srcfault s

/-- R90. -/
theorem exec_instrOf_of_faulted {w : CommandWord} {s : State} (hs : s.sess = .faulted) (hw : legalInit w = false) :
    exec (instrOf s w) s = .next s := by
  cases commandCases w s with
  | init mode hinit => rw [hinit, legalInit_initWord] at hw; cases hw
  | illegal h => rw [h, illegal_eq, if_pos hs]
  | srcfault ha | compress ha | decompress ha => rw [hs] at ha; cases ha

/-! ### One step -/

theorem step_command {s : State} {w : CommandWord} {es : List HostEvent} (h : s.port.pending = .command w :: es) :
    step s = exec (instrOf (s.setPending es) w) (s.setPending es) := by
  simp only [step, h, runEvent]

/-- A property that every event keeps is kept by every step, since the host's port is no part of it. -/
theorem step_induction {P : State → Prop} {s t : State} (hs : P s) (hstep : step s = .next t)
    (hpending : ∀ es, P s → P (s.setPending es)) (hreset : ∀ s, P s → P (hardwareReset s))
    (hcommand : ∀ s w t, P s → exec (instrOf s w) s = .next t → P t) : P t := by
  unfold step at hstep
  split at hstep
  · cases hstep
    exact hs
  · next e es _ =>
    cases e with
    | command w => exact hcommand _ w t (hpending es hs) hstep
    | reset =>
      cases hstep
      exact hreset _ (hpending es hs)

end Sys2Proof.Machine
end

section
/-! PROOFS. The decoder's commands, by its phase (R76 to R82), and that they keep its invariant (R29). -/

namespace Sys2Proof.Machine

/-- The state after a command that puts out `bs`, a draw for each byte, and leaves these decoder registers. -/
def State.decoded (s : State) (bs : List Byte) (d : DecRegs) : State :=
  { (s.drawn bs.length) with out := s.out ++ bs, dec := d }

theorem State.decoded_nil (s : State) (d : DecRegs) : s.decoded [] d = { s with dec := d } := by
  simp [State.decoded]

/-- DEC.BYTE of `b` puts out `bs` and leaves the registers `d`. -/
abbrev DecodesByte (b : Byte) (s : State) (bs : List Byte) (d : DecRegs) : Prop :=
  Offers (.decByte b) s bs bs.length (s.decoded bs d)

/-- The phase in which a record of this kind is read. -/
def payloadPhase : Kind → Phase
  | .literal => .readingBlockBytes
  | .runLength => .readingRunByte

/-- The remaining count of a block, one byte later (R81). -/
def DecRegs.afterBlockByte (d : DecRegs) (n : Count) : DecRegs :=
  if n - 1#7 = 0#7 then { phase := some .awaitingStatus, remaining := some 0#7 }
  else { d with remaining := some (n - 1#7) }

theorem emitAll_singleton (b : Byte) (s : State) : emitAll [b] s = emit b s :=
  Flow.andThen_done _

section
variable {s : State} {b : Byte} {n : Count} (ha : s.sess = .active) (hd : s.smode = .decompress)
include ha hd

/-- R79. -/
theorem decodesByte_nop {kind : Kind} (hp : s.dec.phase = some .awaitingStatus) (hb : decodeStatus b = (kind, 0#7)) :
    DecodesByte b s [] s.dec := by
  rw [DecodesByte, State.decoded_nil]
  refine offers_nil ?_
  rw [exec_decByte b ha hd, decByte_awaiting b hp, decStatus, hb]
  rfl

/-- R77, R78. -/
theorem decodesByte_status {kind : Kind} (hp : s.dec.phase = some .awaitingStatus) (hb : decodeStatus b = (kind, n))
    (hn : n ≠ 0#7) : DecodesByte b s [] { phase := some (payloadPhase kind), remaining := some n } := by
  rw [DecodesByte, State.decoded_nil]
  refine offers_nil ?_
  rw [exec_decByte b ha hd, decByte_awaiting b hp, decStatus, hb]
  cases kind <;> simp only [if_neg hn] <;> rfl

/-- R80. -/
theorem decodesByte_runByte (hp : s.dec.phase = some .readingRunByte) (hr : s.dec.remaining = some n)
    (hn : 1 ≤ n.toNat) :
    DecodesByte b s (List.replicate n.toNat b) { s.dec with phase := some .awaitingStatus } :=
  offers_of_emitAll (by rw [exec_decByte b ha hd, decByte_runByte b hp, decRunByte, readingRemaining_some _ hr hn]) rfl

/-- R81. -/
theorem decodesByte_blockByte (hp : s.dec.phase = some .readingBlockBytes) (hr : s.dec.remaining = some n)
    (hn : 1 ≤ n.toNat) : DecodesByte b s [b] (s.dec.afterBlockByte n) := by
  refine offers_of_emitAll (by rw [exec_decByte b ha hd, decByte_blockByte b hp, decBlockByte,
    readingRemaining_some _ hr hn, ← emitAll_singleton]) ?_
  rw [decrement_of_pos _ hn, DecRegs.afterBlockByte]
  by_cases h : n - 1#7 = 0#7
  · simp only [h, if_true]
    rfl
  · simp only [if_neg h]
    rfl

/-- DEC.BYTE keeps R29. -/
theorem exists_decodesByte (b : Byte) (h : DecoderInv s.dec) : ∃ bs d, DecodesByte b s bs d ∧ DecoderInv d := by
  obtain ⟨phase, hp, hremaining⟩ := h
  cases phase with
  | awaitingStatus =>
    obtain ⟨⟨kind, n⟩, hb⟩ : ∃ x, decodeStatus b = x := ⟨_, rfl⟩
    by_cases hn : n = 0#7
    · exact ⟨_, _, decodesByte_nop ha hd hp (hn ▸ hb), _, hp, fun h => absurd rfl h⟩
    · exact ⟨_, _, decodesByte_status ha hd hp hb hn, _, rfl, fun _ => ⟨n, rfl, by bv_omega⟩⟩
  | readingRunByte =>
    obtain ⟨n, hr, hn⟩ := hremaining (by decide)
    exact ⟨_, _, decodesByte_runByte ha hd hp hr hn, _, rfl, fun h => absurd rfl h⟩
  | readingBlockBytes =>
    obtain ⟨n, hr, hn⟩ := hremaining (by decide)
    refine ⟨_, _, decodesByte_blockByte ha hd hp hr hn, ?_⟩
    unfold DecRegs.afterBlockByte
    split
    · exact ⟨_, rfl, fun h => absurd rfl h⟩
    · exact ⟨_, hp, fun _ => ⟨_, rfl, by bv_omega⟩⟩

/-- R82, at a record boundary. -/
theorem offers_decFin (hp : s.dec.phase = some .awaitingStatus) :
    Offers .decFin s [] 1 (sessionDone (s.drawn 1)) := by
  have hexec : exec .decFin s =
      finish ((emitAll [] s).andThen fun s => (sinkFlush s).andThen fun s => .done (sessionDone s)) := by
    simp only [exec_decFin ha hd, decFin, hp, reading_some, emitAll, Flow.done_andThen]
  exact offers_of_emitAll_flush hexec (by simp)

/-- R82, R99, inside a record. -/
theorem exec_decFin_truncated {phase : Phase} (hp : s.dec.phase = some phase) (hne : phase ≠ .awaitingStatus) :
    exec .decFin s = .next (faultEntry .truncatedStream s) := by
  rw [exec_decFin ha hd, decFin, hp, reading_some]
  cases phase with
  | awaitingStatus => exact absurd rfl hne
  | readingRunByte | readingBlockBytes => rfl

end

end Sys2Proof.Machine
end

section
/-! PROOFS. Every step keeps the invariant (R28, R29, R17, R19, R35, R97) and the encoder's stream of records (R73). -/

namespace Sys2Proof.Machine

/-! ### The states that a command can leave -/

theorem Inv.setPending {s : State} (hs : Inv s) (es : List HostEvent) : Inv (s.setPending es) :=
  ⟨hs.buffer, hs.err, hs.compress, hs.decompress, hs.idle, hs.finished, hs.faulted⟩

theorem Inv.err_eq_none {s : State} (hs : Inv s) (h : s.sess = .active) : s.err = none :=
  hs.err.mpr (by rw [h]; decide)

theorem Inv.exists_holds {s : State} (hs : Inv s) (ha : s.sess = .active) (hc : s.smode = .compress) :
    ∃ held, s.enc.Holds held :=
  (encoderInv_iff_holds s.enc).mp (hs.compress ha hc).1

/-- Only the engine that `smode` selects has an invariant of its own in an ACTIVE session (R32). -/
theorem Inv.of_active_compress {s : State} (ha : s.sess = .active) (hc : s.smode = .compress) (herr : s.err = none)
    (hbuffer : Memory.wf s.enc.blockBuffer = true) (henc : EncoderInv s.enc) (hdec : s.dec = .fresh) : Inv s where
  buffer := hbuffer
  err := by simp [herr, ha]
  compress _ _ := ⟨henc, hdec⟩
  decompress _ hd := by simp [hc] at hd
  idle h := by simp [ha] at h
  finished h := by simp [ha] at h
  faulted h := by simp [ha] at h

theorem Inv.of_active_decompress {s : State} (ha : s.sess = .active) (hd : s.smode = .decompress) (herr : s.err = none)
    (hdec : DecoderInv s.dec) (henc : s.enc = .fresh) : Inv s where
  buffer := by rw [henc]; exact Memory.wf_zeros
  err := by simp [herr, ha]
  compress _ hc := by simp [hd] at hc
  decompress _ _ := ⟨hdec, henc⟩
  idle h := by simp [ha] at h
  finished h := by simp [ha] at h
  faulted h := by simp [ha] at h

theorem inv_faultEntry (kind : FaultKind) (s : State) : Inv (faultEntry kind s) where
  buffer := Memory.wf_nil
  err := by simp
  compress h := by simp at h
  decompress h := by simp at h
  idle h := by simp at h
  finished h := by simp at h
  faulted _ := ⟨rfl, rfl⟩

theorem encoderInv_fresh : EncoderInv .fresh :=
  (encoderInv_iff_holds _).mpr ⟨[], EncRegs.holds_nil rfl rfl⟩

theorem decoderInv_fresh : DecoderInv .fresh :=
  ⟨.awaitingStatus, rfl, fun h => absurd rfl h⟩

theorem inv_initSession (mode : SMode) (s : State) : Inv (initSession mode s) := by
  cases mode with
  | compress => exact .of_active_compress rfl rfl rfl Memory.wf_zeros encoderInv_fresh rfl
  | decompress => exact .of_active_decompress rfl rfl rfl decoderInv_fresh rfl

theorem inv_hardwareReset (s : State) : Inv (hardwareReset s) where
  buffer := Memory.wf_zeros
  err := by simp
  compress h := by simp at h
  decompress h := by simp at h
  idle _ := ⟨rfl, rfl, rfl, rfl⟩
  finished h := by simp at h
  faulted h := by simp at h

/-- DONE: no engine holds data, and the entry `.finished` is the sink's content (R42, R72, R82). -/
theorem Inv.of_done {s : State} (hdone : s.sess = .done) (herr : s.err = none)
    (hbuffer : Memory.wf s.enc.blockBuffer = true) (hmode : s.enc.mode = some .accumulating)
    (hcount : s.enc.runCount = some 0#7) (hphase : s.dec.phase = some .awaitingStatus) {mode : SMode}
    {log : List LogEntry} (hlog : s.log = .finished mode s.out :: log) : Inv s where
  buffer := hbuffer
  err := by simp [herr, hdone]
  compress h := by simp [hdone] at h
  decompress h := by simp [hdone] at h
  idle h := by simp [hdone] at h
  finished _ := ⟨hmode, hcount, hphase, by rw [State.sinkContent, hlog]; rfl⟩
  faulted h := by simp [hdone] at h

/-! ### The engines' commands -/

/-- R65, R72, R73: a command of a compress session puts out at most one record, and keeps the session and the invariant,
if the sink rejects none of its draws. -/
theorem exec_encoder_cases {i : Instr} {s t : State} (hs : Inv s) (ha : s.sess = .active) (hc : s.smode = .compress)
    (hi : i = .encFin ∨ ∃ b, i = .encByte b) (hexec : exec i s = .next t) :
    (∃ s', t = faultEntry .writeFault s') ∨
    Inv t ∧ t.smode = .compress ∧ ∃ rs : List Record,
      rs.length ≤ 1 ∧ (∀ r ∈ rs, r.byEncoder = true) ∧ t.out = s.out ++ rs.flatMap Record.bytes := by
  obtain ⟨held, hheld⟩ := hs.exists_holds ha hc
  have hfresh : s.dec = .fresh := (hs.compress ha hc).2
  rcases hi with rfl | ⟨b, rfl⟩
  · obtain ⟨rs, hshort, hrs, -, hoffers⟩ := exists_encodesFin ha hc hheld
    rcases hoffers.cases with h | ⟨j, -, h⟩ <;> obtain rfl := Host.Outcome.next.inj (hexec.symm.trans h)
    · refine .inr ⟨?_, hc, rs, hshort, hrs, rfl⟩
      exact .of_done rfl (hs.err_eq_none ha) hs.buffer rfl rfl (congrArg DecRegs.phase hfresh) rfl
    · exact .inl ⟨_, rfl⟩
  · obtain ⟨rs, e, heffect⟩ := exists_encodesByte ha hc b hheld
    obtain ⟨held', hheld', -⟩ := heffect.held
    rcases heffect.offers.cases with h | ⟨j, -, h⟩ <;> obtain rfl := Host.Outcome.next.inj (hexec.symm.trans h)
    · refine .inr ⟨?_, hc, rs, heffect.short, heffect.byEncoder, rfl⟩
      exact .of_active_compress ha hc (hs.err_eq_none ha) (heffect.buffer hs.buffer)
        ((encoderInv_iff_holds e).mpr ⟨held', hheld'⟩) hfresh
    · exact .inl ⟨_, rfl⟩

/-- R76, R82: a command of a decompress session keeps the mode and the invariant, or faults. -/
theorem exec_decoder_cases {i : Instr} {s t : State} (hs : Inv s) (ha : s.sess = .active) (hd : s.smode = .decompress)
    (hi : i = .decFin ∨ ∃ b, i = .decByte b) (hexec : exec i s = .next t) : Inv t ∧ t.smode = .decompress := by
  obtain ⟨hdec, henc⟩ := hs.decompress ha hd
  rcases hi with rfl | ⟨b, rfl⟩
  · obtain ⟨phase, hp, -⟩ := hdec
    by_cases hphase : phase = .awaitingStatus
    · subst hphase
      rcases (offers_decFin ha hd hp).cases with h | ⟨j, -, h⟩ <;>
        obtain rfl := Host.Outcome.next.inj (hexec.symm.trans h)
      · have hmode : s.enc.mode = some .accumulating := congrArg EncRegs.mode henc
        have hcount : s.enc.runCount = some 0#7 := congrArg EncRegs.runCount henc
        exact ⟨.of_done rfl (hs.err_eq_none ha) hs.buffer hmode hcount hp rfl, hd⟩
      · exact ⟨inv_faultEntry _ _, hd⟩
    · obtain rfl := Host.Outcome.next.inj (hexec.symm.trans (exec_decFin_truncated ha hd hp hphase))
      exact ⟨inv_faultEntry _ _, hd⟩
  · obtain ⟨bs, d, hoffers, hd'⟩ := exists_decodesByte ha hd b hdec
    rcases hoffers.cases with h | ⟨j, -, h⟩ <;> obtain rfl := Host.Outcome.next.inj (hexec.symm.trans h)
    · exact ⟨.of_active_decompress ha hd (hs.err_eq_none ha) hd' henc, hd⟩
    · exact ⟨inv_faultEntry _ _, hd⟩

/-! ### Every step -/

theorem exec_keeps_inv {w : CommandWord} {s t : State} (hs : Inv s) (hexec : exec (instrOf s w) s = .next t) :
    Inv t := by
  cases commandCases w s with
  | init mode _ h =>
    obtain rfl := Host.Outcome.next.inj (hexec.symm.trans h)
    exact inv_initSession mode s
  | illegal h =>
    rcases illegal_cases (h.symm.trans hexec) with rfl | rfl
    · exact hs
    · exact inv_faultEntry _ _
  | srcfault _ h =>
    obtain rfl := Host.Outcome.next.inj (hexec.symm.trans h)
    exact inv_faultEntry _ _
  | compress ha hc hi =>
    rcases exec_encoder_cases hs ha hc hi hexec with ⟨s', rfl⟩ | ⟨ht, -⟩
    · exact inv_faultEntry _ _
    · exact ht
  | decompress ha hd hi => exact (exec_decoder_cases hs ha hd hi hexec).1

/-- Settles O44: a reset, INIT and fault entry leave the invariant whatever was before, and the engines' commands keep
their own. -/
theorem stepKeepsTheInvariant : Obligations.StepKeepsTheInvariant :=
  fun _ _ hs hstep => step_induction hs hstep (fun es hs => hs.setPending es) (fun s _ => inv_hardwareReset s)
    fun _ _ _ => exec_keeps_inv

/-! ### The encoder's stream -/

theorem encoderStream_of_faulted {s : State} (h : s.sess = .faulted) : EncoderStream s := by
  intro hsess
  simp [h] at hsess

theorem encoderStream_of_decompress {s : State} (h : s.smode = .decompress) : EncoderStream s := by
  intro _ hc
  simp [h] at hc

theorem encoderStream_of_out_nil {s : State} (h : s.out = []) : EncoderStream s :=
  fun _ _ => ⟨[], List.forall_mem_nil _, h⟩

theorem EncoderStream.append {s t : State} {rs : List Record} (hs : EncoderStream s) (ha : s.sess = .active)
    (hc : s.smode = .compress) (hrs : ∀ r ∈ rs, r.byEncoder = true) (hout : t.out = s.out ++ rs.flatMap Record.bytes) :
    EncoderStream t := by
  obtain ⟨rs₀, hrs₀, hout₀⟩ := hs (.inl ha) hc
  refine fun _ _ => ⟨rs₀ ++ rs, fun r hr => ?_, by rw [hout, hout₀, List.flatMap_append]⟩
  exact (List.mem_append.mp hr).elim (hrs₀ r) (hrs r)

theorem exec_keeps_encoderStream {w : CommandWord} {s t : State} (hs : Inv s) (hstream : EncoderStream s)
    (hexec : exec (instrOf s w) s = .next t) : EncoderStream t := by
  cases commandCases w s with
  | init mode _ h =>
    obtain rfl := Host.Outcome.next.inj (hexec.symm.trans h)
    exact encoderStream_of_out_nil rfl
  | illegal h =>
    rcases illegal_cases (h.symm.trans hexec) with rfl | rfl
    · exact hstream
    · exact encoderStream_of_faulted rfl
  | srcfault _ h =>
    obtain rfl := Host.Outcome.next.inj (hexec.symm.trans h)
    exact encoderStream_of_faulted rfl
  | compress ha hc hi =>
    rcases exec_encoder_cases hs ha hc hi hexec with ⟨s', rfl⟩ | ⟨-, -, rs, -, hrs, hout⟩
    · exact encoderStream_of_faulted rfl
    · exact hstream.append ha hc hrs hout
  | decompress ha hd hi => exact encoderStream_of_decompress (exec_decoder_cases hs ha hd hi hexec).2

/-- Settles O46: each command of a compress session appends at most one record of the encoder's lengths to `out`, and
every other step leaves `out` as it is, empties it, or leaves the compress session. -/
theorem encoderEmitsBoundedRecords : Obligations.EncoderEmitsBoundedRecords := by
  refine ⟨fun s t hs hstream hstep => ?_, fun i s t hs ha hc hi hexec hsess => ?_⟩
  · have hboth : Inv t ∧ EncoderStream t := step_induction (P := fun s => Inv s ∧ EncoderStream s) ⟨hs, hstream⟩ hstep
      (fun es h => ⟨h.1.setPending es, h.2⟩)
      (fun s _ => ⟨inv_hardwareReset s, encoderStream_of_out_nil rfl⟩)
      fun _ _ _ h hexec => ⟨exec_keeps_inv h.1 hexec, exec_keeps_encoderStream h.1 h.2 hexec⟩
    exact hboth.2
  · rcases exec_encoder_cases hs ha hc hi hexec with ⟨s', rfl⟩ | ⟨-, -, hrecords⟩
    · exact absurd rfl hsess
    · exact hrecords

end Sys2Proof.Machine
end

section
/-! PROOFS. Sessions as the host runs them, and the round trip (R75): the encoder's records expand to its input, and the
decoder puts out what the records of its input expand to. -/

namespace Sys2Proof.Machine

/-! ### Runs over the commands on the port -/

theorem core_run_succ_inv {s t : State} {k : Nat} (h : Sys2Proof.core.run (k + 1) s = .next t) :
    ∃ u, step s = .next u ∧ Sys2Proof.core.run k u = .next t := by
  cases hstep : step s with
  | next u => exact ⟨u, rfl, (core_run_succ k hstep).symm.trans h⟩
  | fault r | refused r =>
    have hstep' : Sys2Proof.core.step s = _ := hstep
    simp only [Host.Core.run, hstep'] at h
    cases h

/-- R90, over a run. -/
theorem run_of_faulted {ws : List CommandWord} {s t : State} (hs : s.sess = .faulted)
    (hpending : s.port.pending = ws.map .command) (hws : ∀ w ∈ ws, legalInit w = false)
    (hrun : Sys2Proof.core.run ws.length s = .next t) : t.sess = .faulted := by
  induction ws generalizing s with
  | nil =>
    obtain rfl := Host.Outcome.next.inj hrun
    exact hs
  | cons w ws ih =>
    obtain ⟨u, hstep, hrest⟩ := core_run_succ_inv hrun
    rw [step_command hpending, exec_instrOf_of_faulted (s := s.setPending (ws.map .command)) hs
      (hws w List.mem_cons_self)] at hstep
    obtain rfl := Host.Outcome.next.inj hstep
    exact ih (s := s.setPending (ws.map .command)) hs rfl (fun w hw => hws w (List.mem_cons_of_mem _ hw)) hrest

/-- In a run that does not end FAULTED, and that no INIT restarts, the sink has accepted what each command offered. -/
theorem run_of_offers {w : CommandWord} {ws : List CommandWord} {s t after : State} {i : Instr} {bs : List Byte}
    {draws : Nat} (hpending : s.port.pending = (w :: ws).map .command) (hi : instrOf s w = i)
    (hoffers : Offers i (s.setPending (ws.map .command)) bs draws after) (hws : ∀ w ∈ ws, legalInit w = false)
    (hrun : Sys2Proof.core.run (w :: ws).length s = .next t) (hsess : t.sess ≠ .faulted) :
    Sys2Proof.core.run ws.length after = .next t := by
  obtain ⟨u, hstep, hrest⟩ := core_run_succ_inv hrun
  have hexec : exec i (s.setPending (ws.map .command)) = .next u := by
    rw [← hstep, step_command hpending, ← hi]
    rfl
  rcases hoffers.cases with h | ⟨j, -, h⟩ <;> obtain rfl := Host.Outcome.next.inj (hexec.symm.trans h)
  · exact hrest
  · exact absurd (run_of_faulted rfl rfl hws hrest) hsess

/-- The command words of a session over these bytes, after its INIT (R58). -/
def sessionWords (bs : List Byte) : List CommandWord :=
  bs.map byteWord ++ [finWord]

theorem legalInit_of_mem_sessionWords {bs : List Byte} {w : CommandWord} (h : w ∈ sessionWords bs) :
    legalInit w = false := by
  rcases List.mem_append.mp h with h | h
  · obtain ⟨b, -, rfl⟩ := List.mem_map.mp h
    exact legalInit_byteWord b
  · rw [List.mem_singleton.mp h]
    decide

theorem run_of_init {mode : SMode} {ws : List CommandWord} {s t : State}
    (hrun : runCommands (initWord mode :: ws) s = .next t) :
    Sys2Proof.core.run ws.length (initSession mode (s.setPending (ws.map .command))) = .next t := by
  obtain ⟨u, hstep, hrest⟩ := core_run_succ_inv hrun
  rw [step_command rfl, exec_initWord] at hstep
  obtain rfl := Host.Outcome.next.inj hstep
  exact hrest

/-! ### Compress sessions -/

/-- The encoder has put out records that expand to the bytes it held and those that were to come. -/
theorem run_encoder {xs held : List Byte} {s t : State} (ha : s.sess = .active) (hc : s.smode = .compress)
    (hheld : s.enc.Holds held) (hpending : s.port.pending = (sessionWords xs).map .command)
    (hrun : Sys2Proof.core.run (sessionWords xs).length s = .next t) (hdone : t.sess = .done) :
    ∃ rs : List Record, (∀ r ∈ rs, r.byEncoder = true) ∧ t.out = s.out ++ rs.flatMap Record.bytes ∧
      rs.flatMap Record.expand = held ++ xs := by
  have hsess : t.sess ≠ .faulted := by rw [hdone]; decide
  induction xs generalizing s held with
  | nil =>
    have hi : instrOf s finWord = .encFin := by rw [instrOf, ha, hc]; rfl
    obtain ⟨rs, -, hrs, hexpand, hoffers⟩ := exists_encodesFin (s := s.setPending []) ha hc hheld
    obtain rfl := Host.Outcome.next.inj (run_of_offers hpending hi hoffers (List.forall_mem_nil _) hrun hsess)
    exact ⟨rs, hrs, rfl, by rw [hexpand, List.append_nil]⟩
  | cons x xs ih =>
    have hi : instrOf s (byteWord x) = .encByte x := by rw [instrOf, ha, hc, decode_byteWord_compress]
    obtain ⟨rs, e, heffect⟩ := exists_encodesByte
      (s := s.setPending ((sessionWords xs).map .command)) ha hc x hheld
    obtain ⟨held', hheld', hexpand⟩ := heffect.held
    have hrest := run_of_offers hpending hi heffect.offers (fun _ => legalInit_of_mem_sessionWords) hrun hsess
    obtain ⟨rs', hrs', hout', hexpand'⟩ := ih (s := (s.setPending ((sessionWords xs).map .command)).encoded _ e) ha hc
      hheld' rfl hrest
    refine ⟨rs ++ rs', fun r hr => ?_, ?_, ?_⟩
    · exact (List.mem_append.mp hr).elim (heffect.byEncoder r) (hrs' r)
    · rw [hout', List.flatMap_append, ← List.append_assoc]
      rfl
    · rw [List.flatMap_append, hexpand', ← List.append_assoc, ← hexpand, List.append_assoc, List.singleton_append]

theorem run_compress {xs : List Byte} {s t : State} (hrun : runCommands (AsmLine.compress xs).words s = .next t)
    (hdone : t.sess = .done) :
    ∃ rs : List Record, (∀ r ∈ rs, r.byEncoder = true) ∧ t.out = rs.flatMap Record.bytes ∧
      rs.flatMap Record.expand = xs :=
  run_encoder rfl rfl (EncRegs.holds_nil rfl rfl) rfl (run_of_init hrun) hdone

/-! ### Decompress sessions -/

theorem Record.bounded_of_byEncoder {r : Record} (h : r.byEncoder = true) : r.bounded = true := by
  cases r with
  | run n c =>
    simp only [Record.byEncoder, Record.bounded, decide_eq_true_eq] at h ⊢
    omega
  | lit ds => exact h

/-- From these registers the input `e` is the rest of the record that the decoder is in, if any, and whole records after
it, and the output to come for it is `xs`. -/
inductive DecRegs.Expects (d : DecRegs) (e xs : List Byte) : Prop where
  | boundary (rs : List Record) (hrs : ∀ r ∈ rs, r.bounded = true) (hp : d.phase = some .awaitingStatus)
      (he : e = rs.flatMap Record.bytes) (hxs : xs = rs.flatMap Record.expand)
  | run (n : Count) (c : Byte) (rs : List Record) (hrs : ∀ r ∈ rs, r.bounded = true)
      (hp : d.phase = some .readingRunByte) (hr : d.remaining = some n) (hn : 1 ≤ n.toNat)
      (he : e = c :: rs.flatMap Record.bytes) (hxs : xs = List.replicate n.toNat c ++ rs.flatMap Record.expand)
  | block (n : Count) (ds : List Byte) (rs : List Record) (hrs : ∀ r ∈ rs, r.bounded = true)
      (hp : d.phase = some .readingBlockBytes) (hr : d.remaining = some n) (hn : 1 ≤ n.toNat)
      (hlen : ds.length = n.toNat) (he : e = ds ++ rs.flatMap Record.bytes) (hxs : xs = ds ++ rs.flatMap Record.expand)

theorem DecRegs.Expects.at_end {d : DecRegs} {xs : List Byte} (h : d.Expects [] xs) :
    d.phase = some .awaitingStatus ∧ xs = [] := by
  cases h with
  | boundary rs hrs hp he hxs =>
    cases rs with
    | nil => exact ⟨hp, hxs⟩
    | cons r rs => cases r <;> simp [Record.bytes] at he
  | run n c rs hrs hp hr hn he => cases he
  | block n ds rs hrs hp hr hn hlen he =>
    have hnil : ds = [] := (List.append_eq_nil_iff.mp he.symm).1
    subst hnil
    rw [← hlen] at hn
    cases hn

/-- R77, R78: a status byte leaves the decoder in the record it begins. -/
theorem expects_payload (r : Record) {rs : List Record} (hr : r.bounded = true) (hrs : ∀ r ∈ rs, r.bounded = true) :
    ∃ b e kind n, r.bytes = b :: e ∧ decodeStatus b = (kind, n) ∧ n ≠ 0#7 ∧
      DecRegs.Expects { phase := some (payloadPhase kind), remaining := some n } (e ++ rs.flatMap Record.bytes)
        (r.expand ++ rs.flatMap Record.expand) := by
  cases r with
  | run n c =>
    simp only [Record.bounded, decide_eq_true_eq] at hr
    have hstatus : (BitVec.ofNat 8 (0x80 + n)).toNat = 0x80 + n := Nat.mod_eq_of_lt (by omega)
    have hcount : (BitVec.ofNat 7 n).toNat = n := Nat.mod_eq_of_lt (by omega)
    have hdecode := decodeStatus_of_run (b := BitVec.ofNat 8 (0x80 + n)) (by omega)
    rw [hstatus, Nat.add_sub_cancel_left] at hdecode
    refine ⟨_, _, _, _, rfl, hdecode, Count.ofNat_ne_zero hr.1 hr.2, ?_⟩
    exact .run _ c rs hrs rfl rfl (by omega) rfl (by rw [hcount, Record.expand])
  | lit ds =>
    simp only [Record.bounded, decide_eq_true_eq] at hr
    have hstatus : (BitVec.ofNat 8 ds.length).toNat = ds.length := Nat.mod_eq_of_lt (by omega)
    have hcount : (BitVec.ofNat 7 ds.length).toNat = ds.length := Nat.mod_eq_of_lt (by omega)
    have hdecode := decodeStatus_of_literal (b := BitVec.ofNat 8 ds.length) (by omega)
    rw [hstatus] at hdecode
    refine ⟨_, _, _, _, rfl, hdecode, Count.ofNat_ne_zero hr.1 hr.2, ?_⟩
    exact .block _ ds rs hrs rfl rfl (by omega) hcount.symm rfl rfl

theorem Count.sub_one_eq_zero_iff {n : Count} (h : 1 ≤ n.toNat) : n - 1#7 = 0#7 ↔ n.toNat = 1 := by
  bv_omega

/-- R81: one byte of a block later. -/
theorem expects_afterBlockByte {d : DecRegs} {n : Count} {ds : List Byte} {rs : List Record}
    (hrs : ∀ r ∈ rs, r.bounded = true) (hp : d.phase = some .readingBlockBytes) (hn : 1 ≤ n.toNat)
    (hlen : ds.length + 1 = n.toNat) :
    (d.afterBlockByte n).Expects (ds ++ rs.flatMap Record.bytes) (ds ++ rs.flatMap Record.expand) := by
  unfold DecRegs.afterBlockByte
  split
  · next hzero =>
    have hnil : ds = [] := List.eq_nil_of_length_eq_zero (by have := (Count.sub_one_eq_zero_iff hn).mp hzero; omega)
    subst hnil
    exact .boundary rs hrs rfl rfl rfl
  · next hne =>
    have hpred : (n - 1#7).toNat = ds.length := by rw [Count.toNat_pred hn]; omega
    have hpos : ds.length ≠ 0 := fun h => hne ((Count.sub_one_eq_zero_iff hn).mpr (by omega))
    exact .block (n - 1#7) ds rs hrs hp rfl (by omega) hpred.symm rfl rfl

/-- R76: DEC.BYTE of the next input byte puts out its part of the expected output and leaves the rest. -/
theorem exists_decodesByte_of_expects {b : Byte} {e xs : List Byte} {s : State} (ha : s.sess = .active)
    (hd : s.smode = .decompress) (h : s.dec.Expects (b :: e) xs) :
    ∃ bs d xs', DecodesByte b s bs d ∧ d.Expects e xs' ∧ xs = bs ++ xs' := by
  cases h with
  | boundary rs hrs hp he hxs =>
    cases rs with
    | nil => cases he
    | cons r rs =>
      obtain ⟨status, payload, kind, n, hbytes, hstatus, hn, hexpects⟩ := expects_payload r (hrs r List.mem_cons_self)
        fun r hr => hrs r (List.mem_cons_of_mem _ hr)
      rw [List.flatMap_cons, hbytes, List.cons_append] at he
      obtain ⟨rfl, rfl⟩ := List.cons.inj he
      exact ⟨_, _, _, decodesByte_status ha hd hp hstatus hn, hexpects, hxs⟩
  | run n c rs hrs hp hr hn he hxs =>
    obtain ⟨rfl, rfl⟩ := List.cons.inj he
    exact ⟨_, _, _, decodesByte_runByte ha hd hp hr hn, .boundary rs hrs rfl rfl rfl, hxs⟩
  | block n ds rs hrs hp hr hn hlen he hxs =>
    cases ds with
    | nil =>
      rw [← hlen] at hn
      cases hn
    | cons d ds =>
      obtain ⟨rfl, rfl⟩ := List.cons.inj he
      exact ⟨_, _, _, decodesByte_blockByte ha hd hp hr hn, expects_afterBlockByte hrs hp hn hlen, hxs⟩

theorem run_decoder {e xs : List Byte} {s t : State} (ha : s.sess = .active) (hd : s.smode = .decompress)
    (hexpects : s.dec.Expects e xs) (hpending : s.port.pending = (sessionWords e).map .command)
    (hrun : Sys2Proof.core.run (sessionWords e).length s = .next t) (hsess : t.sess ≠ .faulted) :
    t.out = s.out ++ xs := by
  induction e generalizing s xs with
  | nil =>
    have hi : instrOf s finWord = .decFin := by rw [instrOf, ha, hd]; rfl
    obtain ⟨hp, rfl⟩ := hexpects.at_end
    obtain rfl := Host.Outcome.next.inj (run_of_offers hpending hi (offers_decFin (s := s.setPending []) ha hd hp)
      (List.forall_mem_nil _) hrun hsess)
    exact (List.append_nil s.out).symm
  | cons b e ih =>
    have hi : instrOf s (byteWord b) = .decByte b := by rw [instrOf, ha, hd, decode_byteWord_decompress]
    obtain ⟨bs, d, xs', hoffers, hexpects', rfl⟩ := exists_decodesByte_of_expects
      (s := s.setPending ((sessionWords e).map .command)) ha hd hexpects
    have hrest := run_of_offers hpending hi hoffers (fun _ => legalInit_of_mem_sessionWords) hrun hsess
    rw [ih (s := (s.setPending ((sessionWords e).map .command)).decoded bs d) ha hd hexpects' rfl hrest,
      ← List.append_assoc]
    rfl

theorem run_decompress {rs : List Record} {s t : State} (hrs : ∀ r ∈ rs, r.bounded = true)
    (hrun : runCommands (AsmLine.decompress (rs.flatMap Record.bytes)).words s = .next t) (hsess : t.sess ≠ .faulted) :
    t.out = rs.flatMap Record.expand :=
  run_decoder rfl rfl (.boundary rs hrs rfl rfl rfl) rfl (run_of_init hrun) hsess

/-! ### The round trip -/

theorem Record.expand_ne_nil {r : Record} (h : r.byEncoder = true) : r.expand ≠ [] := by
  cases r with
  | run n c =>
    simp only [Record.byEncoder, decide_eq_true_eq] at h
    simp only [Record.expand, ne_eq, List.replicate_eq_nil_iff]
    omega
  | lit ds =>
    simp only [Record.byEncoder, decide_eq_true_eq] at h
    exact List.ne_nil_of_length_pos h.1

/-- Settles O55: both sessions go through the same records, which expand to the input; and records that expand to
nothing are none. -/
theorem roundTrip : Obligations.RoundTrip := by
  refine ⟨fun xs s t v u hcompress ht hdecompress hu => ?_, fun s t hcompress ht => ?_⟩
  · obtain ⟨rs, hrs, hout, hexpand⟩ := run_compress hcompress ht
    rw [hout] at hdecompress
    rw [run_decompress (fun r hr => Record.bounded_of_byEncoder (hrs r hr)) hdecompress (by rw [hu]; decide), hexpand]
  · obtain ⟨rs, hrs, hout, hexpand⟩ := run_compress hcompress ht
    cases rs with
    | nil => exact hout
    | cons r rs => exact absurd (List.append_eq_nil_iff.mp hexpand).1 (Record.expand_ne_nil (hrs r List.mem_cons_self))

end Sys2Proof.Machine
end

section
/-! PROOFS. The decoder's rows (R76 to R81): DEC.BYTE does what the stream row of its byte does, so what is known of
DEC.BYTE in a phase holds of the row, and DEC.FIN (R82). -/

namespace Sys2Proof

/-! ### The status byte of a kind and a length -/

theorem decodeStatus_ofNat_literal (n : Count) : decodeStatus (BitVec.ofNat 8 n.toNat) = (.literal, n) := by
  rw [BitVec.ofNat_toNat, decodeStatus_literal]

theorem decodeStatus_ofNat_run (n : Count) : decodeStatus (BitVec.ofNat 8 (0x80 + n.toNat)) = (.runLength, n) := by
  have hstatus : (BitVec.ofNat 8 (0x80 + n.toNat)).toNat = 0x80 + n.toNat := Nat.mod_eq_of_lt (by omega)
  rw [decodeStatus_of_run (by omega), hstatus, Nat.add_sub_cancel_left, BitVec.ofNat_toNat, BitVec.setWidth_eq]

theorem decodeStream_of_literal {b : Byte} {n : Count} (hb : decodeStatus b = (.literal, n)) (hn : n ≠ 0#7) :
    decodeStream .awaitingStatus b = .stLit n := by
  simp only [decodeStream, hb, if_neg hn]

theorem decodeStream_of_run {b : Byte} {n : Count} (hb : decodeStatus b = (.runLength, n)) (hn : n ≠ 0#7) :
    decodeStream .awaitingStatus b = .stRun n := by
  simp only [decodeStream, hb, if_neg hn]

/-- R53, R54: a byte is its kind and its length. -/
theorem eq_of_decodeStatus_eq {b c : Byte} (h : decodeStatus b = decodeStatus c) : b = c := by
  rw [byte_of_decodeStatus b, h, ← byte_of_decodeStatus c]

end Sys2Proof

namespace Sys2Proof.Machine

/-- What a command offers to the sink is known by what `exec` answers. -/
theorem Offers.of_exec_eq {i j : Instr} {s after : State} {bs : List Byte} {draws : Nat}
    (h : Offers i s bs draws after) (hexec : exec j s = exec i s) : Offers j s bs draws after := by
  rwa [Offers, hexec]

theorem Offers.exec_eq_of_no_draw {i : Instr} {s after : State} {bs : List Byte} (h : Offers i s bs 0 after) :
    exec i s = .next after :=
  h.1 fun j hj => absurd hj (Nat.not_lt_zero j)

section
variable {s : State} {b : Byte} {n : Count} (ha : s.sess = .active) (hd : s.smode = .decompress)
include ha hd

/-- R76 at a status byte: the row is on its condition, and a row's length is not 0. -/
theorem exec_decByte_eq_status (hp : s.dec.phase = some .awaitingStatus) :
    exec (.decByte b) s = exec (decodeStream .awaitingStatus b) s := by
  obtain ⟨⟨kind, n⟩, hb⟩ : ∃ x, decodeStatus b = x := ⟨_, rfl⟩
  rw [exec_decByte b ha hd, decByte_awaiting b hp, decStatus, decodeStream, hb]
  by_cases hn : n = 0#7
  · cases kind <;> simp only [if_pos hn] <;> exact (streamRow_on _ _ ha hd hp).symm
  · cases kind <;> simp only [if_neg hn] <;> exact ((if_neg hn).trans (streamRow_on _ _ ha hd hp)).symm

/-- R76: the row of DEC.BYTE's byte does what DEC.BYTE does. -/
theorem exec_streamRow_eq_decByte {phase : Phase} {i : Instr} (hp : s.dec.phase = some phase)
    (hi : decodeStream phase b = i) : exec i s = exec (.decByte b) s := by
  subst hi
  cases phase with
  | awaitingStatus => exact (exec_decByte_eq_status ha hd hp).symm
  | readingRunByte =>
    rw [exec_decByte b ha hd, decByte_runByte b hp]
    exact streamRow_on _ _ ha hd hp
  | readingBlockBytes =>
    rw [exec_decByte b ha hd, decByte_blockByte b hp]
    exact streamRow_on _ _ ha hd hp

/-- R79, as what `exec` answers. -/
theorem exec_decByte_nop {kind : Kind} (hp : s.dec.phase = some .awaitingStatus) (hb : decodeStatus b = (kind, 0#7)) :
    exec (.decByte b) s = .next s :=
  (decodesByte_nop ha hd hp hb).exec_eq_of_no_draw.trans (congrArg _ (State.decoded_nil s s.dec))

/-- R77, R78, as what `exec` answers. -/
theorem exec_decByte_status {kind : Kind} (hp : s.dec.phase = some .awaitingStatus) (hb : decodeStatus b = (kind, n))
    (hn : n ≠ 0#7) :
    exec (.decByte b) s = .next { s with dec := { phase := some (payloadPhase kind), remaining := some n } } :=
  (decodesByte_status ha hd hp hb hn).exec_eq_of_no_draw.trans (congrArg _ (State.decoded_nil s _))

end

/-- Settles O33: the row is that of DEC.BYTE with the length as its byte. -/
theorem statusLitBeginsABlock : Obligations.StatusLitBeginsABlock := by
  intro len s ha hd hp hlen
  have hb := decodeStatus_ofNat_literal len
  have hbyte := exec_decByte_status ha hd hp hb hlen
  exact ⟨(exec_streamRow_eq_decByte ha hd hp (decodeStream_of_literal hb hlen)).trans hbyte, hbyte⟩

/-- Settles O34: the row is that of DEC.BYTE with bit 7 set above the length. -/
theorem statusRunBeginsARun : Obligations.StatusRunBeginsARun := by
  intro len s ha hd hp hlen
  have hb := decodeStatus_ofNat_run len
  have hbyte := exec_decByte_status ha hd hp hb hlen
  exact ⟨(exec_streamRow_eq_decByte ha hd hp (decodeStream_of_run hb hlen)).trans hbyte, hbyte⟩

/-- Settles O35: both rows are DEC.BYTE of a status byte of length 0. -/
theorem zeroLengthStatusIsANop : Obligations.ZeroLengthStatusIsANop := by
  intro s ha hd hp
  have h0 : exec (.decByte 0x00#8) s = .next s := exec_decByte_nop ha hd hp (decodeStatus_ofNat_literal 0#7)
  have h80 : exec (.decByte 0x80#8) s = .next s := exec_decByte_nop ha hd hp (decodeStatus_ofNat_run 0#7)
  exact ⟨(exec_streamRow_eq_decByte ha hd hp rfl).trans h0, (exec_streamRow_eq_decByte ha hd hp rfl).trans h80,
    h0, h80⟩

/-- Settles O36: PAYLOAD.RUN offers what DEC.BYTE offers in its phase. -/
theorem runByteIsRepeated : Obligations.RunByteIsRepeated := by
  intro b n s ha hd hp hr hn
  have hoffers := decodesByte_runByte (b := b) ha hd hp hr hn
  simp only [DecodesByte, State.decoded, List.length_replicate] at hoffers
  exact ⟨hoffers.of_exec_eq (exec_streamRow_eq_decByte ha hd hp rfl), hoffers⟩

/-- R81, with the phase and the count apart. -/
theorem DecRegs.afterBlockByte_eq {d : DecRegs} {n : Count} (hp : d.phase = some .readingBlockBytes)
    (hn : 1 ≤ n.toNat) :
    d.afterBlockByte n =
      { phase := if n.toNat = 1 then some .awaitingStatus else some .readingBlockBytes,
        remaining := some (n - 1#7) } := by
  simp only [DecRegs.afterBlockByte, Count.sub_one_eq_zero_iff hn]
  split
  · next h => rw [(Count.sub_one_eq_zero_iff hn).mpr h]
  · rw [hp]

/-- Settles O37: PAYLOAD.LIT offers what DEC.BYTE offers in its phase. -/
theorem blockByteIsCopied : Obligations.BlockByteIsCopied := by
  intro b n s ha hd hp hr hn
  have hoffers := decodesByte_blockByte (b := b) ha hd hp hr hn
  rw [DecRegs.afterBlockByte_eq hp hn] at hoffers
  exact ⟨Count.toNat_pred hn, hoffers.of_exec_eq (exec_streamRow_eq_decByte ha hd hp rfl), hoffers⟩

/-- Settles O38: the phase tells whether FIN comes at a record boundary, and the truncation is found before any draw. -/
theorem decFinChecksTruncation : Obligations.DecFinChecksTruncation := by
  intro s ha hd
  refine ⟨offers_decFin ha hd, fun hphase => ⟨?_, rfl, rfl⟩⟩
  rcases hphase with hp | hp
  · exact exec_decFin_truncated ha hd hp (by decide)
  · exact exec_decFin_truncated ha hd hp (by decide)

end Sys2Proof.Machine
end

section
/-! PROOFS. Acceptance and truncation (R83): the grammar of what the decoder takes, read by status bytes, and a
decompress session that follows it. -/

namespace Sys2Proof.Machine

/-! ### The grammar, read by status bytes -/

/-- The input `e` is whole records and zero-length status bytes, and `xs` is what they expand to (R57, R63), with every
status byte taken as `decodeStatus` reads it. -/
inductive DecodesTo : List Byte → List Byte → Prop where
  | nil : DecodesTo [] []
  | nop {b : Byte} {kind : Kind} {e xs : List Byte} (hb : decodeStatus b = (kind, 0#7)) (h : DecodesTo e xs) :
    DecodesTo (b :: e) xs
  | run {b : Byte} {n : Count} {e xs : List Byte} (c : Byte) (hb : decodeStatus b = (.runLength, n)) (hn : n ≠ 0#7)
      (h : DecodesTo e xs) : DecodesTo (b :: c :: e) (List.replicate n.toNat c ++ xs)
  | block {b : Byte} {n : Count} {es e xs : List Byte} (ds : List Byte) (hb : decodeStatus b = (.literal, n))
      (hn : n ≠ 0#7) (hlen : ds.length = n.toNat) (hes : es = ds ++ e) (h : DecodesTo e xs) :
    DecodesTo (b :: es) (ds ++ xs)

theorem DecodesTo.token {x : Token} {e xs : List Byte} (hx : x.bounded = true) (h : DecodesTo e xs) :
    DecodesTo (x.bytes ++ e) (x.expand ++ xs) := by
  cases x with
  | nop0 => exact .nop (decodeStatus_ofNat_literal 0#7) h
  | nop80 => exact .nop (decodeStatus_ofNat_run 0#7) h
  | record r =>
    cases r with
    | run n c =>
      obtain ⟨h1, h2⟩ : 1 ≤ n ∧ n ≤ 127 := of_decide_eq_true hx
      have hcount : (BitVec.ofNat 7 n).toNat = n := Nat.mod_eq_of_lt (by omega)
      have hb := decodeStatus_ofNat_run (BitVec.ofNat 7 n)
      have hrun := DecodesTo.run c hb (Count.ofNat_ne_zero h1 h2) h
      rwa [hcount] at hrun
    | lit ds =>
      obtain ⟨h1, h2⟩ : 1 ≤ ds.length ∧ ds.length ≤ 127 := of_decide_eq_true hx
      have hcount : (BitVec.ofNat 7 ds.length).toNat = ds.length := Nat.mod_eq_of_lt (by omega)
      have hb := decodeStatus_ofNat_literal (BitVec.ofNat 7 ds.length)
      have hblock := DecodesTo.block ds hb (Count.ofNat_ne_zero h1 h2) hcount.symm rfl h
      rwa [hcount] at hblock

theorem Count.bounds_of_ne_zero {n : Count} (h : n ≠ 0#7) : 1 ≤ n.toNat ∧ n.toNat ≤ 127 := by
  bv_omega

theorem DecodesTo.exists_tokens {e xs : List Byte} (h : DecodesTo e xs) :
    ∃ ts : List Token, (∀ x ∈ ts, x.bounded = true) ∧ e = ts.flatMap Token.bytes ∧ xs = ts.flatMap Token.expand := by
  induction h with
  | nil => exact ⟨[], List.forall_mem_nil _, rfl, rfl⟩
  | @nop b kind e xs hb _ ih =>
    obtain ⟨ts, hts, rfl, rfl⟩ := ih
    cases kind with
    | literal =>
      obtain rfl := eq_of_decodeStatus_eq (hb.trans (decodeStatus_ofNat_literal 0#7).symm)
      exact ⟨.nop0 :: ts, List.forall_mem_cons.mpr ⟨rfl, hts⟩, rfl, rfl⟩
    | runLength =>
      obtain rfl := eq_of_decodeStatus_eq (hb.trans (decodeStatus_ofNat_run 0#7).symm)
      exact ⟨.nop80 :: ts, List.forall_mem_cons.mpr ⟨rfl, hts⟩, rfl, rfl⟩
  | @run b n e xs c hb hn _ ih =>
    obtain ⟨ts, hts, rfl, rfl⟩ := ih
    obtain rfl := eq_of_decodeStatus_eq (hb.trans (decodeStatus_ofNat_run n).symm)
    exact ⟨.record (.run n.toNat c) :: ts,
      List.forall_mem_cons.mpr ⟨decide_eq_true (Count.bounds_of_ne_zero hn), hts⟩, rfl, rfl⟩
  | @block b n es e xs ds hb hn hlen hes _ ih =>
    subst hes
    obtain ⟨ts, hts, rfl, rfl⟩ := ih
    obtain rfl := eq_of_decodeStatus_eq (hb.trans (decodeStatus_ofNat_literal n).symm)
    refine ⟨.record (.lit ds) :: ts, List.forall_mem_cons.mpr ⟨decide_eq_true ?_, hts⟩, ?_, rfl⟩
    · exact hlen ▸ Count.bounds_of_ne_zero hn
    · rw [← hlen]
      rfl

/-- R63, R57: the grammar by status bytes is that by tokens. -/
theorem decodesTo_iff_exists_tokens (e xs : List Byte) :
    DecodesTo e xs ↔
      ∃ ts : List Token, (∀ x ∈ ts, x.bounded = true) ∧ e = ts.flatMap Token.bytes ∧ xs = ts.flatMap Token.expand := by
  refine ⟨DecodesTo.exists_tokens, ?_⟩
  rintro ⟨ts, hts, rfl, rfl⟩
  induction ts with
  | nil => exact .nil
  | cons x ts ih =>
    obtain ⟨hx, hts⟩ := List.forall_mem_cons.mp hts
    exact .token hx (ih hts)

/-! ### One byte more of the grammar -/

theorem decodesTo_nil_iff (xs : List Byte) : DecodesTo [] xs ↔ xs = [] := by
  refine ⟨fun h => ?_, ?_⟩
  · cases h
    rfl
  · rintro rfl
    exact .nil

section
variable {b b' c : Byte} {n : Count} {e xs : List Byte}

/-- R79. -/
theorem decodesTo_nop_iff {kind : Kind} (hb : decodeStatus b = (kind, 0#7)) :
    DecodesTo (b :: e) xs ↔ DecodesTo e xs := by
  refine ⟨fun h => ?_, .nop hb⟩
  cases h with
  | nop _ h => exact h
  | run c hb' hn | block ds hb' hn => exact absurd (Prod.mk.inj (hb'.symm.trans hb)).2 hn

/-- R80. -/
theorem decodesTo_run_iff (hb : decodeStatus b = (.runLength, n)) (hn : n ≠ 0#7) :
    DecodesTo (b :: e) xs ↔ ∃ c e' xs', e = c :: e' ∧ xs = List.replicate n.toNat c ++ xs' ∧ DecodesTo e' xs' := by
  refine ⟨fun h => ?_, ?_⟩
  · cases h with
    | nop hb' => exact absurd (Prod.mk.inj (hb.symm.trans hb')).2 hn
    | run c hb' _ h =>
      obtain rfl := (Prod.mk.inj (hb'.symm.trans hb)).2
      exact ⟨c, _, _, rfl, rfl, h⟩
    | block ds hb' => cases hb'.symm.trans hb
  · rintro ⟨c, e', xs', rfl, rfl, h⟩
    exact .run c hb hn h

/-- R81: a literal is its payload, and the zero-length one has none. -/
theorem decodesTo_literal_iff (hb : decodeStatus b = (.literal, n)) :
    DecodesTo (b :: e) xs ↔
      ∃ ds e' xs', ds.length = n.toNat ∧ e = ds ++ e' ∧ xs = ds ++ xs' ∧ DecodesTo e' xs' := by
  refine ⟨fun h => ?_, ?_⟩
  · cases h with
    | nop hb' h =>
      obtain rfl := (Prod.mk.inj (hb.symm.trans hb')).2
      exact ⟨[], _, _, rfl, rfl, rfl, h⟩
    | run c hb' => cases hb'.symm.trans hb
    | block ds hb' _ hlen hes h =>
      obtain rfl := (Prod.mk.inj (hb'.symm.trans hb)).2
      exact ⟨ds, _, _, hlen, hes, rfl, h⟩
  · rintro ⟨ds, e', xs', hlen, rfl, rfl, h⟩
    by_cases hn : n = 0#7
    · subst hn
      obtain rfl := List.eq_nil_of_length_eq_zero hlen
      exact .nop hb h
    · exact .block ds hb hn hlen rfl h

/-- R81: a block is its first byte and a block of one byte less. -/
theorem decodesTo_block_iff (hb : decodeStatus b = (.literal, n)) (hn : n ≠ 0#7)
    (hb' : decodeStatus b' = (.literal, n - 1#7)) :
    DecodesTo (b :: c :: e) xs ↔ ∃ xs', xs = [c] ++ xs' ∧ DecodesTo (b' :: e) xs' := by
  have hpos : 1 ≤ n.toNat := (Count.bounds_of_ne_zero hn).1
  have hpred : (n - 1#7).toNat = n.toNat - 1 := Count.toNat_pred hpos
  simp only [decodesTo_literal_iff hb, decodesTo_literal_iff hb']
  constructor
  · rintro ⟨ds, e', xs', hlen, hes, rfl, h⟩
    cases ds with
    | nil => exact absurd hlen.symm (Nat.ne_of_gt hpos)
    | cons d ds =>
      obtain ⟨rfl, rfl⟩ := List.cons.inj hes
      exact ⟨_, rfl, ds, e', xs', by rw [hpred, ← hlen]; rfl, rfl, rfl, h⟩
  · rintro ⟨_, rfl, ds, e', xs', hlen, rfl, rfl, h⟩
    exact ⟨c :: ds, e', xs', by rw [List.length_cons, hlen]; omega, rfl, rfl, h⟩

/-- R83: a status byte of a length other than 0 is no whole record. -/
theorem not_decodesTo_status {kind : Kind} (hb : decodeStatus b = (kind, n)) (hn : n ≠ 0#7) : ¬ DecodesTo [b] xs := by
  cases kind with
  | runLength =>
    rw [decodesTo_run_iff hb hn]
    rintro ⟨c, e', xs', hes, -⟩
    cases hes
  | literal =>
    rw [decodesTo_literal_iff hb]
    rintro ⟨ds, e', xs', hlen, hes, -⟩
    obtain ⟨rfl, -⟩ := List.append_eq_nil_iff.mp hes.symm
    exact absurd hlen.symm (Nat.ne_of_gt (Count.bounds_of_ne_zero hn).1)

end

/-! ### The decoder inside its input -/

/-- The registers are those of a decoder that has taken `p` since the last record boundary: nothing there, or the status
byte of a record with the payload that is still to come (R29). -/
inductive DecRegs.HasTaken (d : DecRegs) : List Byte → Prop where
  | boundary (hp : d.phase = some .awaitingStatus) : d.HasTaken []
  | status {b : Byte} {kind : Kind} {n : Count} (hb : decodeStatus b = (kind, n)) (hn : n ≠ 0#7)
      (hp : d.phase = some (payloadPhase kind)) (hr : d.remaining = some n) : d.HasTaken [b]

/-- DEC.BYTE of `b` puts out the first bytes of what the input from `p` on decodes to, and leaves the rest to the bytes
that follow. -/
structure FollowsGrammar (b : Byte) (s : State) (p bs : List Byte) (d : DecRegs) (p' : List Byte) : Prop where
  decodes : DecodesByte b s bs d
  taken : d.HasTaken p'
  grammar : ∀ e xs, DecodesTo (p ++ b :: e) xs ↔ ∃ xs', xs = bs ++ xs' ∧ DecodesTo (p' ++ e) xs'

section
variable {s : State} {b : Byte} (ha : s.sess = .active) (hd : s.smode = .decompress)
include ha hd

/-- R77 to R79. -/
theorem exists_followsGrammar_boundary (hp : s.dec.phase = some .awaitingStatus) :
    ∃ d p', FollowsGrammar b s [] [] d p' := by
  obtain ⟨⟨kind, n⟩, hb⟩ : ∃ x, decodeStatus b = x := ⟨_, rfl⟩
  by_cases hn : n = 0#7
  · subst hn
    refine ⟨_, [], decodesByte_nop ha hd hp hb, .boundary hp, fun e xs => ?_⟩
    simp [decodesTo_nop_iff hb]
  · refine ⟨_, [b], decodesByte_status ha hd hp hb hn, .status hb hn rfl rfl, fun e xs => ?_⟩
    simp

/-- R81. -/
theorem exists_followsGrammar_block {status : Byte} {n : Count} (hb : decodeStatus status = (.literal, n))
    (hn : n ≠ 0#7) (hp : s.dec.phase = some .readingBlockBytes) (hr : s.dec.remaining = some n) :
    ∃ d p', FollowsGrammar b s [status] [b] d p' := by
  have hpos : 1 ≤ n.toNat := (Count.bounds_of_ne_zero hn).1
  have hdecodes := decodesByte_blockByte (b := b) ha hd hp hr hpos
  have hnext := decodeStatus_ofNat_literal (n - 1#7)
  unfold DecRegs.afterBlockByte at hdecodes
  by_cases hlast : n - 1#7 = 0#7
  · rw [if_pos hlast] at hdecodes
    refine ⟨_, [], hdecodes, .boundary rfl, fun e xs => (decodesTo_block_iff hb hn hnext).trans ?_⟩
    rw [hlast] at hnext
    simp only [hlast, decodesTo_nop_iff hnext, List.nil_append]
  · rw [if_neg hlast] at hdecodes
    exact ⟨_, _, hdecodes, .status hnext hlast hp rfl, fun e xs => decodesTo_block_iff hb hn hnext⟩

/-- R76: in every phase DEC.BYTE follows the grammar. -/
theorem exists_followsGrammar {p : List Byte} (hp : s.dec.HasTaken p) : ∃ bs d p', FollowsGrammar b s p bs d p' := by
  cases hp with
  | boundary hp => exact ⟨_, exists_followsGrammar_boundary ha hd hp⟩
  | @status status kind n hb hn hp hr =>
    cases kind with
    | literal => exact ⟨_, exists_followsGrammar_block ha hd hb hn hp hr⟩
    | runLength =>
      refine ⟨_, _, [], decodesByte_runByte ha hd hp hr (Count.bounds_of_ne_zero hn).1, .boundary rfl, fun e xs => ?_⟩
      simp [decodesTo_run_iff hb hn]

end

/-! ### Decompress sessions -/

/-- R90, R100, over a run. -/
theorem run_keeps_fault {ws : List CommandWord} {s t : State} (hs : s.sess = .faulted)
    (hpending : s.port.pending = ws.map .command) (hws : ∀ w ∈ ws, legalInit w = false)
    (hrun : Sys2Proof.core.run ws.length s = .next t) : t.sess = .faulted ∧ t.err = s.err := by
  induction ws generalizing s with
  | nil =>
    obtain rfl := Host.Outcome.next.inj hrun
    exact ⟨hs, rfl⟩
  | cons w ws ih =>
    obtain ⟨hw, hws⟩ := List.forall_mem_cons.mp hws
    obtain ⟨u, hstep, hrest⟩ := core_run_succ_inv hrun
    have hexec := exec_instrOf_of_faulted (s := s.setPending (ws.map .command)) hs hw
    obtain rfl := Host.Outcome.next.inj (hexec.symm.trans ((step_command hpending).symm.trans hstep))
    exact ih (s := s.setPending (ws.map .command)) hs rfl hws hrest

/-- In a run that no INIT restarts, the sink accepts what the first command offers, or the run ends with WRITE_FAULT. -/
theorem run_of_offers_cases {w : CommandWord} {ws : List CommandWord} {s t after : State} {i : Instr} {bs : List Byte}
    {draws : Nat} (hpending : s.port.pending = (w :: ws).map .command) (hi : instrOf s w = i)
    (hoffers : Offers i (s.setPending (ws.map .command)) bs draws after) (hws : ∀ w ∈ ws, legalInit w = false)
    (hrun : Sys2Proof.core.run (w :: ws).length s = .next t) :
    Sys2Proof.core.run ws.length after = .next t ∨ t.err = some .writeFault := by
  obtain ⟨u, hstep, hrest⟩ := core_run_succ_inv hrun
  have hexec : exec i (s.setPending (ws.map .command)) = .next u := by
    rw [← hstep, step_command hpending, ← hi]
    rfl
  rcases hoffers.cases with h | ⟨j, -, h⟩ <;> obtain rfl := Host.Outcome.next.inj (hexec.symm.trans h)
  · exact .inl hrest
  · exact .inr (run_keeps_fault rfl rfl hws hrest).2

/-- A session over the input `e`, with `out` put out before it, ends as the grammar says (R83). -/
structure EndsByGrammar (e out : List Byte) (t : State) : Prop where
  whole : ∀ xs, DecodesTo e xs → t.sess = .done ∧ t.out = out ++ xs
  truncated : (∀ xs, ¬ DecodesTo e xs) → t.sess = .faulted ∧ t.err = some .truncatedStream

theorem payloadPhase_ne_awaitingStatus (kind : Kind) : payloadPhase kind ≠ .awaitingStatus := by
  cases kind <;> decide

/-- R82: FIN, where `p` has been taken since the last record boundary. -/
theorem endsByGrammar_of_decFin {p : List Byte} {s t : State} (ha : s.sess = .active) (hd : s.smode = .decompress)
    (htaken : s.dec.HasTaken p) (hpending : s.port.pending = [.command finWord])
    (hrun : Sys2Proof.core.run 1 s = .next t) (herr : t.err ≠ some .writeFault) : EndsByGrammar p s.out t := by
  have hi : instrOf (s.setPending []) finWord = .decFin := by
    rw [instrOf, State.setPending_sess, State.setPending_smode, ha, hd]
    rfl
  cases htaken with
  | boundary hp =>
    have hdone := (run_of_offers_cases (ws := []) hpending hi (offers_decFin (s := s.setPending []) ha hd hp)
      (List.forall_mem_nil _) hrun).resolve_right herr
    obtain rfl := Host.Outcome.next.inj hdone
    refine ⟨fun xs h => ?_, fun h => absurd .nil (h [])⟩
    rw [(decodesTo_nil_iff xs).mp h, List.append_nil]
    exact ⟨rfl, rfl⟩
  | status hb hn hp =>
    obtain ⟨u, hstep, hrest⟩ := core_run_succ_inv hrun
    rw [step_command hpending, hi,
      exec_decFin_truncated (s := s.setPending []) ha hd hp (payloadPhase_ne_awaitingStatus _)] at hstep
    obtain rfl := Host.Outcome.next.inj hstep
    obtain rfl := Host.Outcome.next.inj hrest
    exact ⟨fun xs h => absurd h (not_decodesTo_status hb hn), fun _ => ⟨rfl, rfl⟩⟩

theorem endsByGrammar_of_run {e p : List Byte} {s t : State} (ha : s.sess = .active) (hd : s.smode = .decompress)
    (htaken : s.dec.HasTaken p) (hpending : s.port.pending = (sessionWords e).map .command)
    (hrun : Sys2Proof.core.run (sessionWords e).length s = .next t) (herr : t.err ≠ some .writeFault) :
    EndsByGrammar (p ++ e) s.out t := by
  induction e generalizing s p with
  | nil =>
    rw [List.append_nil]
    exact endsByGrammar_of_decFin ha hd htaken hpending hrun herr
  | cons b e ih =>
    have hi : instrOf s (byteWord b) = .decByte b := by rw [instrOf, ha, hd, decode_byteWord_decompress]
    obtain ⟨bs, d, p', hfollows⟩ := exists_followsGrammar
      (s := s.setPending ((sessionWords e).map .command)) (b := b) ha hd htaken
    have hrest := (run_of_offers_cases hpending hi hfollows.decodes (fun _ => legalInit_of_mem_sessionWords)
      hrun).resolve_right herr
    obtain ⟨hwhole, htruncated⟩ := ih (s := (s.setPending ((sessionWords e).map .command)).decoded bs d) ha hd
      hfollows.taken rfl hrest
    refine ⟨fun xs h => ?_, fun h => htruncated fun xs' h' => h _ ((hfollows.grammar e _).mpr ⟨xs', rfl, h'⟩)⟩
    obtain ⟨xs', rfl, h'⟩ := (hfollows.grammar e xs).mp h
    obtain ⟨hdone, hout⟩ := hwhole xs' h'
    exact ⟨hdone, by rw [hout, ← List.append_assoc]; rfl⟩

/-- Settles O56: the session ends as the grammar says, and an input that the grammar takes is one of whole tokens. -/
theorem decoderAcceptsExactlyWholeRecords : Obligations.DecoderAcceptsExactlyWholeRecords := by
  intro e s t hrun herr
  obtain ⟨hwhole, htruncated⟩ := endsByGrammar_of_run (p := []) rfl rfl (.boundary rfl) rfl (run_of_init hrun) herr
  have htokens {ts : List Token} (hts : ∀ x ∈ ts, x.bounded = true) (he : e = ts.flatMap Token.bytes) :=
    hwhole _ ((decodesTo_iff_exists_tokens e _).mpr ⟨ts, hts, he, rfl⟩)
  by_cases h : ∃ xs, DecodesTo e xs
  · obtain ⟨xs, h⟩ := h
    obtain ⟨ts, hts, he, -⟩ := (decodesTo_iff_exists_tokens e xs).mp h
    obtain ⟨hdone, -⟩ := hwhole xs h
    exact ⟨⟨fun _ => ⟨ts, hts, he⟩, fun _ => hdone⟩, fun hne => absurd hdone hne,
      fun ts hts he => (htokens hts he).2⟩
  · obtain ⟨hfaulted, htrunc⟩ := htruncated (not_exists.mp h)
    refine ⟨⟨fun hdone => ?_, fun ⟨ts, hts, he⟩ => (htokens hts he).1⟩, fun _ => ⟨hfaulted, htrunc⟩,
      fun ts hts he => (htokens hts he).2⟩
    rw [hfaulted] at hdone
    cases hdone

end Sys2Proof.Machine
end

section
/-! PROOFS. The control of a session: INIT (R85, R86), SRCFAULT (R87), the commands outside a session (R89), and what
FAULTED ignores (R90). -/

namespace Sys2Proof.Machine

/-! ### The session log (R42) -/

theorem State.logAbandon_of_active {s : State} (h : s.sess = .active) :
    s.logAbandon = .abandoned s.smode s.out s.heldPrefix :: s.log := by
  simp only [State.logAbandon, h]

theorem State.logAbandon_of_not_active {s : State} (h : s.sess ≠ .active) : s.logAbandon = s.log := by
  cases hs : s.sess with
  | active => exact absurd hs h
  | idle | done | faulted => simp only [State.logAbandon, hs]

theorem State.logFault_of_not_active {s : State} (kind : FaultKind) (h : s.sess ≠ .active) :
    s.logFault kind = .misuse kind :: s.log := by
  cases hs : s.sess with
  | active => exact absurd hs h
  | idle | done | faulted => simp only [State.logFault, hs]

theorem State.heldPrefix_isPrefix (s : State) : s.heldPrefix <+: s.out := List.take_prefix _ _

/-- INIT and reset alike: of a session that is abandoned the sink keeps `heldPrefix`. -/
theorem State.sinkContent_of_abandoned {s t : State} (ha : s.sess = .active) (hlog : t.log = s.logAbandon) :
    t.sinkContent = some s.heldPrefix := by
  rw [State.sinkContent, hlog, State.logAbandon_of_active ha]
  rfl

/-- A fault outside a session is a misuse, which the sink does not see. -/
theorem sinkContent_faultEntry_of_not_active {s : State} (kind : FaultKind) (h : s.sess ≠ .active) :
    (faultEntry kind s).sinkContent = s.sinkContent := by
  rw [State.sinkContent, faultEntry_log, State.logFault_of_not_active kind h]
  rfl

/-! ### INIT -/

theorem exec_initC (s : State) : exec .initC s = .next (initSession .compress s) := rfl

theorem exec_initD (s : State) : exec .initD s = .next (initSession .decompress s) := rfl

/-- Settles O18: both rows answer `initSession` of their mode, whose registers are those of reset but for the session and
the mode, and whose log tells only of a session that was running. -/
theorem initStartsASession : Obligations.InitStartsASession := by
  intro s i mode hi
  have hexec : exec i s = .next (initSession mode s) := by
    rcases hi with ⟨rfl, rfl⟩ | ⟨rfl, rfl⟩
    · exact exec_initC s
    · exact exec_initD s
  exact ⟨initSession mode s, hexec, rfl, rfl, rfl, rfl, rfl, rfl, rfl, rfl, rfl, rfl,
    fun ha => ⟨s.heldPrefix, State.sinkContent_of_abandoned ha rfl, s.heldPrefix_isPrefix⟩,
    State.logAbandon_of_not_active⟩

/-! ### SRCFAULT, and the commands outside a session -/

/-- Settles O20: READ_FAULT is raised by SRCFAULT's row itself, and fault entry keeps `out`. -/
theorem srcfaultRaisesReadFault : Obligations.SrcfaultRaisesReadFault :=
  fun s ha => ⟨exec_srcfault ha, faultEntry_err _ s, faultEntry_out _ s⟩

/-- Settles O21: with no session running and none faulted, the row outside a session does what an illegal word does, and
the fault is a misuse. -/
theorem commandsOutsideASessionFault : Obligations.CommandsOutsideASessionFault := by
  intro c s hs
  have hactive : s.sess ≠ .active := by rcases hs with hs | hs <;> simp [hs]
  have hfaulted : s.sess ≠ .faulted := by rcases hs with hs | hs <;> simp [hs]
  refine ⟨decode_word_outside _ hactive c, ?_, State.exitCode_of_faulted rfl, faultEntry_out _ s,
    sinkContent_faultEntry_of_not_active _ hactive⟩
  rw [exec_outsideSession c hactive, illegal_eq, if_neg hfaulted]

/-! ### FAULTED -/

theorem illegal_of_faulted {s : State} (hs : s.sess = .faulted) : illegal s = .next s := by
  rw [illegal_eq, if_pos hs]

theorem runWord_of_faulted {w : CommandWord} {s : State} (hs : s.sess = .faulted) (hw : legalInit w = false) :
    runWord w s = .next s :=
  if_pos ⟨hs, by simp [hw]⟩

/-- Outside a session a stream row does what the BYTE command that carries its byte does. -/
theorem streamRow_of_not_active {s : State} (phase : Phase) (b : Byte) (body : State → Flow) (h : s.sess ≠ .active) :
    streamRow phase b body s = runWord (byteWord b) s :=
  if_neg fun hrow => h hrow.1

/-- R90, instruction by instruction: in FAULTED an illegal row and the row outside a session have no effect, and every
other row does what its word does, which is no legal INIT. -/
theorem exec_of_faulted {i : Instr} {s : State} (hs : s.sess = .faulted) (hwf : i.wf = true) (hC : i ≠ .initC)
    (hD : i ≠ .initD) : exec i s = .next s := by
  have hactive : s.sess ≠ .active := by simp [hs]
  have hbyte (b : Byte) : runWord (byteWord b) s = .next s := runWord_of_faulted hs (legalInit_byteWord b)
  have hfin : runWord finWord s = .next s := runWord_of_faulted hs (by decide)
  have hrow (phase : Phase) (b : Byte) (body : State → Flow) : streamRow phase b body s = .next s :=
    (streamRow_of_not_active phase b body hactive).trans (hbyte b)
  cases i with
  | initC => exact absurd rfl hC
  | initD => exact absurd rfl hD
  | encByte b | decByte b => exact (if_neg fun h => hactive h.1).trans (hbyte b)
  | encFin | decFin => exact (if_neg fun h => hactive h.1).trans hfin
  | srcfault => exact (if_neg hactive).trans (runWord_of_faulted hs (by decide))
  | outsideSession c => rw [exec_outsideSession c hactive, illegal_of_faulted hs]
  | illegalInit data => rw [exec_illegalInit s (of_decide_eq_true hwf), illegal_of_faulted hs]
  | illegalFin data => rw [exec_illegalFin s (of_decide_eq_true hwf), illegal_of_faulted hs]
  | illegalSrcfault data => rw [exec_illegalSrcfault s (of_decide_eq_true hwf), illegal_of_faulted hs]
  | stNop0 | stNop80 | payloadRun c | payloadLit d => exact hrow _ _ _
  | stLit len | stRun len => exact (if_neg (of_decide_eq_true hwf)).trans (hrow _ _ _)

/-- Settles O22: INIT is accepted in every state, and nothing else well formed has an effect in FAULTED. -/
theorem faultedIgnoresAllButInit : Obligations.FaultedIgnoresAllButInit := by
  intro i s hs hwf
  refine ⟨exec_of_faulted hs hwf, ?_, ?_⟩
  · rintro rfl
    exact exec_initC s
  · rintro rfl
    exact exec_initD s

end Sys2Proof.Machine
end

section
/-! PROOFS. What fault entry writes and what it keeps (R97). -/

namespace Sys2Proof.Machine

/-- Every encoder register of `EncRegs.bottom` is ⊥; its buffer lists no cell, so every address reads as ⊥. -/
theorem EncRegs.bottom_holds_no_value :
    EncRegs.bottom.mode = none ∧ EncRegs.bottom.runCount = none ∧ EncRegs.bottom.pendingByte = none ∧
      ∀ a, Memory.read EncRegs.bottom.blockBuffer a = none :=
  ⟨rfl, rfl, rfl, Memory.read_nil⟩

theorem DecRegs.bottom_holds_no_value : DecRegs.bottom.phase = none ∧ DecRegs.bottom.remaining = none :=
  ⟨rfl, rfl⟩

/-- Settles O19: fault entry puts `EncRegs.bottom` and `DecRegs.bottom` in the engines' place, and of the registers that
stay it writes only `sess` and `err`. -/
theorem faultEntryState : Obligations.FaultEntryState := by
  intro kind s
  obtain ⟨hmode, hrunCount, hpendingByte, hbuffer⟩ := EncRegs.bottom_holds_no_value
  obtain ⟨hphase, hremaining⟩ := DecRegs.bottom_holds_no_value
  simp only [faultEntry_enc, faultEntry_dec]
  exact ⟨faultEntry_sess kind s, faultEntry_err kind s, hmode, hrunCount, hpendingByte, hbuffer, hphase, hremaining,
    faultEntry_smode kind s, faultEntry_out kind s, faultEntry_port kind s⟩

end Sys2Proof.Machine
end

section
/-! PROOFS. A reset event between commands (R108), and the most bytes that each command puts out (R114). -/

namespace Sys2Proof.Machine

/-! ### Reset (R108) -/

theorem step_reset {s : State} {es : List HostEvent} (h : s.port.pending = .reset :: es) :
    step s = .next (hardwareReset (s.setPending es)) := by
  simp only [step, h, runEvent]

/-- Settles O17: the step answers `hardwareReset` of the state with the reset off the port, and the log tells only of a
session that was running. -/
theorem hardwareResetSetsEveryRegister : Obligations.HardwareResetSetsEveryRegister := by
  intro s es hpending
  exact ⟨hardwareReset (s.setPending es), step_reset hpending, hardwareReset_sess _, hardwareReset_smode _,
    hardwareReset_err _, hardwareReset_enc _, hardwareReset_dec _, hardwareReset_out _, hardwareReset_port _,
    fun ha => ⟨s.heldPrefix, State.sinkContent_of_abandoned (s := s.setPending es) ha rfl, s.heldPrefix_isPrefix⟩,
    State.logAbandon_of_not_active (s := s.setPending es)⟩

/-! ### Bursts (R114) -/

/-- Rejected or not, a command puts out no more than the bytes it offers to the sink. -/
theorem Offers.out_length_le {i : Instr} {s t after : State} {bs : List Byte} {draws : Nat}
    (h : Offers i s bs draws after) (hexec : exec i s = .next t) (hafter : after.out = s.out ++ bs) :
    t.out.length ≤ s.out.length + bs.length := by
  rcases h.cases with h | ⟨j, -, h⟩ <;> obtain rfl := Host.Outcome.next.inj (hexec.symm.trans h)
  · rw [hafter, List.length_append]
  · simp only [faultEntry_out, State.emitted_out, State.drawn_out, List.length_append]
    exact Nat.add_le_add_left (List.length_take_le' j bs) _

theorem EncRegs.Holds.length_le {e : EncRegs} {held : List Byte} (h : e.Holds held) : held.length ≤ 126 := by
  cases h with
  | block n hm hn hlen hmax hcells hlast => rwa [hlen]
  | run n p hm hn hmin hmax hp hheld => rwa [hheld, List.length_replicate]

/-- The encoder's runs are of 2 bytes or more, so a record of its own costs one byte at most. -/
theorem Record.bytes_length_le_expand {r : Record} (h : r.byEncoder = true) :
    r.bytes.length ≤ r.expand.length + 1 := by
  cases r with
  | run n c =>
    obtain ⟨hmin, -⟩ := of_decide_eq_true h
    rw [Record.expand, List.length_replicate]
    exact Nat.le_succ_of_le hmin
  | lit ds => exact Nat.le_refl _

theorem bytes_length_le_expand_of_short {rs : List Record} (hshort : rs.length ≤ 1)
    (hrs : ∀ r ∈ rs, r.byEncoder = true) :
    (rs.flatMap Record.bytes).length ≤ (rs.flatMap Record.expand).length + 1 := by
  match rs with
  | [] => exact Nat.zero_le _
  | [r] =>
    simp only [List.flatMap_singleton]
    exact Record.bytes_length_le_expand (hrs r List.mem_cons_self)
  | _ :: _ :: _ => simp at hshort

section
variable {s t : State} (hs : Inv s) (ha : s.sess = .active)
include hs ha

/-- At most the 126 bytes held and the new one go out, as one record. -/
theorem encByte_out_length_le {b : Byte} (hc : s.smode = .compress) (hexec : exec (.encByte b) s = .next t) :
    t.out.length ≤ s.out.length + 128 := by
  obtain ⟨held, hheld⟩ := hs.exists_holds ha hc
  obtain ⟨rs, e, heffect⟩ := exists_encodesByte ha hc b hheld
  obtain ⟨held', -, hsplit⟩ := heffect.held
  have hout := heffect.offers.out_length_le hexec rfl
  have hrecord := bytes_length_le_expand_of_short heffect.short heffect.byEncoder
  have hlen := congrArg List.length hsplit
  have hmax := hheld.length_le
  simp only [List.length_append, List.length_singleton] at hlen
  omega

/-- At most the 126 bytes held go out, as one record. -/
theorem encFin_out_length_le (hc : s.smode = .compress) (hexec : exec .encFin s = .next t) :
    t.out.length ≤ s.out.length + 127 := by
  obtain ⟨held, hheld⟩ := hs.exists_holds ha hc
  obtain ⟨rs, hshort, hrs, rfl, hoffers⟩ := exists_encodesFin ha hc hheld
  have hout := hoffers.out_length_le hexec rfl
  have hrecord := bytes_length_le_expand_of_short hshort hrs
  have hmax := hheld.length_le
  omega

/-- The longest burst is that of a run's byte: `dec.remaining` copies, a count of 7 bits. -/
theorem decByte_out_length_le {b : Byte} (hd : s.smode = .decompress) (hexec : exec (.decByte b) s = .next t) :
    t.out.length ≤ s.out.length + 127 := by
  obtain ⟨phase, hp, hremaining⟩ := (hs.decompress ha hd).1
  cases phase with
  | awaitingStatus =>
    obtain ⟨⟨kind, n⟩, hb⟩ : ∃ x, decodeStatus b = x := ⟨_, rfl⟩
    by_cases hn : n = 0#7
    · subst hn
      exact Nat.le_add_right_of_le ((decodesByte_nop ha hd hp hb).out_length_le hexec rfl)
    · exact Nat.le_add_right_of_le ((decodesByte_status ha hd hp hb hn).out_length_le hexec rfl)
  | readingRunByte =>
    obtain ⟨n, hr, hn⟩ := hremaining (by decide)
    have hout := (decodesByte_runByte ha hd hp hr hn).out_length_le hexec rfl
    rw [List.length_replicate] at hout
    have hlt := n.isLt
    omega
  | readingBlockBytes =>
    obtain ⟨n, hr, hn⟩ := hremaining (by decide)
    have hout := (decodesByte_blockByte ha hd hp hr hn).out_length_le hexec rfl
    rw [List.length_singleton] at hout
    omega

/-- R82: DEC.FIN flushes or finds the stream truncated, and offers no byte. -/
theorem decFin_out_length_le (hd : s.smode = .decompress) (hexec : exec .decFin s = .next t) :
    t.out.length ≤ s.out.length := by
  obtain ⟨phase, hp, -⟩ := (hs.decompress ha hd).1
  by_cases hphase : phase = .awaitingStatus
  · subst hphase
    exact (offers_decFin ha hd hp).out_length_le hexec (List.append_nil _).symm
  · obtain rfl := Host.Outcome.next.inj (hexec.symm.trans (exec_decFin_truncated ha hd hp hphase))
    exact Nat.le_refl _

end

/-- Settles O48: the engines' commands are bounded by what the engines hold, and no other command but INIT writes
`out`. -/
theorem burstIsBounded : Obligations.BurstIsBounded := by
  intro w s t hs hexec hw
  cases commandCases w s with
  | init mode hinit => rw [hinit, legalInit_initWord] at hw; cases hw
  | illegal h => rcases illegal_cases (h.symm.trans hexec) with rfl | rfl <;> exact Nat.le_add_right _ _
  | srcfault _ h =>
    obtain rfl := Host.Outcome.next.inj (hexec.symm.trans h)
    exact Nat.le_add_right _ _
  | compress ha hc hi =>
    rcases hi with hi | ⟨b, hi⟩ <;> rw [hi] at hexec ⊢
    · exact encFin_out_length_le hs ha hc hexec
    · exact encByte_out_length_le hs ha hc hexec
  | decompress ha hd hi =>
    rcases hi with hi | ⟨b, hi⟩ <;> rw [hi] at hexec ⊢
    · exact decFin_out_length_le hs ha hd hexec
    · exact decByte_out_length_le hs ha hd hexec

end Sys2Proof.Machine
end

section
/-! PROOFS. Decoding and encoding are inverse to each other, on command words and on the bytes of the compressed stream
(R50 to R57). -/

namespace Sys2Proof

/-! ### The words of the rows -/

theorem decode_byteWord (sess : Sess) (smode : SMode) (b : Byte) :
    decode sess smode (byteWord b) =
      if sess = .active then (if smode = .compress then .encByte b else .decByte b) else .outsideSession (.byte b) := by
  cases sess with
  | active =>
    cases smode with
    | compress => exact decode_byteWord_compress b
    | decompress => exact decode_byteWord_decompress b
  | idle | done | faulted => exact decode_word_outside smode (by decide) (.byte b)

theorem decode_finWord (sess : Sess) (smode : SMode) :
    decode sess smode finWord =
      if sess = .active then (if smode = .compress then .encFin else .decFin) else .outsideSession .fin := by
  cases sess <;> cases smode <;> rfl

theorem decode_srcfaultWord (sess : Sess) (smode : SMode) :
    decode sess smode srcfaultWord = if sess = .active then .srcfault else .outsideSession .srcfault := by
  cases sess <;> cases smode <;> rfl

theorem byteWord_eq_ofNat (b : Byte) : byteWord b = BitVec.ofNat 10 (0x100 + b.toNat) := by
  apply BitVec.eq_of_toNat_eq
  rw [byteWord, toNat_mkWord, BitVec.toNat_ofNat]
  have := b.isLt
  simp
  omega

/-- Settles O1: each word, taken apart into its fields, is the row named for it. -/
theorem wordsOfTheSpecDecode : Obligations.WordsOfTheSpecDecode := by
  unfold Obligations.WordsOfTheSpecDecode
  decide

/-- Settles O2: the words are those of the five commands, and the session and the mode choose the row. -/
theorem legalWordsSelectTheirRows : Obligations.LegalWordsSelectTheirRows := by
  intro sess smode b
  refine ⟨decode_initWord sess smode .compress, decode_initWord sess smode .decompress, ?_, decode_finWord sess smode,
    decode_srcfaultWord sess smode⟩
  rw [← byteWord_eq_ofNat, decode_byteWord]

/-! ### Decoding what was encoded -/

theorem decode_encode {i : Instr} {sess : Sess} {smode : SMode} (hwf : i.wf = true)
    (hsel : i.selectedIn sess smode = true) : decode sess smode (encode i) = i := by
  cases i with
  | initC => exact decode_initWord sess smode .compress
  | initD => exact decode_initWord sess smode .decompress
  | encByte b =>
    obtain ⟨rfl, rfl⟩ := of_decide_eq_true hsel
    exact decode_byteWord_compress b
  | decByte b =>
    obtain ⟨rfl, rfl⟩ := of_decide_eq_true hsel
    exact decode_byteWord_decompress b
  | encFin | decFin =>
    obtain ⟨rfl, rfl⟩ := of_decide_eq_true hsel
    rfl
  | srcfault =>
    obtain rfl := of_decide_eq_true hsel
    rfl
  | outsideSession c => exact decode_word_outside smode (of_decide_eq_true hsel) c
  | illegalInit data =>
    have hdata : 2 ≤ (dataField (mkWord 0#2 data)).toNat := by
      rw [dataField_mkWord]
      exact of_decide_eq_true hwf
    rw [encode, decode_of_illegal_init sess smode (opOf_mkWord_zero data) hdata, dataField_mkWord]
  | illegalFin data =>
    have hdata : dataField (mkWord 2#2 data) ≠ 0#8 := by
      rw [dataField_mkWord]
      exact of_decide_eq_true hwf
    rw [encode, decode_of_illegal_fin sess smode (opOf_mkWord_two data) hdata, dataField_mkWord]
  | illegalSrcfault data =>
    have hdata : dataField (mkWord 3#2 data) ≠ 0#8 := by
      rw [dataField_mkWord]
      exact of_decide_eq_true hwf
    rw [encode, decode_of_illegal_srcfault sess smode (opOf_mkWord_three data) hdata, dataField_mkWord]
  | stNop0 | stNop80 | stLit len | stRun len | payloadRun c | payloadLit d => cases hsel

theorem decodeStream_streamByte {i : Instr} {phase : Phase} {b : Byte} (hwf : i.wf = true)
    (hsel : i.selectedAt phase = true) (hb : streamByte i = some b) : decodeStream phase b = i := by
  cases i with
  | stNop0 | stNop80 | payloadRun c | payloadLit d =>
    obtain rfl := of_decide_eq_true hsel
    obtain rfl := Option.some.inj hb
    rfl
  | stLit len =>
    obtain rfl := of_decide_eq_true hsel
    obtain rfl := Option.some.inj hb
    exact decodeStream_of_literal (decodeStatus_literal len) (of_decide_eq_true hwf)
  | stRun len =>
    obtain rfl := of_decide_eq_true hsel
    obtain rfl := Option.some.inj hb
    exact decodeStream_of_run (decodeStatus_runLength len) (of_decide_eq_true hwf)
  | initC | initD | encByte _ | decByte _ | encFin | decFin | srcfault | outsideSession _ | illegalInit _
  | illegalFin _ | illegalSrcfault _ => cases hsel

theorem encode_of_streamByte {i : Instr} {b : Byte} (hb : streamByte i = some b) : encode i = byteWord b := by
  cases i with
  | stNop0 | stNop80 | stLit len | stRun len | payloadRun c | payloadLit d =>
    obtain rfl := Option.some.inj hb
    rfl
  | initC | initD | encByte _ | decByte _ | encFin | decFin | srcfault | outsideSession _ | illegalInit _
  | illegalFin _ | illegalSrcfault _ => cases hb

/-- Settles O6: row by row, on command words and on stream bytes. -/
theorem decodeOfEncode : Obligations.DecodeOfEncode :=
  fun _ hwf => ⟨fun _ _ => decode_encode hwf,
    fun _ _ hsel hb => ⟨encode_of_streamByte hb, decodeStream_streamByte hwf hsel hb⟩⟩

/-! ### Encoding what was decoded -/

/-- The row that a word decodes to has that word, operands that the row admits, and its condition met. -/
structure IsRowOf (w : CommandWord) (sess : Sess) (smode : SMode) (i : Instr) : Prop where
  encode : encode i = w
  wf : i.wf = true
  selected : i.selectedIn sess smode = true

theorem isRowOf_decode_word (c : SessionCommand) (sess : Sess) (smode : SMode) :
    IsRowOf c.word sess smode (decode sess smode c.word) := by
  by_cases h : sess = .active
  · subst h
    cases c with
    | byte b =>
      cases smode with
      | compress => rw [SessionCommand.word, decode_byteWord_compress]; exact ⟨rfl, rfl, rfl⟩
      | decompress => rw [SessionCommand.word, decode_byteWord_decompress]; exact ⟨rfl, rfl, rfl⟩
    | fin => cases smode <;> exact ⟨rfl, rfl, rfl⟩
    | srcfault => exact ⟨rfl, rfl, rfl⟩
  · rw [decode_word_outside smode h]
    exact ⟨rfl, rfl, decide_eq_true h⟩

theorem isRowOf_decode_illegal {w : CommandWord} (sess : Sess) (smode : SMode) (h : illegalWord w = true) :
    IsRowOf w sess smode (decode sess smode w) := by
  rcases word_cases w with ⟨hop, hw⟩ | ⟨hop, -⟩ | ⟨hop, hw⟩ | ⟨hop, hw⟩ <;>
    simp only [illegalWord, hop, decide_eq_true_eq, Bool.false_eq_true] at h
  · rw [decode_of_illegal_init sess smode hop h]
    exact ⟨hw.symm, decide_eq_true h, rfl⟩
  · rw [decode_of_illegal_fin sess smode hop h]
    exact ⟨hw.symm, decide_eq_true h, rfl⟩
  · rw [decode_of_illegal_srcfault sess smode hop h]
    exact ⟨hw.symm, decide_eq_true h, rfl⟩

theorem isRowOf_decode (sess : Sess) (smode : SMode) (w : CommandWord) :
    IsRowOf w sess smode (decode sess smode w) := by
  by_cases hillegal : illegalWord w = true
  · exact isRowOf_decode_illegal sess smode hillegal
  · rcases legal_word_cases hillegal with rfl | rfl | ⟨b, rfl⟩ | rfl | rfl
    · rw [decode_initWord]; exact ⟨rfl, rfl, rfl⟩
    · rw [decode_initWord]; exact ⟨rfl, rfl, rfl⟩
    · exact isRowOf_decode_word (.byte b) sess smode
    · exact isRowOf_decode_word .fin sess smode
    · exact isRowOf_decode_word .srcfault sess smode

/-- The same of a stream byte and the row it decodes to. -/
theorem isStreamRowOf_decodeStream (phase : Phase) (b : Byte) :
    streamByte (decodeStream phase b) = some b ∧ (decodeStream phase b).wf = true ∧
      (decodeStream phase b).selectedAt phase = true := by
  cases phase with
  | readingRunByte | readingBlockBytes => exact ⟨rfl, rfl, rfl⟩
  | awaitingStatus =>
    obtain ⟨⟨kind, n⟩, hb⟩ : ∃ x, decodeStatus b = x := ⟨_, rfl⟩
    have hbyte := byte_of_decodeStatus b
    rw [hb] at hbyte
    by_cases hn : n = 0#7
    · subst hn
      subst hbyte
      cases kind <;> decide
    · cases kind with
      | literal =>
        rw [decodeStream_of_literal hb hn]
        exact ⟨congrArg some hbyte.symm, decide_eq_true hn, rfl⟩
      | runLength =>
        rw [decodeStream_of_run hb hn]
        exact ⟨congrArg some hbyte.symm, decide_eq_true hn, rfl⟩

/-- Settles O7: an illegal word is put together again from its fields, and a legal word is that of its command. -/
theorem encodeOfDecode : Obligations.EncodeOfDecode := by
  refine ⟨fun sess smode w => ?_, isStreamRowOf_decodeStream⟩
  obtain ⟨hencode, hwf, hselected⟩ := isRowOf_decode sess smode w
  exact ⟨hencode, hwf, hselected⟩

end Sys2Proof
end

section
/-! PROOFS. What an instruction does is what the pseudocode of the step does with its word (R84); the illegal rows
(R88), the flush (R41), the status outputs (R30), reset and one step (R84). -/

namespace Sys2Proof

theorem SessionCommand.legal_word (c : SessionCommand) : illegalWord c.word = false := by
  cases c with
  | byte b => simp only [illegalWord, SessionCommand.word, byteWord, opOf_mkWord_one]
  | fin | srcfault => rfl

theorem SessionCommand.legalInit_word (c : SessionCommand) : legalInit c.word = false := by
  cases c with
  | byte b => exact legalInit_byteWord b
  | fin | srcfault => rfl

theorem legalInit_of_illegalWord {w : CommandWord} (h : illegalWord w = true) : legalInit w = false := by
  simp [legalInit, h]

/-- R84: a word is a legal INIT, illegal, or that of a command which needs a session. -/
theorem word_kinds (w : CommandWord) :
    (∃ mode, w = initWord mode) ∨ illegalWord w = true ∨ ∃ c : SessionCommand, w = c.word := by
  by_cases hillegal : illegalWord w = true
  · exact .inr (.inl hillegal)
  · rcases legal_word_cases hillegal with h | h | ⟨b, h⟩ | h | h
    · exact .inl ⟨_, h⟩
    · exact .inl ⟨_, h⟩
    · exact .inr (.inr ⟨.byte b, h⟩)
    · exact .inr (.inr ⟨.fin, h⟩)
    · exact .inr (.inr ⟨.srcfault, h⟩)

end Sys2Proof

namespace Sys2Proof.Machine

/-! ### The pseudocode, by the kind of the word -/

/-- What a command does in an ACTIVE session of this mode (R84). -/
def sessionBody (mode : SMode) : SessionCommand → State → Flow
  | .byte b => match mode with | .compress => encByte b | .decompress => decByte b
  | .fin => match mode with | .compress => encFin | .decompress => decFin
  | .srcfault => .raised .readFault

theorem inSession_of_active {s : State} (body : State → Flow) (h : s.sess = .active) :
    inSession body s = finish (body s) := by
  rw [inSession, h]

theorem inSession_of_not_active {s : State} (body : State → Flow) (h : s.sess ≠ .active) :
    inSession body s = illegal s := by
  cases hs : s.sess with
  | active => exact absurd hs h
  | idle | done | faulted => simp only [inSession, illegal, hs]

theorem inSession_of_faulted {s : State} (body : State → Flow) (h : s.sess = .faulted) :
    inSession body s = .next s := by
  rw [inSession, h]

theorem runWord_initWord (mode : SMode) (s : State) : runWord (initWord mode) s = .next (initSession mode s) := by
  have hguard : ¬ (s.sess = .faulted ∧ ¬ legalInit (initWord mode) = true) := fun h => h.2 (legalInit_initWord mode)
  rw [runWord, if_neg hguard]
  cases mode <;> rfl

theorem runWord_of_illegalWord {w : CommandWord} (s : State) (h : illegalWord w = true) : runWord w s = illegal s := by
  simp only [runWord, illegal_eq, h, legalInit_of_illegalWord h, finish_raised, Bool.false_eq_true, not_false_eq_true,
    and_true, if_true]

theorem runWord_word (c : SessionCommand) (s : State) : runWord c.word s = inSession (sessionBody s.smode c) s := by
  by_cases hs : s.sess = .faulted
  · rw [runWord_of_faulted hs c.legalInit_word, inSession_of_faulted _ hs]
  · rw [runWord, if_neg fun h => hs h.1, if_neg (by simp [c.legal_word])]
    cases c with
    | byte b =>
      simp only [SessionCommand.word, byteWord, opOf_mkWord_one, dataField_mkWord]
      cases s.smode <;> rfl
    | fin => 
      cases hm : s.smode <;> rfl
    | srcfault => rfl

theorem runWord_word_of_active {s : State} (c : SessionCommand) (h : s.sess = .active) :
    runWord c.word s = finish (sessionBody s.smode c s) := by
  rw [runWord_word, inSession_of_active _ h]

theorem finish_sessionBody {s : State} {mode : SMode} (c : SessionCommand) (ha : s.sess = .active)
    (hm : s.smode = mode) : finish (sessionBody mode c s) = runWord c.word s := by
  rw [runWord_word_of_active c ha, hm]

/-! ### The instructions -/

/-- On its condition a stream row does what DEC.BYTE of its byte does (R76), and off it what the byte's word does. -/
theorem streamRow_eq_runWord {s : State} {phase : Phase} {b : Byte} {body : State → Flow}
    (h : s.dec.phase = some phase → decByte b s = body s) : streamRow phase b body s = runWord (byteWord b) s :=
  ite_eq_right_iff.mpr fun ⟨ha, hd, hp⟩ => h hp ▸ finish_sessionBody (.byte b) ha hd

/-- R77. -/
theorem decByte_literal {s : State} {len : Count} (hlen : len ≠ 0#7) (hp : s.dec.phase = some .awaitingStatus) :
    decByte (len.setWidth 8) s = decStatusLit len s := by
  simp only [decByte_awaiting _ hp, decStatus, decodeStatus_literal, if_neg hlen]

/-- R78. -/
theorem decByte_runLength {s : State} {len : Count} (hlen : len ≠ 0#7) (hp : s.dec.phase = some .awaitingStatus) :
    decByte (0x80#8 ||| len.setWidth 8) s = decStatusRun len s := by
  simp only [decByte_awaiting _ hp, decStatus, decodeStatus_runLength, if_neg hlen]

/-- A row on its condition does what the pseudocode does with its word, and off it is defined to (log entry 7). -/
theorem exec_eq_runWord (i : Instr) (s : State) : exec i s = runWord (encode i) s := by
  cases i with
  | initC => exact (runWord_initWord .compress s).symm
  | initD => exact (runWord_initWord .decompress s).symm
  | encByte b => exact ite_eq_right_iff.mpr fun ⟨ha, hc⟩ => finish_sessionBody (.byte b) ha hc
  | decByte b => exact ite_eq_right_iff.mpr fun ⟨ha, hd⟩ => finish_sessionBody (.byte b) ha hd
  | encFin => exact ite_eq_right_iff.mpr fun ⟨ha, hc⟩ => finish_sessionBody .fin ha hc
  | decFin => exact ite_eq_right_iff.mpr fun ⟨ha, hd⟩ => finish_sessionBody .fin ha hd
  | srcfault => exact ite_eq_right_iff.mpr fun ha => finish_sessionBody .srcfault ha rfl
  | outsideSession c =>
    by_cases ha : s.sess = .active
    · simp only [exec, execOutsideSession, ha, encode]
    · rw [exec_outsideSession c ha, encode, runWord_word, inSession_of_not_active _ ha]
  | illegalInit data =>
    refine ite_eq_right_iff.mpr fun h => (runWord_of_illegalWord s ?_).symm
    simpa only [illegalWord, opOf_mkWord_zero, dataField_mkWord, decide_eq_true_eq] using h
  | illegalFin data =>
    by_cases h : data = 0#8
    · subst h
      rfl
    · rw [exec_illegalFin s h, encode, runWord_of_illegalWord]
      simpa only [illegalWord, opOf_mkWord_two, dataField_mkWord, decide_eq_true_eq] using h
  | illegalSrcfault data =>
    by_cases h : data = 0#8
    · subst h
      rfl
    · rw [exec_illegalSrcfault s h, encode, runWord_of_illegalWord]
      simpa only [illegalWord, opOf_mkWord_three, dataField_mkWord, decide_eq_true_eq] using h
  | stNop0 | stNop80 => exact streamRow_eq_runWord (decByte_awaiting _)
  | stLit len =>
    by_cases h : len = 0#7
    · subst h
      rfl
    · exact (if_neg h).trans (streamRow_eq_runWord (decByte_literal h))
  | stRun len =>
    by_cases h : len = 0#7
    · subst h
      rfl
    · exact (if_neg h).trans (streamRow_eq_runWord (decByte_runLength h))
  | payloadRun c => exact streamRow_eq_runWord (decByte_runByte c)
  | payloadLit d => exact streamRow_eq_runWord (decByte_blockByte d)

theorem exec_instrOf (w : CommandWord) (s : State) : exec (instrOf s w) s = runWord w s := by
  rw [exec_eq_runWord, instrOf, (isRowOf_decode s.sess s.smode w).encode]

/-- Settles O42: every instruction is the pseudocode on its word, and a word's instruction has that word. -/
theorem execFollowsTheStepPseudocode : Obligations.ExecFollowsTheStepPseudocode :=
  ⟨exec_eq_runWord, exec_instrOf⟩

/-- Settles O32: the row that the byte decodes to is selected in this phase. -/
theorem decByteRunsItsStreamRow : Obligations.DecByteRunsItsStreamRow :=
  fun _ _ _ ha hd hp => (exec_streamRow_eq_decByte ha hd hp rfl).symm

/-- Settles O4: the three rows run as an illegal word, which is fault entry outside FAULTED. -/
theorem illegalRowsRaiseIllegalCommand : Obligations.IllegalRowsRaiseIllegalCommand := by
  intro data s hs
  have hillegal : illegal s = .next (faultEntry .illegalCommand s) := by rw [illegal_eq, if_neg hs]
  exact ⟨fun h => (exec_illegalInit s h).trans hillegal, fun h => (exec_illegalFin s h).trans hillegal,
    fun h => (exec_illegalSrcfault s h).trans hillegal⟩

/-! ### The flush, the status outputs, reset and one step -/

/-- Settles O13: both outcomes of the flush are at the state after one draw, and a draw writes the port alone. -/
theorem sinkFlushChangesNoRegister : Obligations.SinkFlushChangesNoRegister :=
  fun _ => ⟨sinkFlush_accept, sinkFlush_reject, rfl⟩

theorem State.visible_exitCode (s : State) : s.visible.exitCode = s.exitCode := rfl

theorem State.visible_err (s : State) : s.visible.err = errCode s.err := rfl

/-- Settles O58: the codes are those of the tables, and the host reads each register through its code. -/
theorem registerCodesAndHostView : Obligations.RegisterCodesAndHostView := by
  refine ⟨⟨rfl, rfl, rfl, rfl⟩, ⟨rfl, rfl⟩, ⟨rfl, rfl, rfl, rfl, rfl⟩, ⟨rfl, rfl⟩, ⟨rfl, rfl, rfl⟩, fun s => ?_⟩
  rw [State.visible_exitCode, State.visible_err]
  exact ⟨rfl, rfl, rfl, rfl, State.exitCode_of_done, State.exitCode_of_faulted, State.exitCode_of_not_ended⟩

theorem inv_reset (port : Port) : Inv { State.reset with port := port } :=
  inv_hardwareReset { State.reset with port := port }

/-- Settles O43: the state after reset is what a reset makes of it, and nothing has been put out. -/
theorem resetMeetsTheInvariant : Obligations.ResetMeetsTheInvariant :=
  ⟨inv_reset _, encoderStream_of_out_nil rfl⟩

theorem step_of_no_event {s : State} (h : s.port.pending = []) : step s = .next s := by
  simp only [step, h]

/-- Settles O41: a step is that of the oldest event, with the event taken off the port. -/
theorem stepRunsTheNextEvent : Obligations.StepRunsTheNextEvent :=
  fun _ _ _ => ⟨step_command, step_reset, step_of_no_event⟩

end Sys2Proof.Machine
end

section
/-! PROOFS. Where the model stops: reads of ⊥ (R9, D18) and counters outside the rules (I3). -/

namespace Sys2Proof.Machine

/-! ### The encoder's mode and count -/

theorem readingEncoder_of_bottom {s : State} (k : EncMode → Count → Flow)
    (h : s.enc.mode = none ∨ s.enc.runCount = none) : readingEncoder s k = .stop .modelUnwrittenRead := by
  unfold readingEncoder
  cases hm : s.enc.mode with
  | none => rfl
  | some mode =>
    have hn : s.enc.runCount = none := h.resolve_left (by simp [hm])
    rw [hn]
    rfl

theorem readingEncoder_outside {s : State} {mode : EncMode} {n : Count} (k : EncMode → Count → Flow)
    (hm : s.enc.mode = some mode) (hn : s.enc.runCount = some n) (h : restingCount mode n = false) :
    readingEncoder s k = .stop .modelInvariant := by
  simp [readingEncoder, hm, hn, h]

theorem encFin_of_record_stop {s : State} {f : Fault} (h : encFinRecord s = .stop f) : encFin s = .stop f := by
  rw [encFin, h, Flow.stop_andThen]

theorem encFinRecord_of_no_pending {s : State} {n : Count} (hm : s.enc.mode = some .repeating)
    (hn : s.enc.runCount = some n) (h1 : 2 ≤ n.toNat) (h2 : n.toNat ≤ 126) (hp : s.enc.pendingByte = none) :
    encFinRecord s = .stop .modelUnwrittenRead := by
  rw [encFinRecord, readingEncoder_some _ hm hn (by simp [restingCount, h1, h2])]
  simp only [hp, reading_none]

section
variable {s : State} {b : Byte} {n : Count} (ha : s.sess = .active) (hc : s.smode = .compress)
include ha hc

theorem exec_encByte_stop {f : Fault} (h : encByte b s = .stop f) : exec (.encByte b) s = .fault f := by
  rw [exec_encByte b ha hc, h, finish_stop]

theorem exec_encFin_stop {f : Fault} (h : encFinRecord s = .stop f) : exec .encFin s = .fault f := by
  rw [exec_encFin ha hc, encFin_of_record_stop h, finish_stop]

/-- ENC.BYTE and ENC.FIN both begin by reading the mode and the count. -/
theorem exec_encoder_stop {f : Fault} (h : ∀ k, readingEncoder s k = .stop f) :
    exec (.encByte b) s = .fault f ∧ exec .encFin s = .fault f :=
  ⟨exec_encByte_stop ha hc (h _), exec_encFin_stop ha hc (h _)⟩

/-! ### The pending byte -/

theorem exec_accumulating_of_no_pending (hm : s.enc.mode = some .accumulating) (hn : s.enc.runCount = some n)
    (h1 : 1 ≤ n.toNat) (h2 : n.toNat ≤ 126) (hp : s.enc.pendingByte = none) :
    exec (.encByte b) s = .fault .modelUnwrittenRead := by
  refine exec_encByte_stop ha hc ?_
  rw [encByte_accumulating b hm hn h2, encAccumulating, if_neg (Count.ne_zero_of_pos h1), hp, reading_none]

theorem exec_repeating_of_no_pending (hm : s.enc.mode = some .repeating) (hn : s.enc.runCount = some n)
    (h1 : 2 ≤ n.toNat) (h2 : n.toNat ≤ 126) (hp : s.enc.pendingByte = none) :
    exec (.encByte b) s = .fault .modelUnwrittenRead ∧ exec .encFin s = .fault .modelUnwrittenRead := by
  refine ⟨exec_encByte_stop ha hc ?_, exec_encFin_stop ha hc (encFinRecord_of_no_pending hm hn h1 h2 hp)⟩
  rw [encByte_repeating b hm hn h1 h2, encRepeating, hp, reading_none]

/-! ### The buffer's cells -/

variable {i : Nat} (hm : s.enc.mode = some .accumulating) (hn : s.enc.runCount = some n) (h2 : n.toNat ≤ 126)
  (hcell : Memory.read s.enc.blockBuffer i = none) (haccept : s.accepts (i + 1))
include hm hn h2 hcell haccept

theorem exec_pair_of_unwritten_cell (hp : s.enc.pendingByte = some b) (hi : i + 1 < n.toNat) :
    exec (.encByte b) s = .fault .modelUnwrittenRead := by
  have hpred : (n - 1#7).toNat = n.toNat - 1 := Count.toNat_pred (by omega)
  refine exec_encByte_stop ha hc ?_
  rw [encByte_pair hm hn (by omega) h2 hp, encAccPair, decrement_of_pos _ (by omega), if_pos (by omega),
    writeLit_unwritten (by omega) (by omega) haccept hcell, Flow.stop_andThen]

theorem exec_full_of_unwritten_cell {p : Byte} (hp : s.enc.pendingByte = some p) (hne : b ≠ p) (hfull : n.toNat = 126)
    (hi : i < 126) : exec (.encByte b) s = .fault .modelUnwrittenRead := by
  obtain rfl : n = 126#7 := BitVec.eq_of_toNat_eq hfull
  have hcell' : Memory.read (Memory.write s.enc.blockBuffer 126 b) i = none := by
    rw [Memory.read_write_other _ _ (by omega), hcell]
  have hstop : writeLit 127 ((s.setCell 126 b).setRun .accumulating 127#7) = .stop .modelUnwrittenRead :=
    writeLit_unwritten (Nat.le_refl 127) (by omega) haccept hcell'
  refine exec_encByte_stop ha hc ?_
  rw [encByte_full hm hn hp hne, encAccFull, memWrite_of_lt b s (by omega), Flow.done_andThen, hstop,
    Flow.stop_andThen]

theorem exec_encFin_of_unwritten_cell (hi : i < n.toNat) : exec .encFin s = .fault .modelUnwrittenRead := by
  refine exec_encFin_stop ha hc ?_
  rw [encFinRecord_accumulating hm hn h2, if_pos (by omega), writeLit_unwritten (by omega) hi haccept hcell]

end

/-! ### The decoder -/

theorem decByte_of_no_phase {s : State} (b : Byte) (hp : s.dec.phase = none) :
    decByte b s = .stop .modelUnwrittenRead := by
  rw [decByte, hp, reading_none]

section
variable {s : State} (b : Byte) (ha : s.sess = .active) (hd : s.smode = .decompress)
include ha hd

/-- Every row of a stream's byte, on its condition or off it, is DEC.BYTE of that byte. -/
theorem exec_stream {i : Instr} (h : i.isStream = true) : ∃ b, exec i s = finish (decByte b s) := by
  obtain ⟨b, hb⟩ : ∃ b, streamByte i = some b := by
    cases i with
    | stNop0 | stNop80 | stLit len | stRun len | payloadRun c | payloadLit d => exact ⟨_, rfl⟩
    | initC | initD | encByte _ | decByte _ | encFin | decFin | srcfault | outsideSession _ | illegalInit _
    | illegalFin _ | illegalSrcfault _ => cases h
  refine ⟨b, ?_⟩
  rw [exec_eq_runWord, encode_of_streamByte hb]
  exact (finish_sessionBody (.byte b) ha hd).symm

/-- Both payload phases begin by reading the remaining count, in DEC.BYTE as in the phase's row. -/
theorem exec_payload_stop {f : Fault} (h : ∀ k, readingRemaining s k = .stop f) :
    (s.dec.phase = some .readingRunByte →
      exec (.decByte b) s = .fault f ∧ exec (.payloadRun b) s = .fault f) ∧
    (s.dec.phase = some .readingBlockBytes →
      exec (.decByte b) s = .fault f ∧ exec (.payloadLit b) s = .fault f) := by
  refine ⟨fun hp => ?_, fun hp => ?_⟩
  · have hbyte : exec (.decByte b) s = .fault f := by
      rw [exec_decByte b ha hd, decByte_runByte b hp, decRunByte, h, finish_stop]
    exact ⟨hbyte, (exec_streamRow_eq_decByte ha hd hp rfl).trans hbyte⟩
  · have hbyte : exec (.decByte b) s = .fault f := by
      rw [exec_decByte b ha hd, decByte_blockByte b hp, decBlockByte, h, finish_stop]
    exact ⟨hbyte, (exec_streamRow_eq_decByte ha hd hp rfl).trans hbyte⟩

end

/-- Settles O39: each command reads its registers before it does anything else, and a literal's cells one by one. -/
theorem unwrittenReadsStop : Obligations.UnwrittenReadsStop := by
  intro b s ha
  refine ⟨fun hc hbottom => ?_, fun hc hp n hn => ⟨fun hm h1 h2 => ?_, fun hm h1 h2 => ?_⟩,
    fun hc hm n p i hn h2 hp hcell haccept => ⟨?_, fun hne hfull hi => ?_, fun hi => ?_⟩, fun hd hp => ⟨?_, ?_, ?_⟩,
    fun hd hr => ?_⟩
  · exact exec_encoder_stop ha hc fun k => readingEncoder_of_bottom k hbottom
  · exact exec_accumulating_of_no_pending ha hc hm hn h1 h2 hp
  · exact exec_repeating_of_no_pending ha hc hm hn h1 h2 hp
  · rintro rfl hi
    exact exec_pair_of_unwritten_cell ha hc hm hn h2 hcell haccept hp hi
  · exact exec_full_of_unwritten_cell ha hc hm hn h2 hcell haccept hp hne hfull hi
  · exact exec_encFin_of_unwritten_cell ha hc hm hn h2 hcell haccept hi
  · rw [exec_decByte b ha hd, decByte_of_no_phase b hp, finish_stop]
  · rw [exec_decFin ha hd, decFin, hp, reading_none, finish_stop]
  · intro i hi
    obtain ⟨c, hexec⟩ := exec_stream ha hd hi
    rw [hexec, decByte_of_no_phase c hp, finish_stop]
  · exact exec_payload_stop b ha hd fun k => by rw [readingRemaining, hr, reading_none]

/-- Settles O40: the mode and the count are checked together, and the remaining count as it is read. -/
theorem countersOutsideTheRulesStop : Obligations.CountersOutsideTheRulesStop := by
  intro b n s ha
  refine ⟨fun hc hn hcount => ?_, fun hd hr => ?_⟩
  · obtain ⟨mode, hm, hresting⟩ : ∃ mode, s.enc.mode = some mode ∧ restingCount mode n = false := by
      rcases hcount with ⟨hm, h⟩ | ⟨hm, h⟩
      · exact ⟨_, hm, decide_eq_false (by omega)⟩
      · exact ⟨_, hm, decide_eq_false (by omega)⟩
    exact exec_encoder_stop ha hc fun k => readingEncoder_outside k hm hn hresting
  · exact exec_payload_stop b ha hd fun k => by rw [readingRemaining, hr, reading_some, if_pos rfl]

end Sys2Proof.Machine
end

section
/-! PROOFS. The plan of a command in an ACTIVE session: the bytes it offers to the sink and what follows them. A plan is
found from the registers that the command reads, so that it says at once what the command can do, that it does not see
the host's other events, and that registers it does not read have no effect (R31, R32, R48). -/

namespace Sys2Proof.Machine

/-! ### Registers that a command reads -/

/-- The state with these engine registers. -/
def State.withRegs (s : State) (e : EncRegs) (d : DecRegs) : State := { s with enc := e, dec := d }

/-- The engine that the mode selects agrees where a command may read it (R31, R32). -/
def EngineAgree (mode : SMode) (s s' : State) : Prop :=
  match mode with
  | .compress => EncAgree s.enc s'.enc
  | .decompress => DecAgree s.dec s'.dec

theorem EncAgree.refl (e : EncRegs) : EncAgree e e :=
  ⟨rfl, rfl, fun _ => rfl, fun _ _ _ => ⟨fun _ => rfl, fun _ _ => rfl⟩⟩

theorem DecAgree.refl (d : DecRegs) : DecAgree d d :=
  ⟨rfl, fun _ => rfl⟩

theorem EngineAgree.refl (mode : SMode) (s : State) : EngineAgree mode s s := by
  cases mode with
  | compress => exact EncAgree.refl s.enc
  | decompress => exact DecAgree.refl s.dec

section
variable {e e' : EncRegs} {n : Count} {p : Option Byte}

theorem EncAgree.mode_eq {m : Option EncMode} (h : EncAgree e e') (hm : e.mode = m) : e'.mode = m :=
  h.1.symm.trans hm

theorem EncAgree.runCount_eq {n : Option Count} (h : EncAgree e e') (hn : e.runCount = n) : e'.runCount = n :=
  h.2.1.symm.trans hn

theorem EncAgree.pending_of_repeating (h : EncAgree e e') (hm : e.mode = some .repeating) (hp : e.pendingByte = p) :
    e'.pendingByte = p :=
  (h.2.2.1 hm).symm.trans hp

theorem EncAgree.pending_of_accumulating (h : EncAgree e e') (hm : e.mode = some .accumulating)
    (hn : e.runCount = some n) (hpos : 1 ≤ n.toNat) (hp : e.pendingByte = p) : e'.pendingByte = p :=
  ((h.2.2.2 n hm hn).1 hpos).symm.trans hp

theorem EncAgree.cells (h : EncAgree e e') (hm : e.mode = some .accumulating) (hn : e.runCount = some n) :
    ∀ i < n.toNat, Memory.read e.blockBuffer i = Memory.read e'.blockBuffer i :=
  (h.2.2.2 n hm hn).2

theorem encAgree_repeating (hm : e.mode = some .repeating) (hmode : e.mode = e'.mode)
    (hcount : e.runCount = e'.runCount) (hpending : e.pendingByte = e'.pendingByte) : EncAgree e e' :=
  ⟨hmode, hcount, fun _ => hpending, fun _ hacc => by rw [hm] at hacc; cases hacc⟩

theorem encAgree_accumulating (hn : e.runCount = some n) (hmode : e.mode = e'.mode) (hcount : e.runCount = e'.runCount)
    (hpending : e.pendingByte = e'.pendingByte)
    (hcells : ∀ i < n.toNat, Memory.read e.blockBuffer i = Memory.read e'.blockBuffer i) : EncAgree e e' := by
  refine ⟨hmode, hcount, fun _ => hpending, fun k _ hk => ⟨fun _ => hpending, ?_⟩⟩
  obtain rfl : n = k := Option.some.inj (hn.symm.trans hk)
  exact hcells

/-- An empty block holds no cell and no pending byte that a command reads. -/
theorem encAgree_empty (hm : e.mode = some .accumulating) (hn : e.runCount = some 0#7) (hmode : e.mode = e'.mode)
    (hcount : e.runCount = e'.runCount) : EncAgree e e' := by
  refine ⟨hmode, hcount, fun hrep => ?_, fun k _ hk => ?_⟩
  · rw [hm] at hrep
    cases hrep
  · obtain rfl : 0#7 = k := Option.some.inj (hn.symm.trans hk)
    exact ⟨fun h => absurd h (Nat.lt_irrefl 0), fun i hi => absurd hi (Nat.not_lt_zero i)⟩

end

/-! ### Plans -/

/-- What follows the bytes of a command. -/
inductive Ending where
  /-- The model stops. -/
  | stop (f : Fault)
  /-- A fault of the block that is not the sink's. -/
  | raise (kind : FaultKind)
  /-- The session goes on, with these registers. -/
  | goOn (f : EncRegs → EncRegs) (g : DecRegs → DecRegs)
  /-- The sink is flushed and the session is DONE, with these registers. -/
  | flush (f : EncRegs → EncRegs)

def Ending.run : Ending → State → Flow
  | .stop f, _ => .stop f
  | .raise kind, s => .raised kind s
  | .goOn f g, s => .done (s.withRegs (f s.enc) (g s.dec))
  | .flush f, s => (sinkFlush s).andThen fun s => .done (sessionDone (s.withRegs (f s.enc) s.dec))

/-- The bytes that a command offers to the sink, and what follows them if all are accepted. -/
structure Plan where
  bytes  : List Byte
  ending : Ending

def Plan.outcome (p : Plan) (s : State) : Host.Outcome State Fault Refusal :=
  finish ((emitAll p.bytes s).andThen p.ending.run)

theorem Plan.outcome_accept {p : Plan} {s : State} (h : s.accepts p.bytes.length) :
    p.outcome s = finish (p.ending.run ((s.drawn p.bytes.length).emitted p.bytes)) := by
  rw [Plan.outcome, emitAll_accept h, Flow.done_andThen]

theorem Plan.outcome_reject {p : Plan} {s : State} {j : Nat} (hj : j < p.bytes.length) (ha : s.accepts j)
    (hr : s.answer j = .reject) :
    p.outcome s = .next (faultEntry .writeFault ((s.drawn (j + 1)).emitted (p.bytes.take j))) := by
  rw [Plan.outcome, emitAll_reject hj ha hr, Flow.raised_andThen, finish_raised]

/-- The plan ends in `E`, unless a cell of its literal stops the model before. -/
def Plan.EndsIn (p : Plan) (E : Ending) : Prop := p.ending = E ∨ ∃ x, p.ending = .stop x

/-- The plan is what the command does in this state, and in every other that agrees with it where the command reads; and
a session that goes on agrees there again. -/
structure Plan.Fits (p : Plan) (mode : SMode) (c : SessionCommand) (s : State) : Prop where
  outcome : ∀ s', EngineAgree mode s s' → finish (sessionBody mode c s') = p.outcome s'
  keeps : ∀ f g, p.ending = .goOn f g → ∀ s', EngineAgree mode s s' →
    EngineAgree mode (s.withRegs (f s.enc) (g s.dec)) (s'.withRegs (f s'.enc) (g s'.dec))
  flushes : ∀ f, p.ending = .flush f → c = .fin

/-! ### The plan of a literal -/

theorem emit_andThen_congr {b : Byte} {s : State} {k l : State → Flow} (h : ∀ t, t.enc = s.enc → k t = l t) :
    (emit b s).andThen k = (emit b s).andThen l := by
  rcases s.answer_cases 0 with ha | ha
  · rw [emit_accept b ha]
    exact h _ rfl
  · rw [emit_reject b ha]
    rfl

/-- The cells are read one by one, so the bytes before a cell that stops the model are offered. -/
theorem exists_plan_emitCells (m : Memory) (i n : Nat) (E : Ending) :
    ∃ p : Plan, p.EndsIn E ∧ ∀ s : State,
      (∀ j < n, Memory.read m (i + j) = Memory.read s.enc.blockBuffer (i + j)) →
      (emitCells i n s).andThen E.run = (emitAll p.bytes s).andThen p.ending.run := by
  induction n generalizing i with
  | zero => exact ⟨⟨[], E⟩, .inl rfl, fun s _ => rfl⟩
  | succ n ih =>
    by_cases hi : i < Config.bufCap
    · cases hcell : Memory.read m i with
      | none =>
        refine ⟨⟨[], .stop .modelUnwrittenRead⟩, .inr ⟨_, rfl⟩, fun s hs => ?_⟩
        have hread : Memory.read s.enc.blockBuffer i = none := (hs 0 (Nat.succ_pos n)).symm.trans hcell
        rw [emitCells, memRead, if_pos hi, hread]
        rfl
      | some b =>
        obtain ⟨p, hends, hp⟩ := ih (i + 1)
        refine ⟨⟨b :: p.bytes, p.ending⟩, hends, fun s hs => ?_⟩
        have hread : Memory.read s.enc.blockBuffer i = some b := (hs 0 (Nat.succ_pos n)).symm.trans hcell
        rw [emitCells, memRead_hit _ hi hread, emitAll, Flow.andThen_assoc, Flow.andThen_assoc]
        refine emit_andThen_congr fun t ht => hp t fun j hj => ?_
        rw [ht, Nat.add_assoc, Nat.add_comm 1]
        exact hs (j + 1) (Nat.succ_lt_succ hj)
    · refine ⟨⟨[], .stop .modelInvariant⟩, .inr ⟨_, rfl⟩, fun s _ => ?_⟩
      rw [emitCells, memRead, if_neg hi]
      rfl

theorem exists_plan_writeLit (m : Memory) (n : Nat) (E : Ending) :
    ∃ p : Plan, p.EndsIn E ∧ ∀ s : State, (∀ i < n, Memory.read m i = Memory.read s.enc.blockBuffer i) →
      (writeLit n s).andThen E.run = (emitAll p.bytes s).andThen p.ending.run := by
  cases hstatus : encodeStatus .literal n with
  | none =>
    refine ⟨⟨[], .stop .modelInvariant⟩, .inr ⟨_, rfl⟩, fun s _ => ?_⟩
    rw [writeLit, statusByte, hstatus]
    rfl
  | some b =>
    obtain ⟨p, hends, hp⟩ := exists_plan_emitCells m 0 n E
    refine ⟨⟨b :: p.bytes, p.ending⟩, hends, fun s hs => ?_⟩
    rw [writeLit, statusByte, hstatus, emitAll, Flow.andThen_assoc]
    simp only [Flow.andThen_assoc]
    refine emit_andThen_congr fun t ht => hp t fun j hj => ?_
    rw [ht, Nat.zero_add]
    exact hs j hj

theorem exists_plan_literal (m : Memory) (n : Nat) (E : Ending) :
    ∃ p : Plan, p.EndsIn E ∧ ∀ s : State, (∀ i < n, Memory.read m i = Memory.read s.enc.blockBuffer i) →
      finish ((if 0 < n then writeLit n s else .done s).andThen E.run) = p.outcome s := by
  by_cases hn : 0 < n
  · obtain ⟨p, hends, hp⟩ := exists_plan_writeLit m n E
    exact ⟨p, hends, fun s hs => by rw [if_pos hn, hp s hs, Plan.outcome]⟩
  · exact ⟨⟨[], E⟩, .inl rfl, fun s _ => by rw [if_neg hn]; rfl⟩

/-- Registers written before the bytes are offered can be written after them: a fault on the way discards them. -/
theorem Plan.outcome_withRegs {p p' : Plan} (e : EncRegs) (s : State) (hbytes : p'.bytes = p.bytes)
    (hending : ∀ t : State, t.enc = s.enc → p.ending.run (t.withRegs e t.dec) = p'.ending.run t) :
    p.outcome (s.withRegs e s.dec) = p'.outcome s := by
  rcases s.accepts_or_first_reject p.bytes.length with ha | ⟨j, hj, ha, hr⟩
  · have ha' : (s.withRegs e s.dec).accepts p.bytes.length := ha
    rw [Plan.outcome_accept ha', Plan.outcome_accept (hbytes ▸ ha), hbytes]
    exact congrArg finish (hending ((s.drawn _).emitted _) rfl)
  · have ha' : (s.withRegs e s.dec).accepts j := ha
    have hr' : (s.withRegs e s.dec).answer j = .reject := hr
    rw [Plan.outcome_reject hj ha' hr', Plan.outcome_reject (hbytes ▸ hj) ha hr, hbytes]
    rfl

/-! ### ENC.BYTE -/

/-- What ENC.BYTE and ENC.FIN find when they read the mode and the count: a stop, or one of R28's two. -/
inductive RestCase (e : EncRegs) : Prop where
  | bottom (h : e.mode = none ∨ e.runCount = none)
  | outside (mode : EncMode) (n : Count) (hm : e.mode = some mode) (hn : e.runCount = some n)
      (h : restingCount mode n = false)
  | block (n : Count) (hm : e.mode = some .accumulating) (hn : e.runCount = some n) (h2 : n.toNat ≤ 126)
  | run (n : Count) (hm : e.mode = some .repeating) (hn : e.runCount = some n) (h1 : 2 ≤ n.toNat) (h2 : n.toNat ≤ 126)

theorem restCase (e : EncRegs) : RestCase e := by
  cases hm : e.mode with
  | none => exact .bottom (.inl hm)
  | some mode =>
    cases hn : e.runCount with
    | none => exact .bottom (.inr hn)
    | some n =>
      cases hresting : restingCount mode n with
      | false => exact .outside mode n hm hn hresting
      | true =>
        cases mode with
        | accumulating => exact .block n hm hn (of_decide_eq_true hresting)
        | repeating =>
          obtain ⟨h1, h2⟩ := of_decide_eq_true hresting
          exact .run n hm hn h1 h2

/-- The case that ENC.BYTE takes, from the registers that it reads: a stop, or one of R65's six. -/
inductive EncByteCase (b : Byte) (e : EncRegs) : Prop where
  | bottom (h : e.mode = none ∨ e.runCount = none)
  | outside (mode : EncMode) (n : Count) (hm : e.mode = some mode) (hn : e.runCount = some n)
      (h : restingCount mode n = false)
  | blockNoPending (n : Count) (hm : e.mode = some .accumulating) (hn : e.runCount = some n) (h1 : 1 ≤ n.toNat)
      (h2 : n.toNat ≤ 126) (hp : e.pendingByte = none)
  | runNoPending (n : Count) (hm : e.mode = some .repeating) (hn : e.runCount = some n) (h1 : 2 ≤ n.toNat)
      (h2 : n.toNat ≤ 126) (hp : e.pendingByte = none)
  | pair (n : Count) (hm : e.mode = some .accumulating) (hn : e.runCount = some n) (h1 : 1 ≤ n.toNat)
      (h2 : n.toNat ≤ 126) (hp : e.pendingByte = some b)
  | append (n : Count) (hm : e.mode = some .accumulating) (hn : e.runCount = some n) (h : n.toNat < 126)
      (hp : n = 0#7 ∨ ∃ p, e.pendingByte = some p ∧ p ≠ b)
  | full (p : Byte) (hm : e.mode = some .accumulating) (hn : e.runCount = some 126#7) (hp : e.pendingByte = some p)
      (hne : b ≠ p)
  | extend (n : Count) (hm : e.mode = some .repeating) (hn : e.runCount = some n) (h1 : 2 ≤ n.toNat)
      (h2 : n.toNat < 126) (hp : e.pendingByte = some b)
  | repFull (hm : e.mode = some .repeating) (hn : e.runCount = some 126#7) (hp : e.pendingByte = some b)
  | broken (n : Count) (p : Byte) (hm : e.mode = some .repeating) (hn : e.runCount = some n) (h1 : 2 ≤ n.toNat)
      (h2 : n.toNat ≤ 126) (hp : e.pendingByte = some p) (hne : b ≠ p)

theorem encByteCase_block {b : Byte} {e : EncRegs} {n : Count} (hm : e.mode = some .accumulating)
    (hn : e.runCount = some n) (h2 : n.toNat ≤ 126) : EncByteCase b e := by
  by_cases h0 : n = 0#7
  · exact .append n hm hn (by rw [h0]; decide) (.inl h0)
  · have h1 : 1 ≤ n.toNat := (Count.bounds_of_ne_zero h0).1
    cases hp : e.pendingByte with
    | none => exact .blockNoPending n hm hn h1 h2 hp
    | some p =>
      by_cases hbp : b = p
      · exact .pair n hm hn h1 h2 (hbp ▸ hp)
      · by_cases hfull : n.toNat < 126
        · exact .append n hm hn hfull (.inr ⟨p, hp, Ne.symm hbp⟩)
        · obtain rfl : n = 126#7 := BitVec.eq_of_toNat_eq (Nat.le_antisymm h2 (Nat.le_of_not_lt hfull))
          exact .full p hm hn hp hbp

theorem encByteCase_run {b : Byte} {e : EncRegs} {n : Count} (hm : e.mode = some .repeating)
    (hn : e.runCount = some n) (h1 : 2 ≤ n.toNat) (h2 : n.toNat ≤ 126) : EncByteCase b e := by
  cases hp : e.pendingByte with
  | none => exact .runNoPending n hm hn h1 h2 hp
  | some p =>
    by_cases hbp : b = p
    · subst hbp
      by_cases hfull : n.toNat < 126
      · exact .extend n hm hn h1 hfull hp
      · obtain rfl : n = 126#7 := BitVec.eq_of_toNat_eq (Nat.le_antisymm h2 (Nat.le_of_not_lt hfull))
        exact .repFull hm hn hp
    · exact .broken n p hm hn h1 h2 hp hbp

theorem encByteCase (b : Byte) (e : EncRegs) : EncByteCase b e := by
  cases restCase e with
  | bottom h => exact .bottom h
  | outside mode n hm hn h => exact .outside mode n hm hn h
  | block n hm hn h2 => exact encByteCase_block hm hn h2
  | run n hm hn h1 h2 => exact encByteCase_run hm hn h1 h2

/-- The plan is that of ENC.BYTE of `b` in a compress session, and leaves the registers that `f` makes. -/
structure Plan.Encodes (p : Plan) (b : Byte) (e : EncRegs) (f : EncRegs → EncRegs) : Prop where
  outcome : ∀ s : State, EncAgree e s.enc → finish (encByte b s) = p.outcome s
  ends : p.EndsIn (.goOn f id)
  keeps : ∀ e', EncAgree e e' → EncAgree (f e) (f e')

section
variable {b : Byte} {e : EncRegs} {n : Count} {p : Byte}

theorem encodes_stop {x : Fault} (h : ∀ s : State, EncAgree e s.enc → encByte b s = .stop x) :
    Plan.Encodes ⟨[], .stop x⟩ b e id :=
  ⟨fun s hs => by rw [h s hs]; rfl, .inr ⟨x, rfl⟩, fun _ => id⟩

/-- R66: the registers after a pair. -/
def pairRegs (b : Byte) (e : EncRegs) : EncRegs :=
  { e with mode := some .repeating, runCount := some 2#7, pendingByte := some b }

theorem exists_encodes_pair (hm : e.mode = some .accumulating) (hn : e.runCount = some n) (h1 : 1 ≤ n.toNat)
    (h2 : n.toNat ≤ 126) (hp : e.pendingByte = some b) : ∃ p : Plan, p.Encodes b e (pairRegs b) := by
  obtain ⟨p, hends, hplan⟩ := exists_plan_literal e.blockBuffer (n - 1#7).toNat (.goOn (pairRegs b) id)
  have hpred : (n - 1#7).toNat = n.toNat - 1 := Count.toNat_pred h1
  refine ⟨p, fun s hs => ?_, hends, fun _ _ => encAgree_repeating rfl rfl rfl rfl⟩
  rw [encByte_pair (hs.mode_eq hm) (hs.runCount_eq hn) h1 h2 (hs.pending_of_accumulating hm hn h1 hp), encAccPair,
    decrement_of_pos _ h1, ← hplan s fun i hi => hs.cells hm hn i (by omega)]
  rfl

/-- R67: the registers after the byte joins a block. -/
def appendRegs (b : Byte) (n : Count) (e : EncRegs) : EncRegs :=
  { mode := some .accumulating, runCount := some (n + 1#7), pendingByte := some b,
    blockBuffer := Memory.write e.blockBuffer n.toNat b }

theorem read_write_congr {m m' : Memory} {a i : Nat} {v : Byte} (h : i ≠ a → Memory.read m i = Memory.read m' i) :
    Memory.read (Memory.write m a v) i = Memory.read (Memory.write m' a v) i := by
  rw [Memory.read_write, Memory.read_write]
  by_cases hi : i = a
  · rw [if_pos hi, if_pos hi]
  · rw [if_neg hi, if_neg hi, h hi]

theorem encodes_append (hm : e.mode = some .accumulating) (hn : e.runCount = some n) (h : n.toNat < 126)
    (hp : n = 0#7 ∨ ∃ p, e.pendingByte = some p ∧ p ≠ b) :
    Plan.Encodes ⟨[], .goOn (appendRegs b n) id⟩ b e (appendRegs b n) := by
  refine ⟨fun s hs => ?_, .inl rfl, fun e' he => encAgree_accumulating rfl rfl rfl rfl fun i hi => ?_⟩
  · have hp' : n = 0#7 ∨ ∃ p, s.enc.pendingByte = some p ∧ p ≠ b := by
      by_cases h0 : n = 0#7
      · exact .inl h0
      · obtain ⟨p, hp, hne⟩ := hp.resolve_left h0
        exact .inr ⟨p, hs.pending_of_accumulating hm hn (Count.bounds_of_ne_zero h0).1 hp, hne⟩
    rw [encByte_append (hs.mode_eq hm) (hs.runCount_eq hn) h hp', encAccAppend, memWrite_of_lt b s (by omega),
      Flow.done_andThen, increment_of_lt _ (by omega)]
    rfl
  · rw [Count.toNat_succ (by omega)] at hi
    exact read_write_congr fun hne => he.cells hm hn i (by omega)

/-- R68: the registers when a full block is out. -/
def fullRegs (b : Byte) (e : EncRegs) : EncRegs :=
  { mode := some .accumulating, runCount := some 0#7, pendingByte := some b,
    blockBuffer := Memory.write e.blockBuffer 126 b }

theorem exists_encodes_full (hm : e.mode = some .accumulating) (hn : e.runCount = some 126#7)
    (hp : e.pendingByte = some p) (hne : b ≠ p) : ∃ p : Plan, p.Encodes b e (fullRegs b) := by
  obtain ⟨q, hends, hq⟩ := exists_plan_writeLit (Memory.write e.blockBuffer 126 b) 127
    (.goOn (fun e => { e with mode := some .accumulating, runCount := some 0#7, pendingByte := some b }) id)
  have houtcome (s : State) (hs : EncAgree e s.enc) :
      finish (encByte b s) = q.outcome (s.withRegs ((s.setCell 126 b).setRun .accumulating 127#7).enc s.dec) := by
    have hpending : s.enc.pendingByte = some p := hs.pending_of_accumulating hm hn (by decide) hp
    rw [encByte_full (hs.mode_eq hm) (hs.runCount_eq hn) hpending hne, encAccFull, memWrite_of_lt b s (by omega),
      Flow.done_andThen, Plan.outcome, ← hq]
    · rfl
    · intro i hi
      exact read_write_congr fun hlast => hs.cells hm hn i (show i < 126 by omega)
  have hkeeps (e' : EncRegs) (_ : EncAgree e e') : EncAgree (fullRegs b e) (fullRegs b e') :=
    encAgree_empty rfl rfl rfl rfl
  rcases hends with hgo | ⟨x, hstop⟩
  · refine ⟨⟨q.bytes, .goOn (fullRegs b) id⟩, fun s hs => ?_, .inl rfl, hkeeps⟩
    rw [houtcome s hs]
    refine Plan.outcome_withRegs _ s rfl fun t ht => ?_
    simp only [hgo, Ending.run, ht]
    rfl
  · refine ⟨q, fun s hs => ?_, .inr ⟨x, hstop⟩, hkeeps⟩
    rw [houtcome s hs]
    exact Plan.outcome_withRegs _ s rfl fun t _ => by rw [hstop]; rfl

/-- R69: the registers of a run of one byte more. -/
def extendRegs (n : Count) (e : EncRegs) : EncRegs :=
  { e with mode := some .repeating, runCount := some (n + 1#7) }

theorem encodes_extend (hm : e.mode = some .repeating) (hn : e.runCount = some n) (h1 : 2 ≤ n.toNat)
    (h2 : n.toNat < 126) (hp : e.pendingByte = some b) :
    Plan.Encodes ⟨[], .goOn (extendRegs n) id⟩ b e (extendRegs n) := by
  refine ⟨fun s hs => ?_, .inl rfl, fun e' he => encAgree_repeating rfl rfl rfl ?_⟩
  · rw [encByte_extend (hs.mode_eq hm) (hs.runCount_eq hn) h1 h2 (hs.pending_of_repeating hm hp), encRepExtend,
      increment_of_lt _ (by omega)]
    rfl
  · exact hp.trans (he.pending_of_repeating hm hp).symm

/-- R70, and R72 once the final record is out: no block and no run. -/
def emptyRegs (e : EncRegs) : EncRegs :=
  { e with mode := some .accumulating, runCount := some 0#7 }

theorem encodes_repFull (hm : e.mode = some .repeating) (hn : e.runCount = some 126#7)
    (hp : e.pendingByte = some b) :
    Plan.Encodes ⟨(Record.run 127 b).bytes, .goOn emptyRegs id⟩ b e emptyRegs := by
  refine ⟨fun s hs => ?_, .inl rfl, fun e' _ => encAgree_empty rfl rfl rfl rfl⟩
  rw [encByte_repFull (hs.mode_eq hm) (hs.runCount_eq hn) (hs.pending_of_repeating hm hp), encRepFull,
    writeRun_eq_emitAll b _ (by omega) (by omega)]
  refine Plan.outcome_withRegs (p := ⟨(Record.run 127 b).bytes, .goOn emptyRegs id⟩)
    (s.setRun .repeating 127#7).enc s rfl fun t ht => ?_
  simp only [Ending.run, ht]
  rfl

/-- R71: the registers after a run is broken. -/
def breakRegs (b : Byte) (e : EncRegs) : EncRegs :=
  { mode := some .accumulating, runCount := some 1#7, pendingByte := some b,
    blockBuffer := Memory.write e.blockBuffer 0 b }

theorem encodes_break (hm : e.mode = some .repeating) (hn : e.runCount = some n) (h1 : 2 ≤ n.toNat)
    (h2 : n.toNat ≤ 126) (hp : e.pendingByte = some p) (hne : b ≠ p) :
    Plan.Encodes ⟨(Record.run n.toNat p).bytes, .goOn (breakRegs b) id⟩ b e (breakRegs b) := by
  refine ⟨fun s hs => ?_, .inl rfl, fun e' he => encAgree_accumulating rfl rfl rfl rfl fun i hi => ?_⟩
  · rw [encByte_break (hs.mode_eq hm) (hs.runCount_eq hn) h1 h2 (hs.pending_of_repeating hm hp) hne, encRepBreak,
      writeRun_eq_emitAll p s (by omega) (by omega)]
    rfl
  · exact read_write_congr fun hne => absurd (Nat.lt_one_iff.mp hi) hne

/-- R65. -/
theorem exists_encodes (b : Byte) (e : EncRegs) : ∃ p f, Plan.Encodes p b e f := by
  cases encByteCase b e with
  | bottom h =>
    exact ⟨_, _, encodes_stop fun s hs => readingEncoder_of_bottom _ (h.imp hs.mode_eq hs.runCount_eq)⟩
  | outside mode n hm hn h =>
    exact ⟨_, _, encodes_stop fun s hs => readingEncoder_outside _ (hs.mode_eq hm) (hs.runCount_eq hn) h⟩
  | blockNoPending n hm hn h1 h2 hp =>
    refine ⟨_, _, encodes_stop (x := .modelUnwrittenRead) fun s hs => ?_⟩
    rw [encByte_accumulating b (hs.mode_eq hm) (hs.runCount_eq hn) h2, encAccumulating,
      if_neg (Count.ne_zero_of_pos h1), hs.pending_of_accumulating hm hn h1 hp, reading_none]
  | runNoPending n hm hn h1 h2 hp =>
    refine ⟨_, _, encodes_stop (x := .modelUnwrittenRead) fun s hs => ?_⟩
    rw [encByte_repeating b (hs.mode_eq hm) (hs.runCount_eq hn) h1 h2, encRepeating, hs.pending_of_repeating hm hp,
      reading_none]
  | pair n hm hn h1 h2 hp => exact (exists_encodes_pair hm hn h1 h2 hp).imp fun p h => ⟨_, h⟩
  | append n hm hn h hp => exact ⟨_, _, encodes_append hm hn h hp⟩
  | full p hm hn hp hne => exact (exists_encodes_full hm hn hp hne).imp fun p h => ⟨_, h⟩
  | extend n hm hn h1 h2 hp => exact ⟨_, _, encodes_extend hm hn h1 h2 hp⟩
  | repFull hm hn hp => exact ⟨_, _, encodes_repFull hm hn hp⟩
  | broken n p hm hn h1 h2 hp hne => exact ⟨_, _, encodes_break hm hn h1 h2 hp hne⟩

end

/-! ### ENC.FIN -/

/-- R72. -/
theorem exists_plan_encFin (e : EncRegs) :
    ∃ p : Plan, p.EndsIn (.flush emptyRegs) ∧ ∀ s : State, EncAgree e s.enc → finish (encFin s) = p.outcome s := by
  have hstop {x : Fault} (h : ∀ s : State, EncAgree e s.enc → encFinRecord s = .stop x) :
      ∃ p : Plan, p.EndsIn (.flush emptyRegs) ∧ ∀ s : State, EncAgree e s.enc → finish (encFin s) = p.outcome s :=
    ⟨⟨[], .stop x⟩, .inr ⟨x, rfl⟩, fun s hs => by rw [encFin_of_record_stop (h s hs)]; rfl⟩
  cases restCase e with
  | bottom h => exact hstop fun s hs => readingEncoder_of_bottom _ (h.imp hs.mode_eq hs.runCount_eq)
  | outside mode n hm hn h =>
    exact hstop fun s hs => readingEncoder_outside _ (hs.mode_eq hm) (hs.runCount_eq hn) h
  | block n hm hn h2 =>
    obtain ⟨p, hends, hplan⟩ := exists_plan_literal e.blockBuffer n.toNat (.flush emptyRegs)
    refine ⟨p, hends, fun s hs => ?_⟩
    rw [encFin, encFinRecord_accumulating (hs.mode_eq hm) (hs.runCount_eq hn) h2, ← hplan s (hs.cells hm hn)]
    rfl
  | run n hm hn h1 h2 =>
    cases hp : e.pendingByte with
    | none =>
      refine hstop (x := .modelUnwrittenRead) fun s hs => ?_
      exact encFinRecord_of_no_pending (hs.mode_eq hm) (hs.runCount_eq hn) h1 h2 (hs.pending_of_repeating hm hp)
    | some b =>
      refine ⟨⟨(Record.run n.toNat b).bytes, .flush emptyRegs⟩, .inl rfl, fun s hs => ?_⟩
      rw [encFin, encFinRecord_repeating (hs.mode_eq hm) (hs.runCount_eq hn) h1 h2 (hs.pending_of_repeating hm hp),
        writeRun_eq_emitAll b s (by omega) (by omega)]
      rfl

/-! ### The decoder -/

theorem DecAgree.phase_eq {d d' : DecRegs} {p : Option Phase} (h : DecAgree d d') (hp : d.phase = p) : d'.phase = p :=
  h.1.symm.trans hp

theorem DecAgree.remaining_eq {d d' : DecRegs} {p : Phase} {n : Option Count} (h : DecAgree d d')
    (hp : d.phase = some p) (hne : p ≠ .awaitingStatus) (hn : d.remaining = n) : d'.remaining = n :=
  (h.2 (by rw [hp]; exact fun heq => hne (Option.some.inj heq))).symm.trans hn

/-- R76 to R81. -/
structure Plan.Decodes (p : Plan) (b : Byte) (d : DecRegs) (g : DecRegs → DecRegs) : Prop where
  outcome : ∀ s : State, DecAgree d s.dec → finish (decByte b s) = p.outcome s
  ends : p.EndsIn (.goOn id g)
  keeps : ∀ d', DecAgree d d' → DecAgree (g d) (g d')

theorem decodes_stop {b : Byte} {d : DecRegs} {x : Fault} (h : ∀ s : State, DecAgree d s.dec → decByte b s = .stop x) :
    Plan.Decodes ⟨[], .stop x⟩ b d id :=
  ⟨fun s hs => by rw [h s hs]; rfl, .inr ⟨x, rfl⟩, fun _ => id⟩

theorem exists_decodes_status (b : Byte) {d : DecRegs} (hp : d.phase = some .awaitingStatus) :
    ∃ p g, Plan.Decodes p b d g := by
  obtain ⟨⟨kind, n⟩, hb⟩ : ∃ x, decodeStatus b = x := ⟨_, rfl⟩
  by_cases hn : n = 0#7
  · refine ⟨⟨[], .goOn id id⟩, id, fun s hs => ?_, .inl rfl, fun _ => id⟩
    rw [decByte_awaiting b (hs.phase_eq hp), decStatus, hb]
    simp only [if_pos hn]
    rfl
  · refine ⟨⟨[], .goOn id fun _ => ⟨some (payloadPhase kind), some n⟩⟩, _, fun s hs => ?_, .inl rfl,
      fun _ _ => DecAgree.refl _⟩
    rw [decByte_awaiting b (hs.phase_eq hp), decStatus, hb]
    cases kind <;> simp only [if_neg hn] <;> rfl

/-- Both payload phases begin by reading the remaining count (I3). -/
theorem decByte_payload_stop {b : Byte} {s : State} {phase : Phase} {x : Fault} (hp : s.dec.phase = some phase)
    (hne : phase ≠ .awaitingStatus) (h : ∀ k, readingRemaining s k = .stop x) : decByte b s = .stop x := by
  cases phase with
  | awaitingStatus => exact absurd rfl hne
  | readingRunByte => exact (decByte_runByte b hp).trans (h _)
  | readingBlockBytes => exact (decByte_blockByte b hp).trans (h _)

/-- R80. -/
theorem decodes_runByte (b : Byte) {d : DecRegs} {n : Count} (hp : d.phase = some .readingRunByte)
    (hr : d.remaining = some n) (hn : 1 ≤ n.toNat) :
    Plan.Decodes ⟨List.replicate n.toNat b, .goOn id fun d => { d with phase := some .awaitingStatus }⟩ b d
      fun d => { d with phase := some .awaitingStatus } := by
  refine ⟨fun s hs => ?_, .inl rfl, fun _ _ => ⟨rfl, fun h => absurd rfl h⟩⟩
  rw [decByte_runByte b (hs.phase_eq hp), decRunByte, readingRemaining_some _ (hs.remaining_eq hp (by decide) hr) hn]
  rfl

/-- R81. -/
theorem decodes_blockByte (b : Byte) {d : DecRegs} {n : Count} (hp : d.phase = some .readingBlockBytes)
    (hr : d.remaining = some n) (hn : 1 ≤ n.toNat) :
    Plan.Decodes ⟨[b], .goOn id fun d => d.afterBlockByte n⟩ b d fun d => d.afterBlockByte n := by
  refine ⟨fun s hs => ?_, .inl rfl, fun d' hd => ?_⟩
  · have hnext (t : State) : (decrement n fun n' => Flow.done
        (if n' = 0#7 then t.setRecord .awaitingStatus n' else t.setRemaining n')) =
        (Ending.goOn id fun d => d.afterBlockByte n).run t := by
      rw [decrement_of_pos _ hn, Ending.run, DecRegs.afterBlockByte]
      by_cases hlast : n - 1#7 = 0#7
      · rw [if_pos hlast, if_pos hlast, hlast]
        rfl
      · rw [if_neg hlast, if_neg hlast]
        rfl
    rw [decByte_blockByte b (hs.phase_eq hp), decBlockByte,
      readingRemaining_some _ (hs.remaining_eq hp (by decide) hr) hn, ← emitAll_singleton, funext hnext]
    rfl
  · have hphase : d.phase = d'.phase := hd.1
    unfold DecRegs.afterBlockByte
    split
    · exact DecAgree.refl _
    · exact ⟨hphase, fun _ => rfl⟩

theorem exists_decodes_payload (b : Byte) {d : DecRegs} {phase : Phase} (hp : d.phase = some phase)
    (hne : phase ≠ .awaitingStatus) : ∃ p g, Plan.Decodes p b d g := by
  cases hr : d.remaining with
  | none =>
    refine ⟨_, _, decodes_stop (x := .modelUnwrittenRead) fun s hs =>
      decByte_payload_stop (hs.phase_eq hp) hne fun k => ?_⟩
    rw [readingRemaining, hs.remaining_eq hp hne hr, reading_none]
  | some n =>
    by_cases h0 : n = 0#7
    · refine ⟨_, _, decodes_stop (x := .modelInvariant) fun s hs =>
      decByte_payload_stop (hs.phase_eq hp) hne fun k => ?_⟩
      rw [readingRemaining, hs.remaining_eq hp hne hr, reading_some, if_pos h0]
    · have hn : 1 ≤ n.toNat := (Count.bounds_of_ne_zero h0).1
      cases phase with
      | awaitingStatus => exact absurd rfl hne
      | readingRunByte => exact ⟨_, _, decodes_runByte b hp hr hn⟩
      | readingBlockBytes => exact ⟨_, _, decodes_blockByte b hp hr hn⟩

theorem exists_decodes (b : Byte) (d : DecRegs) : ∃ p g, Plan.Decodes p b d g := by
  cases hp : d.phase with
  | none => exact ⟨_, _, decodes_stop fun s hs => decByte_of_no_phase b (hs.phase_eq hp)⟩
  | some phase =>
    by_cases hphase : phase = .awaitingStatus
    · exact exists_decodes_status b (hphase ▸ hp)
    · exact exists_decodes_payload b hp hphase

/-- R82. -/
theorem exists_plan_decFin (d : DecRegs) :
    ∃ p : Plan, (∀ f g, p.ending ≠ .goOn f g) ∧ ∀ s : State, DecAgree d s.dec → finish (decFin s) = p.outcome s := by
  cases hp : d.phase with
  | none =>
    refine ⟨⟨[], .stop .modelUnwrittenRead⟩, nofun, fun s hs => ?_⟩
    rw [decFin, hs.phase_eq hp]
    rfl
  | some phase =>
    cases phase with
    | awaitingStatus =>
      refine ⟨⟨[], .flush id⟩, nofun, fun s hs => ?_⟩
      rw [decFin, hs.phase_eq hp]
      rfl
    | readingRunByte | readingBlockBytes =>
      refine ⟨⟨[], .raise .truncatedStream⟩, nofun, fun s hs => ?_⟩
      rw [decFin, hs.phase_eq hp]
      rfl

/-! ### Every command of a session -/

theorem Plan.EndsIn.goOn_inj {p : Plan} {f f' : EncRegs → EncRegs} {g g' : DecRegs → DecRegs}
    (h : p.EndsIn (.goOn f g)) (h' : p.ending = .goOn f' g') : f = f' ∧ g = g' := by
  rcases h with h | ⟨x, h⟩ <;> rw [h] at h' <;> cases h'
  exact ⟨rfl, rfl⟩

theorem Plan.EndsIn.flush_inj {p : Plan} {f f' : EncRegs → EncRegs} (h : p.EndsIn (.flush f))
    (h' : p.ending = .flush f') : f' = f := by
  rcases h with h | ⟨x, h⟩ <;> rw [h] at h' <;> cases h'
  rfl

theorem Plan.EndsIn.not_goOn_of_flush {p : Plan} {f f' : EncRegs → EncRegs} {g : DecRegs → DecRegs}
    (h : p.EndsIn (.flush f)) : p.ending ≠ .goOn f' g := by
  intro h'
  rcases h with h | ⟨x, h⟩ <;> rw [h] at h' <;> cases h'

theorem Plan.EndsIn.not_flush_of_goOn {p : Plan} {f f' : EncRegs → EncRegs} {g : DecRegs → DecRegs}
    (h : p.EndsIn (.goOn f g)) : p.ending ≠ .flush f' := by
  intro h'
  rcases h with h | ⟨x, h⟩ <;> rw [h] at h' <;> cases h'

theorem Plan.Encodes.fits {p : Plan} {b : Byte} {s : State} {f : EncRegs → EncRegs} (h : p.Encodes b s.enc f) :
    p.Fits .compress (.byte b) s where
  outcome s' := h.outcome s'
  keeps f' g' hgo s' hs' := by
    obtain ⟨rfl, rfl⟩ := h.ends.goOn_inj hgo
    exact h.keeps s'.enc hs'
  flushes f' hflush := absurd hflush h.ends.not_flush_of_goOn

theorem Plan.Decodes.fits {p : Plan} {b : Byte} {s : State} {g : DecRegs → DecRegs} (h : p.Decodes b s.dec g) :
    p.Fits .decompress (.byte b) s where
  outcome s' := h.outcome s'
  keeps f' g' hgo s' hs' := by
    obtain ⟨rfl, rfl⟩ := h.ends.goOn_inj hgo
    exact h.keeps s'.dec hs'
  flushes f' hflush := absurd hflush h.ends.not_flush_of_goOn

/-- R84: what a command does in an ACTIVE session is planned by the registers of the engine that the mode selects. -/
theorem exists_fits (mode : SMode) (c : SessionCommand) (s : State) : ∃ p : Plan, p.Fits mode c s := by
  cases c with
  | byte b =>
    cases mode with
    | compress =>
      obtain ⟨p, f, hp⟩ := exists_encodes b s.enc
      exact ⟨p, hp.fits⟩
    | decompress =>
      obtain ⟨p, g, hp⟩ := exists_decodes b s.dec
      exact ⟨p, hp.fits⟩
  | fin =>
    cases mode with
    | compress =>
      obtain ⟨p, hends, hp⟩ := exists_plan_encFin s.enc
      exact ⟨p, hp, fun f g h => absurd h hends.not_goOn_of_flush, fun _ _ => rfl⟩
    | decompress =>
      obtain ⟨p, hends, hp⟩ := exists_plan_decFin s.dec
      exact ⟨p, hp, fun f g h => absurd h (hends f g), fun _ _ => rfl⟩
  | srcfault =>
    exact ⟨⟨[], .raise .readFault⟩, fun _ _ => rfl, nofun, nofun⟩

end Sys2Proof.Machine
end

section
/-! PROOFS. What a command can come to, whatever state it finds: the fault kinds, `out`, the mode, the session and the
sink's content (R17, R18, R37, R42, R100), the encoder's buffer, and the host's other events, which no command sees
(R48). -/

namespace Sys2Proof.Machine

/-! ### The outcomes of a plan -/

/-- The outcomes of a plan in two states to which the sink answers alike are alike, if its four ways to end are. -/
theorem Plan.outcome_alike {Q : Host.Outcome State Fault Refusal → Host.Outcome State Fault Refusal → Prop} (p : Plan)
    {s s' : State} (hanswer : ∀ i, s'.answer i = s.answer i) (hstop : ∀ x, Q (.fault x) (.fault x))
    (hfault : ∀ kind n bs, Q (.next (faultEntry kind ((s.drawn n).emitted bs)))
      (.next (faultEntry kind ((s'.drawn n).emitted bs))))
    (hgoOn : ∀ f g n, p.ending = .goOn f g → Q (.next (((s.drawn n).emitted p.bytes).withRegs (f s.enc) (g s.dec)))
      (.next (((s'.drawn n).emitted p.bytes).withRegs (f s'.enc) (g s'.dec))))
    (hflush : ∀ f n, p.ending = .flush f →
      Q (.next (sessionDone (((s.drawn n).emitted p.bytes).withRegs (f s.enc) s.dec)))
        (.next (sessionDone (((s'.drawn n).emitted p.bytes).withRegs (f s'.enc) s'.dec)))) :
    Q (p.outcome s) (p.outcome s') := by
  rcases s.accepts_or_first_reject p.bytes.length with ha | ⟨j, hj, ha, hr⟩
  · rw [Plan.outcome_accept ha, Plan.outcome_accept fun i hi => (hanswer i).trans (ha i hi)]
    cases hending : p.ending with
    | stop x => exact hstop x
    | raise kind => exact hfault kind _ _
    | goOn f g => exact hgoOn f g _ hending
    | flush f =>
      have h0 : ((s.drawn p.bytes.length).emitted p.bytes).answer 0 = s.answer p.bytes.length := by simp
      have h0' : ((s'.drawn p.bytes.length).emitted p.bytes).answer 0 = s.answer p.bytes.length := by
        simp [hanswer]
      rcases s.answer_cases p.bytes.length with hlast | hlast
      · rw [Ending.run, Ending.run, sinkFlush_accept (h0.trans hlast), sinkFlush_accept (h0'.trans hlast)]
        simp only [State.emitted_drawn, State.drawn_drawn]
        exact hflush f _ hending
      · rw [Ending.run, Ending.run, sinkFlush_reject (h0.trans hlast), sinkFlush_reject (h0'.trans hlast)]
        simp only [State.emitted_drawn, State.drawn_drawn]
        exact hfault _ _ _
  · rw [Plan.outcome_reject hj ha hr,
      Plan.outcome_reject hj (fun i hi => (hanswer i).trans (ha i hi)) ((hanswer j).trans hr)]
    exact hfault _ _ _

/-! ### The host's other events (R48) -/

/-- The outcome with these events pending in its next state. -/
def withPending (es : List HostEvent) : Host.Outcome State Fault Refusal → Host.Outcome State Fault Refusal
  | .next t => .next (t.setPending es)
  | .fault f => .fault f
  | .refused r => .refused r

theorem Plan.outcome_setPending (p : Plan) (es : List HostEvent) (s : State) :
    p.outcome (s.setPending es) = withPending es (p.outcome s) :=
  p.outcome_alike (Q := fun o o' => o' = withPending es o) (s.answer_setPending es) (fun _ => rfl) (fun _ _ _ => rfl)
    (fun _ _ _ _ => rfl) (fun _ _ _ => rfl)

theorem illegal_setPending (es : List HostEvent) (s : State) :
    illegal (s.setPending es) = withPending es (illegal s) := by
  rw [illegal_eq, illegal_eq, State.setPending_sess]
  split <;> rfl

theorem runWord_setPending (w : CommandWord) (es : List HostEvent) (s : State) :
    runWord w (s.setPending es) = withPending es (runWord w s) := by
  rcases word_kinds w with ⟨mode, rfl⟩ | hillegal | ⟨c, rfl⟩
  · rw [runWord_initWord, runWord_initWord]
    rfl
  · rw [runWord_of_illegalWord _ hillegal, runWord_of_illegalWord _ hillegal, illegal_setPending]
  · rw [runWord_word, runWord_word]
    by_cases ha : s.sess = .active
    · obtain ⟨p, hp⟩ := exists_fits s.smode c s
      rw [inSession_of_active _ ha, inSession_of_active (s := s.setPending es) _ ha, State.setPending_smode,
        hp.outcome s (EngineAgree.refl _ s), hp.outcome (s.setPending es) (EngineAgree.refl _ s),
        Plan.outcome_setPending]
    · rw [inSession_of_not_active _ ha, inSession_of_not_active (s := s.setPending es) _ ha, illegal_setPending]

/-- Settles O53: no plan looks at the events on the port, and no other word does. -/
theorem commandsAreNotStored : Obligations.CommandsAreNotStored := by
  intro i es s
  rw [exec_eq_runWord, runWord_setPending, exec_eq_runWord]
  cases runWord (encode i) s <;> rfl

/-! ### What a command comes to -/

/-- What a command word can come to: R84's branches, with the draws taken and the bytes put out in an ACTIVE session. -/
inductive CommandEffect (w : CommandWord) (s : State) : State → Prop where
  | init (mode : SMode) (hw : w = initWord mode) : CommandEffect w s (initSession mode s)
  | ignored (hw : legalInit w = false) (hs : s.sess = .faulted) : CommandEffect w s s
  | illegal (hw : legalInit w = false) : CommandEffect w s (faultEntry .illegalCommand s)
  | fault (hw : legalInit w = false) (ha : s.sess = .active) (kind : FaultKind) (n : Nat) (bs : List Byte) :
    CommandEffect w s (faultEntry kind ((s.drawn n).emitted bs))
  | goOn (hw : legalInit w = false) (ha : s.sess = .active) (n : Nat) (bs : List Byte) (e : EncRegs) (d : DecRegs) :
    CommandEffect w s (((s.drawn n).emitted bs).withRegs e d)
  | done (hw : w = finWord) (ha : s.sess = .active) (n : Nat) (bs : List Byte) (e : EncRegs) :
    CommandEffect w s (sessionDone (((s.drawn n).emitted bs).withRegs e s.dec))

theorem commandEffect_of_illegal {w : CommandWord} {s t : State} (hw : legalInit w = false) (h : illegal s = .next t) :
    CommandEffect w s t := by
  rw [illegal_eq] at h
  split at h <;> obtain rfl := Host.Outcome.next.inj h
  · next hs => exact .ignored hw hs
  · exact .illegal hw

theorem commandEffect_of_plan {p : Plan} {c : SessionCommand} {s t : State} (ha : s.sess = .active)
    (hflushes : ∀ f, p.ending = .flush f → c = .fin) (h : p.outcome s = .next t) : CommandEffect c.word s t := by
  refine p.outcome_alike (Q := fun o _ => ∀ t, o = .next t → CommandEffect c.word s t) (fun _ => rfl)
    (fun x t h => ?_) (fun kind n bs t h => ?_) (fun f g n _ t h => ?_) (fun f n hending t h => ?_) t h
  · cases h
  · obtain rfl := Host.Outcome.next.inj h
    exact .fault c.legalInit_word ha kind n bs
  · obtain rfl := Host.Outcome.next.inj h
    exact .goOn c.legalInit_word ha n _ _ _
  · obtain rfl := Host.Outcome.next.inj h
    exact .done (congrArg SessionCommand.word (hflushes f hending)) ha n _ _

theorem commandEffect {w : CommandWord} {s t : State} (h : exec (instrOf s w) s = .next t) : CommandEffect w s t := by
  rw [exec_instrOf] at h
  rcases word_kinds w with ⟨mode, rfl⟩ | hillegal | ⟨c, rfl⟩
  · rw [runWord_initWord] at h
    obtain rfl := Host.Outcome.next.inj h
    exact .init mode rfl
  · rw [runWord_of_illegalWord s hillegal] at h
    exact commandEffect_of_illegal (legalInit_of_illegalWord hillegal) h
  · rw [runWord_word] at h
    by_cases ha : s.sess = .active
    · obtain ⟨p, hp⟩ := exists_fits s.smode c s
      rw [inSession_of_active _ ha, hp.outcome s (EngineAgree.refl _ s)] at h
      exact commandEffect_of_plan ha hp.flushes h
    · rw [inSession_of_not_active _ ha] at h
      exact commandEffect_of_illegal c.legalInit_word h

/-! ### `out`, the mode and the session -/

/-- Settles O47: only INIT empties `out`, and what a session puts out goes at its end. -/
theorem outIsAppendOnly : Obligations.OutIsAppendOnly := by
  intro w s t hexec hw
  cases commandEffect hexec with
  | init mode hinit =>
    rw [hinit, legalInit_initWord] at hw
    cases hw
  | ignored | illegal => exact List.prefix_refl s.out
  | fault | goOn | done => exact List.prefix_append s.out _

theorem smode_of_not_legalInit {w : CommandWord} (hw : legalInit w = false) (m : SMode) :
    (if w = 0x000#10 then SMode.compress else if w = 0x001#10 then .decompress else m) = m := by
  have h0 : w ≠ 0x000#10 := by
    rintro rfl
    cases hw
  have h1 : w ≠ 0x001#10 := by
    rintro rfl
    cases hw
  rw [if_neg h0, if_neg h1]

/-- Settles O49: every effect but that of INIT keeps the mode. -/
theorem onlyInitWritesSmode : Obligations.OnlyInitWritesSmode := by
  intro w s t hexec
  cases commandEffect hexec with
  | init mode hinit =>
    subst hinit
    cases mode <;> rfl
  | ignored hw | illegal hw | fault hw | goOn hw => exact (smode_of_not_legalInit hw s.smode).symm
  | done hw =>
    subst hw
    rfl

theorem false_of_legalInit {w : CommandWord} (hw : legalInit w = false) (h : legalInit w = true) : False :=
  Bool.false_ne_true (hw.symm.trans h)

/-- Settles O51: each effect leaves the session that R17 gives it. -/
theorem sessionLifecycle : Obligations.SessionLifecycle := by
  intro w s t hexec
  cases commandEffect hexec with
  | init mode hinit => exact ⟨fun _ => rfl, fun _ => .inl (hinit ▸ legalInit_initWord mode), nofun, nofun, nofun⟩
  | ignored hw hs =>
    have hsess {x : Sess} (hx : .faulted ≠ x) : s.sess ≠ x := hs ▸ hx
    exact ⟨fun h => (false_of_legalInit hw h).elim, fun h => absurd h (hsess nofun), fun h => absurd h (hsess nofun),
      fun _ => .inl ⟨hs, rfl⟩, hsess nofun⟩
  | illegal hw | fault hw =>
    exact ⟨fun h => (false_of_legalInit hw h).elim, nofun, nofun, fun _ => .inr nofun, nofun⟩
  | goOn hw ha n bs e d =>
    have hsess {x : Sess} (hx : .active ≠ x) : (((s.drawn n).emitted bs).withRegs e d).sess ≠ x := ha ▸ hx
    exact ⟨fun h => (false_of_legalInit hw h).elim, fun _ => .inr ha, fun h => absurd h (hsess nofun),
      fun h => absurd h (hsess nofun), hsess nofun⟩
  | done hw ha =>
    exact ⟨fun h => (false_of_legalInit (hw ▸ rfl) h).elim, nofun, fun _ => ⟨ha, hw, rfl⟩, nofun, nofun⟩

/-! ### The sink's content -/

theorem sinkContent_faultEntry_of_active {s : State} (kind : FaultKind) (ha : s.sess = .active) :
    (faultEntry kind s).sinkContent = some s.heldPrefix := by
  simp only [State.sinkContent, faultEntry_log, State.logFault, ha]
  rfl

theorem sinkContent_initSession_of_not_active {s : State} (mode : SMode) (h : s.sess ≠ .active) :
    (initSession mode s).sinkContent = s.sinkContent := by
  rw [State.sinkContent, initSession_log, State.logAbandon_of_not_active h, State.sinkContent]

/-- Settles O52: the log's newest entry about a session is the one that its end made, and a misuse makes none. -/
theorem durableContentIsSettledOnce : Obligations.DurableContentIsSettledOnce := by
  intro w s t hexec
  have hnotDone (ha : s.sess = .active) : s.sess ≠ .done := ha ▸ nofun
  have hnotActive (hd : s.sess = .done) : s.sess ≠ .active := hd ▸ nofun
  cases commandEffect hexec with
  | init mode =>
    exact ⟨nofun, nofun, fun ha _ => State.sinkContent_of_abandoned ha rfl,
      fun hd => sinkContent_initSession_of_not_active mode (hnotActive hd)⟩
  | ignored hw hs =>
    have hne : s.sess ≠ .active := hs ▸ nofun
    exact ⟨fun ha => absurd ha hne, fun ha => absurd ha hne, fun ha => absurd ha hne, fun _ => rfl⟩
  | illegal hw =>
    exact ⟨nofun, fun ha _ => sinkContent_faultEntry_of_active _ ha, fun _ h => (false_of_legalInit hw h).elim,
      fun hd => sinkContent_faultEntry_of_not_active _ (hnotActive hd)⟩
  | fault hw ha kind n bs =>
    exact ⟨nofun, fun _ _ => sinkContent_faultEntry_of_active (s := (s.drawn n).emitted bs) kind ha,
      fun _ h => (false_of_legalInit hw h).elim, fun hd => absurd hd (hnotDone ha)⟩
  | goOn hw ha n bs e d =>
    have hsess {x : Sess} (hx : .active ≠ x) : (((s.drawn n).emitted bs).withRegs e d).sess ≠ x := ha ▸ hx
    exact ⟨fun _ h => absurd h (hsess nofun), fun _ h => absurd h (hsess nofun),
      fun _ h => (false_of_legalInit hw h).elim, fun hd => absurd hd (hnotDone ha)⟩
  | done hw ha =>
    exact ⟨fun _ _ => rfl, nofun, fun _ h => (false_of_legalInit (hw ▸ rfl) h).elim,
      fun hd => absurd hd (hnotDone ha)⟩

/-! ### The fault -/

/-- Settles O50: the invariant keeps `err` to FAULTED, where a command that is no legal INIT has no effect. -/
theorem firstFaultIsSticky : Obligations.FirstFaultIsSticky := by
  intro s t kind hs herr hstep
  have hfaulted : s.sess = .faulted := by
    by_contra hne
    rw [hs.err.mpr hne] at herr
    cases herr
  cases hpending : s.port.pending with
  | nil =>
    obtain rfl := Host.Outcome.next.inj (hstep.symm.trans (step_of_no_event hpending))
    exact .inl herr
  | cons e es =>
    cases e with
    | reset => exact .inr (.inl rfl)
    | command w =>
      cases hw : legalInit w with
      | true => exact .inr (.inr ⟨w, rfl, hw⟩)
      | false =>
        have hexec := exec_instrOf_of_faulted (s := s.setPending es) hfaulted hw
        obtain rfl := Host.Outcome.next.inj (hstep.symm.trans ((step_command hpending).trans hexec))
        exact .inl herr

/-! ### The encoder's buffer -/

theorem Plan.enc_of_next {p : Plan} {f : EncRegs → EncRegs} {s t : State}
    (hgoOn : ∀ f' g, p.ending = .goOn f' g → f' = f) (hflush : ∀ f', p.ending = .flush f' → f' = f)
    (hnext : p.outcome s = .next t) (ht : t.sess ≠ .faulted) : t.enc = f s.enc := by
  refine p.outcome_alike (Q := fun o _ => ∀ t, o = .next t → t.sess ≠ .faulted → t.enc = f s.enc) (fun _ => rfl)
    (fun x t h => ?_) (fun kind n bs t h ht => ?_) (fun f' g n hending t h _ => ?_) (fun f' n hending t h _ => ?_)
    t hnext ht
  · cases h
  · obtain rfl := Host.Outcome.next.inj h
    exact absurd rfl ht
  · obtain rfl := Host.Outcome.next.inj h
    exact congrFun (hgoOn f' g hending) s.enc
  · obtain rfl := Host.Outcome.next.inj h
    exact congrFun (hflush f' hending) s.enc

/-- What ENC.BYTE of `b` does to the buffer where it leaves no fault: it stores no cell, the cell at the count, or cell
0. -/
inductive StoresCell (b : Byte) (e e' : EncRegs) : Prop where
  | none (hn : e.runCount ≠ some 0#7) (hp : e.pendingByte = some b) (h : e'.blockBuffer = e.blockBuffer)
  | count (n : Count) (hm : e.mode = some .accumulating) (hn : e.runCount = some n)
      (hp : n = 0#7 ∨ e.pendingByte ≠ some b) (h : e'.blockBuffer = Memory.write e.blockBuffer n.toNat b)
  | zero (hm : e.mode = some .repeating) (hp : e.pendingByte ≠ some b)
      (h : e'.blockBuffer = Memory.write e.blockBuffer 0 b)

section
variable {b : Byte} {s t : State} (ha : s.sess = .active) (hc : s.smode = .compress) (ht : t.sess ≠ .faulted)
include ha hc ht

theorem Plan.Encodes.enc_of_next {p : Plan} {f : EncRegs → EncRegs} (hp : p.Encodes b s.enc f)
    (hexec : exec (.encByte b) s = .next t) : t.enc = f s.enc := by
  rw [exec_encByte b ha hc, hp.outcome s (EncAgree.refl _)] at hexec
  exact Plan.enc_of_next (fun f' g h => (hp.ends.goOn_inj h).1.symm) (fun f' h => absurd h hp.ends.not_flush_of_goOn)
    hexec ht

theorem storesCell_of_exec_encByte (hexec : exec (.encByte b) s = .next t) : StoresCell b s.enc t.enc := by
  have hnoStop {x : Fault} (h : exec (.encByte b) s = .fault x) : StoresCell b s.enc t.enc := by
    rw [h] at hexec
    cases hexec
  cases encByteCase b s.enc with
  | bottom h => exact hnoStop (exec_encByte_stop ha hc (readingEncoder_of_bottom _ h))
  | outside mode n hm hn h => exact hnoStop (exec_encByte_stop ha hc (readingEncoder_outside _ hm hn h))
  | blockNoPending n hm hn h1 h2 hp => exact hnoStop (exec_accumulating_of_no_pending ha hc hm hn h1 h2 hp)
  | runNoPending n hm hn h1 h2 hp => exact hnoStop (exec_repeating_of_no_pending ha hc hm hn h1 h2 hp).1
  | pair n hm hn h1 h2 hp =>
    obtain ⟨p, henc⟩ := exists_encodes_pair hm hn h1 h2 hp
    rw [henc.enc_of_next ha hc ht hexec]
    exact .none (by simpa [hn] using Count.ne_zero_of_pos h1) hp rfl
  | append n hm hn h hp =>
    rw [(encodes_append hm hn h hp).enc_of_next ha hc ht hexec]
    refine .count n hm hn (hp.imp_right ?_) rfl
    rintro ⟨p, hp, hne⟩
    simpa [hp] using hne
  | full p hm hn hp hne =>
    obtain ⟨p, henc⟩ := exists_encodes_full hm hn hp hne
    rw [henc.enc_of_next ha hc ht hexec]
    exact .count 126#7 hm hn (.inr (by simpa [hp] using Ne.symm hne)) rfl
  | extend n hm hn h1 h2 hp =>
    rw [(encodes_extend hm hn h1 h2 hp).enc_of_next ha hc ht hexec]
    exact .none (by simpa [hn] using Count.ne_zero_of_pos (Nat.le_of_succ_le h1)) hp rfl
  | repFull hm hn hp =>
    rw [(encodes_repFull hm hn hp).enc_of_next ha hc ht hexec]
    exact .none (by rw [hn]; decide) hp rfl
  | broken n p hm hn h1 h2 hp hne =>
    rw [(encodes_break hm hn h1 h2 hp hne).enc_of_next ha hc ht hexec]
    exact .zero hm (by simpa [hp] using Ne.symm hne) rfl

theorem enc_of_exec_encFin (hexec : exec .encFin s = .next t) : t.enc = emptyRegs s.enc := by
  obtain ⟨p, hends, hp⟩ := exists_plan_encFin s.enc
  rw [exec_encFin ha hc, hp s (EncAgree.refl _)] at hexec
  exact Plan.enc_of_next (fun f' g h => absurd h hends.not_goOn_of_flush) (fun f' h => hends.flush_inj h) hexec ht

end

/-- Settles O31: the registers that each case leaves say which cell it stores. -/
theorem encoderBufferFrame : Obligations.EncoderBufferFrame := by
  intro b n s t ha hc hn ht
  have hframe (a : Nat) (h : t.enc.blockBuffer = Memory.write s.enc.blockBuffer a b) :
      Memory.read t.enc.blockBuffer a = some b ∧
        ∀ i ≠ a, Memory.read t.enc.blockBuffer i = Memory.read s.enc.blockBuffer i := by
    rw [h]
    exact ⟨Memory.read_write_same _ _ _, fun i => Memory.read_write_other _ _⟩
  refine ⟨fun hexec hm hp => ?_, fun hexec hm hp => ?_, fun hexec h0 hp => ?_, fun hexec a => ?_⟩
  · cases storesCell_of_exec_encByte ha hc ht hexec with
    | none hn' hp' h =>
      rcases hp with rfl | hp
      · exact absurd hn hn'
      · exact absurd hp' hp
    | count n' _ hn' _ h =>
      obtain rfl : n = n' := Option.some.inj (hn.symm.trans hn')
      exact hframe n.toNat h
    | zero hm' => cases hm.symm.trans hm'
  · cases storesCell_of_exec_encByte ha hc ht hexec with
    | none _ hp' => exact absurd hp' hp
    | count _ hm' => cases hm.symm.trans hm'
    | zero _ _ h => exact hframe 0 h
  · cases storesCell_of_exec_encByte ha hc ht hexec with
    | none _ _ h => exact fun a => by rw [h]
    | count n' _ hn' hp' =>
      obtain rfl : n = n' := Option.some.inj (hn.symm.trans hn')
      exact absurd hp (hp'.resolve_left h0)
    | zero _ hp' => exact absurd hp hp'
  · rw [enc_of_exec_encFin ha hc ht hexec, emptyRegs]

end Sys2Proof.Machine
end

section
/-! PROOFS. Runs: every step of a state that meets the invariant answers a next state (R84, R28), registers that no
command reads have no effect on it (R31, R32), and so neither have the values that reset and INIT leave unspecified
(I2). -/

namespace Sys2Proof.Machine

/-! ### Every step is total -/

theorem Offers.exists_next {i : Instr} {s after : State} {bs : List Byte} {draws : Nat}
    (h : Offers i s bs draws after) :
    ∃ t, exec i s = .next t := by
  rcases h.cases with h | ⟨j, -, h⟩ <;> exact ⟨_, h⟩

theorem exists_next_of_encoder {i : Instr} {s : State} (hs : Inv s) (ha : s.sess = .active) (hc : s.smode = .compress)
    (hi : i = .encFin ∨ ∃ b, i = .encByte b) : ∃ t, exec i s = .next t := by
  obtain ⟨held, hheld⟩ := hs.exists_holds ha hc
  rcases hi with rfl | ⟨b, rfl⟩
  · obtain ⟨rs, -, -, -, hoffers⟩ := exists_encodesFin ha hc hheld
    exact hoffers.exists_next
  · obtain ⟨rs, e, heffect⟩ := exists_encodesByte ha hc b hheld
    exact heffect.offers.exists_next

theorem exists_next_of_decoder {i : Instr} {s : State} (hs : Inv s) (ha : s.sess = .active)
    (hd : s.smode = .decompress) (hi : i = .decFin ∨ ∃ b, i = .decByte b) : ∃ t, exec i s = .next t := by
  have hdec : DecoderInv s.dec := (hs.decompress ha hd).1
  rcases hi with rfl | ⟨b, rfl⟩
  · obtain ⟨phase, hp, -⟩ := hdec
    by_cases hphase : phase = .awaitingStatus
    · subst hphase
      exact (offers_decFin ha hd hp).exists_next
    · exact ⟨_, exec_decFin_truncated ha hd hp hphase⟩
  · obtain ⟨bs, d, hoffers, -⟩ := exists_decodesByte ha hd b hdec
    exact hoffers.exists_next

theorem exists_next_of_command (w : CommandWord) {s : State} (hs : Inv s) : ∃ t, exec (instrOf s w) s = .next t := by
  cases commandCases w s with
  | init mode _ h => exact ⟨_, h⟩
  | illegal h =>
    rw [h, illegal_eq]
    split <;> exact ⟨_, rfl⟩
  | srcfault _ h => exact ⟨_, h⟩
  | compress ha hc hi => exact exists_next_of_encoder hs ha hc hi
  | decompress ha hd hi => exact exists_next_of_decoder hs ha hd hi

/-- Settles O45: what the invariant says of the engine that the mode selects is all that its commands read. -/
theorem everyStepAnswersNext : Obligations.EveryStepAnswersNext := by
  intro s hs
  cases hpending : s.port.pending with
  | nil => exact ⟨s, step_of_no_event hpending⟩
  | cons e es =>
    cases e with
    | reset => exact ⟨_, step_reset hpending⟩
    | command w =>
      rw [step_command hpending]
      exact exists_next_of_command w (hs.setPending es)

theorem run_keeps_inv {s : State} (hs : Inv s) (k : Nat) : ∃ t, Sys2Proof.core.run k s = .next t ∧ Inv t := by
  induction k generalizing s with
  | zero => exact ⟨s, rfl, hs⟩
  | succ k ih =>
    obtain ⟨u, hstep⟩ := everyStepAnswersNext s hs
    rw [core_run_succ k hstep]
    exact ih (stepKeepsTheInvariant s u hs hstep)

/-- Settles O59: a run from a state that meets the invariant goes on, and the state after reset meets it. -/
theorem runsFromResetNeverStop : Obligations.RunsFromResetNeverStop :=
  fun port k => run_keeps_inv (inv_reset port) k

/-! ### Registers that no command reads -/

/-- The states are one but for the engines, and in an ACTIVE session the engine that the mode selects agrees where a
command may read it. -/
theorem hiddenAgree_iff (s s' : State) :
    HiddenAgree s s' ↔ ∃ e d, s' = s.withRegs e d ∧ (s.sess = .active → EngineAgree s.smode s (s.withRegs e d)) := by
  constructor
  · rintro ⟨hsess, hsmode, herr, hout, hport, hlog, henc, hdec⟩
    have hs' : s' = s.withRegs s'.enc s'.dec := by
      rw [State.withRegs, hsess, hsmode, herr, hout, hport, hlog]
    refine ⟨s'.enc, s'.dec, hs', fun ha => ?_⟩
    cases hmode : s.smode with
    | compress => exact henc ha hmode
    | decompress => exact hdec ha hmode
  · rintro ⟨e, d, rfl, h⟩
    refine ⟨rfl, rfl, rfl, rfl, rfl, rfl, fun ha hmode => ?_, fun ha hmode => ?_⟩
    · have hagree := h ha
      rw [hmode] at hagree
      exact hagree
    · have hagree := h ha
      rw [hmode] at hagree
      exact hagree

theorem HiddenAgree.refl (s : State) : HiddenAgree s s :=
  (hiddenAgree_iff s s).mpr ⟨s.enc, s.dec, rfl, fun _ => EngineAgree.refl _ s⟩

theorem HiddenAgree.setPending {s s' : State} (h : HiddenAgree s s') (es : List HostEvent) :
    HiddenAgree (s.setPending es) (s'.setPending es) := by
  obtain ⟨e, d, rfl, hagree⟩ := (hiddenAgree_iff s s').mp h
  exact (hiddenAgree_iff _ _).mpr ⟨e, d, rfl, hagree⟩

theorem HiddenAgree.visible_eq {s s' : State} (h : HiddenAgree s s') : s.visible = s'.visible := by
  obtain ⟨e, d, rfl, -⟩ := (hiddenAgree_iff s s').mp h
  rfl

/-- The same stop, or next states that differ at most in registers no command reads. -/
inductive HiddenAlike : Host.Outcome State Fault Refusal → Host.Outcome State Fault Refusal → Prop where
  | next {t t' : State} (h : HiddenAgree t t') : HiddenAlike (.next t) (.next t')
  | fault (x : Fault) : HiddenAlike (.fault x) (.fault x)

theorem HiddenAlike.of_next {t : State} {o : Host.Outcome State Fault Refusal} (h : HiddenAlike (.next t) o) :
    ∃ t', o = .next t' ∧ HiddenAgree t t' := by
  cases h with
  | next h => exact ⟨_, rfl, h⟩

theorem HiddenAlike.of_fault {x : Fault} {o : Host.Outcome State Fault Refusal} (h : HiddenAlike (.fault x) o) :
    o = .fault x := by
  cases h
  rfl

section
variable {s : State} {e : EncRegs} {d : DecRegs}

theorem illegal_hiddenAlike (h : HiddenAgree s (s.withRegs e d)) :
    HiddenAlike (illegal s) (illegal (s.withRegs e d)) := by
  have hsess : (s.withRegs e d).sess = s.sess := rfl
  rw [illegal_eq, illegal_eq, hsess]
  split
  · exact .next h
  · exact .next (HiddenAgree.refl _)

/-- The bytes and the draws are those of the one plan, and what follows them agrees again. -/
theorem outcome_hiddenAlike {p : Plan} {c : SessionCommand} (hp : p.Fits s.smode c s)
    (hagree : EngineAgree s.smode s (s.withRegs e d)) : HiddenAlike (p.outcome s) (p.outcome (s.withRegs e d)) := by
  refine p.outcome_alike (fun _ => rfl) .fault (fun kind n bs => .next (HiddenAgree.refl _))
    (fun f g n hending => .next ?_) (fun f n _ => .next ?_)
  · exact (hiddenAgree_iff _ _).mpr ⟨f e, g d, rfl, fun _ => hp.keeps f g hending _ hagree⟩
  · exact (hiddenAgree_iff _ _).mpr ⟨f e, d, rfl, nofun⟩

theorem runWord_hiddenAlike (w : CommandWord) (h : HiddenAgree s (s.withRegs e d))
    (hagree : s.sess = .active → EngineAgree s.smode s (s.withRegs e d)) :
    HiddenAlike (runWord w s) (runWord w (s.withRegs e d)) := by
  rcases word_kinds w with ⟨mode, rfl⟩ | hillegal | ⟨c, rfl⟩
  · rw [runWord_initWord, runWord_initWord]
    exact .next (HiddenAgree.refl _)
  · rw [runWord_of_illegalWord _ hillegal, runWord_of_illegalWord _ hillegal]
    exact illegal_hiddenAlike h
  · rw [runWord_word, runWord_word]
    by_cases ha : s.sess = .active
    · have ha' : (s.withRegs e d).sess = .active := ha
      have hsmode : (s.withRegs e d).smode = s.smode := rfl
      obtain ⟨p, hp⟩ := exists_fits s.smode c s
      rw [inSession_of_active _ ha, inSession_of_active _ ha', hsmode, hp.outcome s (EngineAgree.refl _ s),
        hp.outcome _ (hagree ha)]
      exact outcome_hiddenAlike hp (hagree ha)
    · have ha' : ¬ (s.withRegs e d).sess = .active := ha
      rw [inSession_of_not_active _ ha, inSession_of_not_active _ ha']
      exact illegal_hiddenAlike h

end

theorem exec_hiddenAlike {s s' : State} (w : CommandWord) (h : HiddenAgree s s') :
    HiddenAlike (exec (instrOf s w) s) (exec (instrOf s' w) s') := by
  obtain ⟨e, d, rfl, hagree⟩ := (hiddenAgree_iff s s').mp h
  rw [exec_instrOf, exec_instrOf]
  exact runWord_hiddenAlike w h hagree

theorem HiddenAgree.hardwareReset_eq {s s' : State} (h : HiddenAgree s s') : hardwareReset s = hardwareReset s' := by
  obtain ⟨e, d, rfl, -⟩ := (hiddenAgree_iff s s').mp h
  rfl

theorem step_hiddenAlike {s s' : State} (h : HiddenAgree s s') : HiddenAlike (step s) (step s') := by
  have hport : s'.port = s.port := by
    obtain ⟨e, d, rfl, -⟩ := (hiddenAgree_iff s s').mp h
    rfl
  cases hpending : s.port.pending with
  | nil =>
    rw [step_of_no_event hpending, step_of_no_event (hport ▸ hpending)]
    exact .next h
  | cons e es =>
    cases e with
    | command w =>
      rw [step_command hpending, step_command (hport ▸ hpending)]
      exact exec_hiddenAlike w (h.setPending es)
    | reset =>
      rw [step_reset hpending, step_reset (hport ▸ hpending), (h.setPending es).hardwareReset_eq]
      exact .next (HiddenAgree.refl _)

/-- Settles O54: the step takes the same event in both states, and a command's plan reads registers that agree. -/
theorem hiddenRegistersHaveNoEffect : Obligations.HiddenRegistersHaveNoEffect := by
  intro s s' h
  have hstep := step_hiddenAlike h
  refine ⟨fun t ht => ?_, fun f hf => ?_⟩
  · rw [ht] at hstep
    exact hstep.of_next
  · rw [hf] at hstep
    exact hstep.of_fault

/-! ### Values that reset and INIT leave unspecified -/

theorem run_hiddenAgree {s s' : State} (hs : Inv s) (h : HiddenAgree s s') (k : Nat) :
    ∃ t t', Sys2Proof.core.run k s = .next t ∧ Sys2Proof.core.run k s' = .next t' ∧ HiddenAgree t t' := by
  induction k generalizing s s' with
  | zero => exact ⟨s, s', rfl, rfl, h⟩
  | succ k ih =>
    obtain ⟨u, hstep⟩ := everyStepAnswersNext s hs
    obtain ⟨u', hstep', hu⟩ := (hiddenRegistersHaveNoEffect s s' h).1 u hstep
    rw [core_run_succ k hstep, core_run_succ k hstep']
    exact ih (stepKeepsTheInvariant s u hs hstep) hu

/-- With an empty block and a status byte awaited, no command reads what is left unspecified (R22, R24, R26). -/
theorem hiddenAgree_withUnspecified {s : State} (hm : s.enc.mode = some .accumulating)
    (hn : s.enc.runCount = some 0#7) (hp : s.dec.phase = some .awaitingStatus) (p : Option Byte) (m : Memory)
    (r : Option Count) : HiddenAgree s (s.withUnspecified p m r) :=
  ⟨rfl, rfl, rfl, rfl, rfl, rfl, fun _ _ => encAgree_empty hm hn rfl rfl, fun _ _ => ⟨rfl, fun h => absurd hp h⟩⟩

/-- Settles O60: reset and INIT leave the block empty and a status byte awaited, in a state that meets the invariant. -/
theorem unspecifiedValuesHaveNoEffect : Obligations.UnspecifiedValuesHaveNoEffect := by
  intro s₀ p m r k hs₀
  have hstart : Inv s₀ ∧ HiddenAgree s₀ (s₀.withUnspecified p m r) := by
    rcases hs₀ with ⟨mode, s, rfl⟩ | ⟨port, rfl⟩
    · exact ⟨inv_initSession mode s, hiddenAgree_withUnspecified rfl rfl rfl p m r⟩
    · exact ⟨inv_reset port, hiddenAgree_withUnspecified rfl rfl rfl p m r⟩
  obtain ⟨t, t', hrun, hrun', hagree⟩ := run_hiddenAgree hstart.1 hstart.2 k
  exact ⟨t, t', hrun, hrun', hagree, hagree.visible_eq⟩

end Sys2Proof.Machine
end

section
/-! PROOFS. Equal bytes into an empty block: one byte stands in the block, the second makes a run of them, and the run
is put out at its 127th byte (R65 to R70, R74). -/

namespace Sys2Proof.Machine

/-- The encoder at rest after `j` bytes `x` into an empty block, with no run put out in between (R74). -/
inductive EncRegs.TakesEqual (x : Byte) (e : EncRegs) (j : Nat) : Prop where
  | none (hj : j = 0) (hm : e.mode = some .accumulating) (hn : e.runCount = some 0#7)
  | one (hj : j = 1) (hm : e.mode = some .accumulating) (hn : e.runCount = some 1#7) (hp : e.pendingByte = some x)
      (hcell : Memory.read e.blockBuffer 0 = some x)
  | run (n : Count) (hj : n.toNat = j) (hm : e.mode = some .repeating) (hn : e.runCount = some n)
      (hmin : 2 ≤ n.toNat) (hmax : n.toNat ≤ 126) (hp : e.pendingByte = some x)

/-- The records of runs of 127 bytes `x`, `m` of them (R70). -/
def fullRuns (x : Byte) (m : Nat) : List Byte :=
  (List.replicate m [0xFF#8, x]).flatten

theorem fullRuns_add (x : Byte) (m n : Nat) : fullRuns x (m + n) = fullRuns x m ++ fullRuns x n := by
  rw [fullRuns, ← List.replicate_append_replicate, List.flatten_append, fullRuns, fullRuns]

/-- ENC.BYTE of one equal byte more: the 127th puts the run out, and no other puts out anything. -/
theorem exists_offers_equal {x : Byte} {s : State} {j : Nat} (ha : s.sess = .active) (hc : s.smode = .compress)
    (h : s.enc.TakesEqual x j) :
    ∃ e, Offers (.encByte x) s (fullRuns x ((j + 1) / 127)) (fullRuns x ((j + 1) / 127)).length
        (s.encoded (fullRuns x ((j + 1) / 127)) e) ∧ e.TakesEqual x ((j + 1) % 127) := by
  cases h with
  | none hj hm hn =>
    subst hj
    have heffect := encodesByte_append (b := x) ha hc hm hn rfl (by decide) (CellsHold.nil _) (.inl rfl)
    exact ⟨_, heffect.offers, .one rfl rfl rfl rfl (Memory.read_write_same _ _ _)⟩
  | one hj hm hn hp hcell =>
    subst hj
    have hcells : CellsHold s.enc.blockBuffer [x] := fun i hi => by
      obtain rfl := Nat.lt_one_iff.mp hi
      exact hcell
    have heffect := encodesByte_pair (held := []) ha hc hm hn rfl (by decide) hcells hp
    exact ⟨_, heffect.offers, .run 2#7 rfl rfl rfl (by decide) (by decide) rfl⟩
  | run n hj hm hn hmin hmax hp =>
    subst hj
    by_cases hfull : n.toNat < 126
    · have heffect := encodesByte_extend ha hc hm hn hmin hfull hp
      have hcount : (n + 1#7).toNat = n.toNat + 1 := Count.toNat_succ (by omega)
      have hdiv : (n.toNat + 1) / 127 = 0 := by omega
      have hmod : (n.toNat + 1) % 127 = n.toNat + 1 := by omega
      rw [hdiv, hmod]
      exact ⟨_, heffect.offers, .run (n + 1#7) hcount hm rfl (by omega) (by omega) hp⟩
    · obtain rfl : n = 126#7 := BitVec.eq_of_toNat_eq (Nat.le_antisymm hmax (Nat.le_of_not_lt hfull))
      exact ⟨_, (encodesByte_repFull ha hc hm hn hp).offers, .none rfl rfl rfl⟩

theorem EncRegs.TakesEqual.lt {x : Byte} {e : EncRegs} {j : Nat} (h : e.TakesEqual x j) : j < 127 := by
  cases h with
  | none hj | one hj | run n hj => omega

theorem run_equal {x : Byte} {k j : Nat} {s t : State} (ha : s.sess = .active) (hc : s.smode = .compress)
    (hj : s.enc.TakesEqual x j) (hpending : s.port.pending = ((List.replicate k x).map byteWord).map .command)
    (hrun : Sys2Proof.core.run ((List.replicate k x).map byteWord).length s = .next t) (ht : t.sess ≠ .faulted) :
    t.out = s.out ++ fullRuns x ((j + k) / 127) ∧ t.enc.TakesEqual x ((j + k) % 127) := by
  induction k generalizing s j with
  | zero =>
    obtain rfl := Host.Outcome.next.inj hrun
    have hlt := hj.lt
    have hdiv : (j + 0) / 127 = 0 := by omega
    have hmod : (j + 0) % 127 = j := by omega
    rw [hdiv, hmod]
    exact ⟨(List.append_nil _).symm, hj⟩
  | succ k ih =>
    have hws : ∀ w ∈ (List.replicate k x).map byteWord, legalInit w = false := by
      intro w hw
      obtain ⟨b, -, rfl⟩ := List.mem_map.mp hw
      exact legalInit_byteWord b
    have hi : instrOf s (byteWord x) = .encByte x := by rw [instrOf, ha, hc, decode_byteWord_compress]
    obtain ⟨e, hoffers, he⟩ := exists_offers_equal
      (s := s.setPending (((List.replicate k x).map byteWord).map .command)) ha hc hj
    have hrest := run_of_offers (ws := (List.replicate k x).map byteWord) hpending hi hoffers hws hrun ht
    obtain ⟨hout, htakes⟩ := ih
      (s := (s.setPending (((List.replicate k x).map byteWord).map .command)).encoded _ e) ha hc he rfl hrest
    have hdiv : (j + 1) / 127 + ((j + 1) % 127 + k) / 127 = (j + (k + 1)) / 127 := by omega
    have hmod : ((j + 1) % 127 + k) % 127 = (j + (k + 1)) % 127 := by omega
    rw [hmod] at htakes
    refine ⟨?_, htakes⟩
    rw [hout, ← hdiv, fullRuns_add, ← List.append_assoc]
    rfl

/-- Settles O57: of `k` equal bytes every 127 make a run that is put out, and the encoder has taken the rest. -/
theorem runsSplitAt127 : Obligations.RunsSplitAt127 := by
  intro x k s t ha hc hm hn hrun ht
  obtain ⟨hout, hrest⟩ := run_equal (k := k) (s := s.setPending (((List.replicate k x).map byteWord).map .command))
    ha hc (.none rfl hm hn) rfl hrun (by rw [ht]; decide)
  rw [Nat.zero_add] at hout hrest
  refine ⟨hout, fun h0 => ?_, fun h1 => ?_, fun h2 => ?_⟩
  · cases hrest with
    | none _ hm hn => exact ⟨hm, hn⟩
    | one hj | run n hj => omega
  · cases hrest with
    | one _ hm hn _ hcell => exact ⟨hm, hn, hcell⟩
    | none hj | run n hj => omega
  · cases hrest with
    | none hj | one hj => omega
    | run n hj hm hn _ _ hp => exact ⟨hm, by rw [hn, ← hj, BitVec.ofNat_toNat, BitVec.setWidth_eq], hp⟩

end Sys2Proof.Machine
end
